-- ==== Sys2Proof/Word.lean ====
section
/-! DEFINITION. The engine's units of data, and one word of its operation map.

A byte is 8 bits and a word 32 bits, both unsigned (00_scope.md R9). -/

namespace Sys2Proof

/-- A word: a 32-bit unit of data within a block or message schedule (00_scope.md R9, R15). -/
abbrev Word := BitVec 32

/-- A byte, a value 0..255 (00_scope.md R9). -/
abbrev Byte := BitVec 8

/-- What the engine's decoder sees at one instant (30_encoding.md R77, R80): the 6-bit sequencer code
`SEQC = PHASE ‖ SUB`, and the HASH command on the START port if the host presents one there, with its
operand LEN, a natural number of bytes. -/
structure OpWord where
  seqc    : BitVec 6
  command : Option Nat
  deriving DecidableEq, Repr

end Sys2Proof
end

