-- ==== Sys2Proof/Config.lean ====
section
/-! DEFINITION. What the spec leaves open: free values.

Each constant below has no body, so nothing can be proved of its value. Each is applied to the draw counter
`State.draws`, so that two draws are not known to agree. `freeH` to `freeX` stand for the registers that
10_state.md R37 calls unspecified after a RESET event (log 2). `freeReadD` and `freeReadX` stand for a host
read of D or X while DV is 0, which 20_memory.md R57 says returns an unspecified value, "not necessarily the same
on two reads" (log 3). `freeMessageByte` settles what PAD reads of a message byte that the host changes after
HASH was issued (93_implementation_defined.md U3, log 7). Two engines whose counters are equal draw the same values; that is
the model's choice (log 15). The open widths LEN_W and BLK_W (00_scope.md R8) are not constants here: LEN, N and BLK are
natural numbers, as D3 and D21 of 92_eei_decisions.md advise (log 10). -/

namespace Sys2Proof.Config

opaque freeH : Nat → Vector Word 8
opaque freeR : Nat → Vector Word 8
opaque freeW : Nat → Vector Word 64
opaque freePM : Nat → List Byte
opaque freeLen : Nat → Nat
opaque freeN : Nat → Nat
opaque freeBlk : Nat → Nat
opaque freeT : Nat → Fin 64
opaque freeD : Nat → Vector Byte 32
opaque freeX : Nat → Vector Byte 64

/-- What a host read of `D[j]` returns while DV is 0, at one draw (20_memory.md R57). -/
opaque freeReadD : Nat → Fin 32 → Byte

/-- What a host read of `X[j]` returns while DV is 0, at one draw (20_memory.md R57). -/
opaque freeReadX : Nat → Fin 64 → Byte

/-- What decides, at one draw, which value PAD reads of a message byte changed before PAD
(93_implementation_defined.md U3). -/
opaque freeMessageByte : Nat → Byte

end Sys2Proof.Config
end

