-- ==== Sys2Proof/Syntax.lean ====
section
/-! DEFINITION. The operations of the engine: one constructor for each row of spec/opcode_table.json. -/

namespace Sys2Proof

/-- The nine operations (30_encoding.md R80). Only HASH has a free operand, the message length LEN in bytes that the
command carries (R77); the operands BLK, T, N, LEN and MSG of the others are "the values ... at that step", read from
the state (R83). -/
inductive Instr where
  /-- HASH, the host command (45_hash_command_and_sequencer.md R130). -/
  | hash (len : Nat)
  /-- PAD, the block padder (40_padder.md R90). -/
  | pad
  /-- LDBLK, parse one block (41_block_parser_scheduler.md R100). -/
  | ldblk
  /-- SCHED, one word of the message schedule (41_block_parser_scheduler.md R103). -/
  | sched
  /-- LDWR, seed the working registers (42_compression.md R110). -/
  | ldwr
  /-- ROUND, one round of the compression function (42_compression.md R112). -/
  | round
  /-- ACC, fold a block's result into the hash registers (43_accumulator.md R120). -/
  | acc
  /-- DIGEST, the raw digest (44_digest_encoder.md R125). -/
  | digest
  /-- HEX, the text digest (44_digest_encoder.md R127). -/
  | hex
  deriving DecidableEq, Repr

end Sys2Proof
end

