-- ==== Sys2Proof/WellFormed.lean ====
section
/-! DEFINITION. Well-formed words of the operation map and well-formed operations. -/

namespace Sys2Proof

/-- The ten sequencer codes of 30_encoding.md R80; the other 54 are reserved (R81). -/
def seqcLegal (c : BitVec 6) : Bool :=
  c == 0b000000#6 || c == 0b100000#6 || c == 0b001000#6 || c == 0b010000#6 || c == 0b010001#6 || c == 0b010010#6 ||
    c == 0b010011#6 || c == 0b010100#6 || c == 0b011000#6 || c == 0b011001#6

/-- The two codes, Start and DigestReady, at which an operation is selected only with a START event (30_encoding.md
R80: "without the event no operation is selected at those two codes"). -/
def seqcIdle (c : BitVec 6) : Bool :=
  c == 0b000000#6 || c == 0b100000#6

/-- A word selects an operation when its code is legal, and a command is present if the code is an idle one
(30_encoding.md R80, R81). -/
def OpWord.wellFormed (o : OpWord) : Bool :=
  seqcLegal o.seqc && (!seqcIdle o.seqc || o.command.isSome)

/-- Every operation is well-formed, whatever its operand: "The command has no illegal form: every natural number is a
well-formed LEN" (30_encoding.md R81). -/
def Instr.wellFormed : Instr → Bool
  | .hash _ => true
  | .pad => true
  | .ldblk => true
  | .sched => true
  | .ldwr => true
  | .round => true
  | .acc => true
  | .digest => true
  | .hex => true

end Sys2Proof
end

