-- ==== Sys2Proof/Decode.lean ====
section
/-! DEFINITION. The decoder, from a word of the operation map to an operation (30_encoding.md R80), and after it the encoder.

The engine fetches no instructions: this map from sequencer code to operation "is the engine's whole decoder". -/

namespace Sys2Proof

/-- Why a word selects no operation. -/
inductive DecodeError where
  /-- Start or DigestReady with no START event: "none: the engine is idle, no step" (30_encoding.md R80). -/
  | noCommand
  /-- One of the 54 reserved codes (30_encoding.md R81). -/
  | reservedCode (c : BitVec 6)
  deriving DecidableEq, Repr

/-- The operation selected at an idle code: HASH if a command is present (30_encoding.md R80). -/
def decodeIdle : Option Nat → Except DecodeError Instr
  | some len => .ok (.hash len)
  | none => .error .noCommand

/-- The operation map of 30_encoding.md R80, row by row. In the busy codes the command port is not looked at
(45_hash_command_and_sequencer.md R131 (b)). -/
def decode (o : OpWord) : Except DecodeError Instr :=
  match o.seqc.toNat with
  | 0b000000 => decodeIdle o.command
  | 0b100000 => decodeIdle o.command
  | 0b001000 => .ok .pad
  | 0b010000 => .ok .ldblk
  | 0b010001 => .ok .sched
  | 0b010010 => .ok .ldwr
  | 0b010011 => .ok .round
  | 0b010100 => .ok .acc
  | 0b011000 => .ok .digest
  | 0b011001 => .ok .hex
  | _ => .error (.reservedCode o.seqc)

/-- The word presented for a table word: the sequencer code is the low 6 bits of the table's one byte. The table gives
the HASH command's START event and operand no bits, so the command is presented with operand 0 (log 16). -/
def tableOpWord (w : Nat) : OpWord :=
  { seqc := BitVec.ofNat 6 w, command := some 0 }

/-- The operation the decoder reads from a word as spec/opcode_table.json numbers its bits; a word with a bit set above
the 6-bit code is no word of the map (log 16). -/
def decodeTableWord (_nbits w : Nat) : Option Instr :=
  if w < 64 then
    match decode (tableOpWord w) with
    | .ok i => some i
    | .error _ => none
  else none

/-- The word of each operation (30_encoding.md R80), HASH at the code of Start. -/
def encode : Instr → OpWord
  | .hash len => { seqc := 0b000000#6, command := some len }
  | .pad => { seqc := 0b001000#6, command := none }
  | .ldblk => { seqc := 0b010000#6, command := none }
  | .sched => { seqc := 0b010001#6, command := none }
  | .ldwr => { seqc := 0b010010#6, command := none }
  | .round => { seqc := 0b010011#6, command := none }
  | .acc => { seqc := 0b010100#6, command := none }
  | .digest => { seqc := 0b011000#6, command := none }
  | .hex => { seqc := 0b011001#6, command := none }

/-- HASH's other word, at the code of DigestReady (30_encoding.md R80). -/
def encodeHashAtDigestReady (len : Nat) : OpWord :=
  { seqc := 0b100000#6, command := some len }

/-- The mask over SEQC of an operation's row in spec/opcode_table.json. -/
def tableMask : Instr → BitVec 6
  | .hash _ => 0b011111#6
  | .pad => 0b111111#6
  | .ldblk => 0b111111#6
  | .sched => 0b111111#6
  | .ldwr => 0b111111#6
  | .round => 0b111111#6
  | .acc => 0b111111#6
  | .digest => 0b111111#6
  | .hex => 0b111111#6

/-- The match of an operation's row in spec/opcode_table.json. -/
def tableMatch : Instr → BitVec 6
  | .hash _ => 0b000000#6
  | .pad => 0b001000#6
  | .ldblk => 0b010000#6
  | .sched => 0b010001#6
  | .ldwr => 0b010010#6
  | .round => 0b010011#6
  | .acc => 0b010100#6
  | .digest => 0b011000#6
  | .hex => 0b011001#6

end Sys2Proof
end

