-- ==== Sys2Proof/Machine/State.lean ====
section
/-! DEFINITION. The state of one engine and of the host beside it, why a step can stop, and the state after reset. -/

namespace Sys2Proof.Machine

/-- PHASE, the five values of the per-call state machine "and no other" (10_state.md R27). -/
inductive Phase where
  | start
  | padding
  | blockLoop
  | finalize
  | digestReady
  deriving DecidableEq, Repr

/-- FAULT, the only fault register (10_state.md R29). -/
inductive FaultCode where
  /-- No fault recorded. -/
  | none
  /-- "when the original message's bit-length cannot be represented in 64 bits" -/
  | inputTooLarge
  /-- An ill-formed state (60_exceptions.md R154). -/
  | invariantViolation
  deriving DecidableEq, Repr

/-- What the host presents to the engine and its message memory at one instant (log 5). -/
structure Ports where
  /-- The RESET input (70_reset_and_hazards.md R170). -/
  reset    : Bool := false
  /-- The START event with its operand LEN (30_encoding.md R77). -/
  start    : Option Nat := none
  /-- A byte the host places in MSG (70_reset_and_hazards.md R172). -/
  msgWrite : Option Host.Cell := none
  deriving DecidableEq, Repr

/-- The message memory MSG (20_memory.md R50): the bytes the host has placed, by rising index, each index once. An index
that is not listed is not backed and has no value (log 4). -/
abbrev Memory := List Host.Cell

/-- The machine. The first fourteen fields are the engine's whole state (10_state.md R20); the table K is a constant (R34).
`msg` and `inputs` are the host's, `disturbed` and `draws` are the model's own. -/
structure State where
  /-- H[0..7], the hash registers (10_state.md R21). -/
  h      : Vector Word 8
  /-- R[0..7], the working registers a..h (10_state.md R23). -/
  r      : Vector Word 8
  /-- W[0..63], the message schedule (10_state.md R24). -/
  w      : Vector Word 64
  /-- PM, the padded message (10_state.md R26). -/
  pm     : List Byte
  /-- LEN, the message length in bytes (10_state.md R28). -/
  len    : Nat
  /-- N, the block count (10_state.md R27). -/
  n      : Nat
  /-- BLK, the block index (10_state.md R27). -/
  blk    : Nat
  /-- T, the loop index, 6 bits (10_state.md R20, R27). -/
  t      : Fin 64
  /-- PHASE (10_state.md R27). -/
  phase  : Phase
  /-- SUB, 3 bits, the position inside a phase (10_state.md R20, R27). -/
  sub    : BitVec 3
  /-- FAULT (10_state.md R29). -/
  fault  : FaultCode
  /-- DV, digest valid (10_state.md R30). -/
  dv     : Bool
  /-- D[0..31], the raw digest (10_state.md R31). -/
  d      : Vector Byte 32
  /-- X[0..63], the text digest (10_state.md R31). -/
  x      : Vector Byte 64
  /-- MSG, the host's message memory (20_memory.md R50). -/
  msg    : Memory
  /-- What the host presents at the coming instants, the next one first; past the end, nothing (log 5). -/
  inputs : List Ports
  /-- The bytes of the message that the host has changed since HASH was issued and before PAD has read them, each with the value
  PAD reads instead of the one in MSG (log 7). -/
  disturbed : Memory
  /-- How many free values have been drawn (log 2, log 3, log 7). -/
  draws  : Nat
  deriving DecidableEq, Repr

/-- Why a step stops. It is no fault of the engine: those (10_state.md R29) are next states. -/
inductive Fault where
  /-- Raised by PAD when a byte of the message is not backed by the host's memory: 93_implementation_defined.md U4, "`stuck`
  (the PAD step is not enabled when a read is not admitted)". Carries the lowest such index. Safe (log 4). -/
  | messageByteAbsent (addr : Nat)
  deriving DecidableEq, Repr

/-- Why an operation has no meaning. -/
inductive Refusal where
  /-- Raised by `exec` alone, for an operation not given its meaning yet: none. Safe. -/
  | notModelled (mnemonic : String)
  deriving DecidableEq, Repr

/-- The state right after reset (10_state.md R37): PHASE Start, SUB 0, FAULT None, DV 0. The spec calls every other
register unspecified; the values below for them are the model's choice (DESIGN CHOICE, log 1). No byte of MSG is placed
and the host presents nothing (log 4, log 5). -/
def State.reset : State where
  h := Vector.replicate 8 0
  r := Vector.replicate 8 0
  w := Vector.replicate 64 0
  pm := []
  len := 0
  n := 0
  blk := 0
  t := 0
  phase := .start
  sub := 0
  fault := .none
  dv := false
  d := Vector.replicate 32 0
  x := Vector.replicate 64 0
  msg := []
  inputs := []
  disturbed := []
  draws := 0

end Sys2Proof.Machine
end

