-- ==== Sys2Proof/Machine/Flags.lean ====
section
/-! DEFINITION. The status the host reads: codes of PHASE, SUB and FAULT, the status lines, STATUS. -/

namespace Sys2Proof.Machine

/-- The 3-bit code of PHASE (30_encoding.md R78). -/
def phaseCode : Phase → BitVec 3
  | .start => 0b000#3
  | .padding => 0b001#3
  | .blockLoop => 0b010#3
  | .finalize => 0b011#3
  | .digestReady => 0b100#3

/-- The PHASE of a 3-bit code; codes 5, 6, 7 are reserved (30_encoding.md R78, R81). -/
def phaseOfCode (c : BitVec 3) : Option Phase :=
  if c = 0b000#3 then some .start
  else if c = 0b001#3 then some .padding
  else if c = 0b010#3 then some .blockLoop
  else if c = 0b011#3 then some .finalize
  else if c = 0b100#3 then some .digestReady
  else none

/-- SUB in BlockLoop: Load (30_encoding.md R78). -/
abbrev subLoad : BitVec 3 := 0
/-- SUB in BlockLoop: Sched (30_encoding.md R78). -/
abbrev subSched : BitVec 3 := 1
/-- SUB in BlockLoop: Init (30_encoding.md R78). -/
abbrev subInit : BitVec 3 := 2
/-- SUB in BlockLoop: Round (30_encoding.md R78). -/
abbrev subRound : BitVec 3 := 3
/-- SUB in BlockLoop: Acc (30_encoding.md R78). -/
abbrev subAcc : BitVec 3 := 4
/-- SUB in Finalize: Raw (30_encoding.md R78). -/
abbrev subRaw : BitVec 3 := 0
/-- SUB in Finalize: Text (30_encoding.md R78). -/
abbrev subText : BitVec 3 := 1

/-- The 2-bit code of FAULT (30_encoding.md R79). -/
def faultCode : FaultCode → BitVec 2
  | .none => 0
  | .inputTooLarge => 1
  | .invariantViolation => 2

/-- The 6-bit sequencer code `SEQC = PHASE[2:0] ‖ SUB[2:0]` (30_encoding.md R78). -/
def State.seqc (s : State) : BitVec 6 :=
  phaseCode s.phase ++ s.sub

/-- `BUSY = (PHASE is Padding, BlockLoop or Finalize)` (10_state.md R32). -/
def State.busy (s : State) : Bool :=
  match s.phase with
  | .start => false
  | .padding => true
  | .blockLoop => true
  | .finalize => true
  | .digestReady => false

/-- `DONE = (PHASE is DigestReady)` (10_state.md R32). -/
def State.done (s : State) : Bool :=
  s.phase == .digestReady

/-- `ERR = (FAULT is not None)` (10_state.md R32). -/
def State.err (s : State) : Bool :=
  s.fault != .none

/-- What a host read of STATUS returns (10_state.md R33). -/
structure Status where
  phase : BitVec 3
  fault : BitVec 2
  dv    : Bool
  deriving DecidableEq, Repr

/-- A host read of STATUS, with no side effect (10_state.md R33). -/
def State.status (s : State) : Status :=
  { phase := phaseCode s.phase, fault := faultCode s.fault, dv := s.dv }

/-- A host read of D[j]: the digest byte while DV is 1, and while DV is 0 a fresh free value (20_memory.md R57, log 3). The
second component is the state after the read; only the draw counter, no register, moves, and only while DV is 0. -/
def State.hostReadD (s : State) (j : Fin 32) : Byte × State :=
  if s.dv then (s.d[j], s) else (Config.freeReadD s.draws j, { s with draws := s.draws + 1 })

/-- A host read of X[j]: the character code while DV is 1, and while DV is 0 a fresh free value (20_memory.md R57, log 3). -/
def State.hostReadX (s : State) (j : Fin 64) : Byte × State :=
  if s.dv then (s.x[j], s) else (Config.freeReadX s.draws j, { s with draws := s.draws + 1 })

end Sys2Proof.Machine
end

