-- ==== Sys2Proof/Machine/Constants.lean ====
section
/-! DEFINITION. The constant tables: the initial hash values IV and the round constants K.

The source prints neither; the values are those of 10_state.md R22 and R25 (log 13). They are constants, not state (R34). -/

namespace Sys2Proof.Machine

/-- IV[0..7], loaded into H0..H7 at the start of every call (10_state.md R22). -/
def ivTable : Vector Word 8 :=
  #v[0x6a09e667, 0xbb67ae85, 0x3c6ef372, 0xa54ff53a,
    0x510e527f, 0x9b05688c, 0x1f83d9ab, 0x5be0cd19]

/-- The rows of the table in 10_state.md R25: "row n holds K[4n..4n+3]", n = 0..15. -/
def kRow (n : Nat) : Vector Word 4 :=
  match n with
  | 0 => #v[0x428a2f98, 0x71374491, 0xb5c0fbcf, 0xe9b5dba5]
  | 1 => #v[0x3956c25b, 0x59f111f1, 0x923f82a4, 0xab1c5ed5]
  | 2 => #v[0xd807aa98, 0x12835b01, 0x243185be, 0x550c7dc3]
  | 3 => #v[0x72be5d74, 0x80deb1fe, 0x9bdc06a7, 0xc19bf174]
  | 4 => #v[0xe49b69c1, 0xefbe4786, 0x0fc19dc6, 0x240ca1cc]
  | 5 => #v[0x2de92c6f, 0x4a7484aa, 0x5cb0a9dc, 0x76f988da]
  | 6 => #v[0x983e5152, 0xa831c66d, 0xb00327c8, 0xbf597fc7]
  | 7 => #v[0xc6e00bf3, 0xd5a79147, 0x06ca6351, 0x14292967]
  | 8 => #v[0x27b70a85, 0x2e1b2138, 0x4d2c6dfc, 0x53380d13]
  | 9 => #v[0x650a7354, 0x766a0abb, 0x81c2c92e, 0x92722c85]
  | 10 => #v[0xa2bfe8a1, 0xa81a664b, 0xc24b8b70, 0xc76c51a3]
  | 11 => #v[0xd192e819, 0xd6990624, 0xf40e3585, 0x106aa070]
  | 12 => #v[0x19a4c116, 0x1e376c08, 0x2748774c, 0x34b0bcb5]
  | 13 => #v[0x391c0cb3, 0x4ed8aa4a, 0x5b9cca4f, 0x682e6ff3]
  | 14 => #v[0x748f82ee, 0x78a5636f, 0x84c87814, 0x8cc70208]
  | _ => #v[0x90befffa, 0xa4506ceb, 0xbef9a3f7, 0xc67178f2]

/-- K[0..63], "fixed table of 64 32-bit constants (K[0..63]), immutable, process-wide" (10_state.md R25). -/
def kTable : Vector Word 64 :=
  Vector.ofFn fun t : Fin 64 => (kRow (t.val / 4))[t.val % 4]'(Nat.mod_lt _ (by decide))

end Sys2Proof.Machine
end

