-- ==== Sys2Proof/Machine/WordOps.lean ====
section
/-! DEFINITION. Word primitives, byte-order primitives, the sigma, choice and majority functions, hexadecimal digits. -/

namespace Sys2Proof.Machine

/-- `add32(x, y) = (x + y) mod 2^32` (00_scope.md R10): the carry out of bit 31 is dropped. -/
abbrev add32 (x y : Word) : Word := x + y

/-- Circular right rotation (00_scope.md R10), given a meaning "for 0 < n < 32" and for no other count
(93_implementation_defined.md U1). -/
def rotr (x : Word) (n : Nat) (_inRange : 0 < n ∧ n < 32 := by decide) : Word :=
  (x >>> n) ||| (x <<< (32 - n))

/-- Logical right shift, zeros enter at the top (00_scope.md R10), for 0 <= n < 32 only. -/
def shr (x : Word) (n : Nat) (_inRange : n < 32 := by decide) : Word :=
  x >>> n

/-- `not32(x) = x ^ 0xFFFFFFFF` (00_scope.md R10). -/
def not32 (x : Word) : Word :=
  x ^^^ 0xFFFFFFFF

/-- Four bytes to a word, the first the most significant (00_scope.md R11, 30_encoding.md R70). -/
def be32 (b0 b1 b2 b3 : Byte) : Word :=
  b0 ++ b1 ++ b2 ++ b3

/-- Byte `m` of a word, counted from the most significant: `w[31-8m : 24-8m]` (00_scope.md R11, 30_encoding.md R75). -/
def byteBe32 (w : Word) (m : Fin 4) : Byte :=
  w.extractLsb' (24 - 8 * m) 8

/-- A word to four bytes, inverse of `be32` (00_scope.md R11). -/
def bytesBe32 (w : Word) : List Byte :=
  [byteBe32 w 0, byteBe32 w 1, byteBe32 w 2, byteBe32 w 3]

/-- A 64-bit value to eight bytes, the most significant first (00_scope.md R11). -/
def bytesBe64 (v : BitVec 64) : List Byte :=
  [v.extractLsb' 56 8, v.extractLsb' 48 8, v.extractLsb' 40 8, v.extractLsb' 32 8,
    v.extractLsb' 24 8, v.extractLsb' 16 8, v.extractLsb' 8 8, v.extractLsb' 0 8]

/-- `sigma0(x) = rotr(x, 7) ^ rotr(x, 18) ^ shr(x, 3)` (41_block_parser_scheduler.md R102). -/
def sigma0 (x : Word) : Word :=
  rotr x 7 ^^^ rotr x 18 ^^^ shr x 3

/-- `sigma1(x) = rotr(x, 17) ^ rotr(x, 19) ^ shr(x, 10)` (41_block_parser_scheduler.md R102). -/
def sigma1 (x : Word) : Word :=
  rotr x 17 ^^^ rotr x 19 ^^^ shr x 10

/-- `Sigma0(x) = rotr(x, 2) ^ rotr(x, 13) ^ rotr(x, 22)` (42_compression.md R111). -/
def bigSigma0 (x : Word) : Word :=
  rotr x 2 ^^^ rotr x 13 ^^^ rotr x 22

/-- `Sigma1(x) = rotr(x, 6) ^ rotr(x, 11) ^ rotr(x, 25)` (42_compression.md R111). -/
def bigSigma1 (x : Word) : Word :=
  rotr x 6 ^^^ rotr x 11 ^^^ rotr x 25

/-- `Ch(x, y, z) = (x & y) ^ (not32(x) & z)` (42_compression.md R111). -/
def ch (x y z : Word) : Word :=
  (x &&& y) ^^^ (not32 x &&& z)

/-- `Maj(x, y, z) = (x & y) ^ (x & z) ^ (y & z)` (42_compression.md R111). -/
def maj (x y z : Word) : Word :=
  (x &&& y) ^^^ (x &&& z) ^^^ (y &&& z)

/-- Hexadecimal digit `m` of a word, counted from the most significant: `w[31-4m : 28-4m]` (30_encoding.md R76). -/
def hexDigit (w : Word) (m : Fin 8) : BitVec 4 :=
  w.extractLsb' (28 - 4 * m) 4

/-- The ASCII code of a lowercase hexadecimal digit: `0x30 + v` for 0..9, `0x57 + v` for 10..15 (30_encoding.md R76). -/
def hexchar (v : BitVec 4) : Byte :=
  if v.toNat < 10 then 0x30 + v.setWidth 8 else 0x57 + v.setWidth 8

end Sys2Proof.Machine
end

