-- ==== Sys2Proof/Machine/Operands.lean ====
section
/-! DEFINITION. The operand forms: bytes of the message memory, blocks of the padded message, words of a block. -/

namespace Sys2Proof.Machine

/-- The canonical form of the message memory: indices strictly rising. An index that is not listed has no value, so no
listed byte equals what it reads as. -/
def Memory.wf : Memory → Bool
  | [] => true
  | c :: m => m.all (fun e => decide (c.1 < e.1)) && Memory.wf m

/-- `MemRead(addr, 1)` (00_scope.md R13, 20_memory.md R50): the byte the host has placed there, or nothing if the index is not
backed (log 4). -/
def Memory.read : Memory → Nat → Option Byte
  | [], _ => none
  | c :: m, a => if c.1 = a then some c.2 else Memory.read m a

/-- The host places a byte. The engine never does (20_memory.md R50). -/
def Memory.write : Memory → Nat → Byte → Memory
  | [], a, b => [(a, b)]
  | c :: m, a, b =>
    if a < c.1 then (a, b) :: c :: m
    else if a = c.1 then (a, b) :: m
    else c :: Memory.write m a b

/-- `count` bytes from `addr` on, each by `MemRead(addr, 1)` (40_padder.md R92), or the first index among them that is not backed
(log 4). -/
def readRange (memRead : Nat → Option Byte) : (addr count : Nat) → Except Nat (List Byte)
  | _, 0 => .ok []
  | a, count + 1 =>
    match memRead a with
    | none => .error a
    | some b =>
      match readRange memRead (a + 1) count with
      | .error e => .error e
      | .ok bs => .ok (b :: bs)

/-- A block: 64 bytes of the padded message (30_encoding.md R71). -/
abbrev Block := Vector Byte 64

/-- Block `i` of a padded message, `PM[64i .. 64i+63]` (20_memory.md R55), or nothing if an index is out of range, which is an
invariant violation (20_memory.md R51). -/
def blockAt (pm : List Byte) (i : Nat) : Option Block :=
  if inRange : 64 * i + 64 ≤ pm.length then
    some (Vector.ofFn fun j : Fin 64 => pm[64 * i + j.val])
  else none

/-- Word `j` of a block, `be32(B[4j], B[4j+1], B[4j+2], B[4j+3])` (30_encoding.md R71). -/
def blockWord (b : Block) (j : Fin 16) : Word :=
  be32 b[4 * j.val] b[4 * j.val + 1] b[4 * j.val + 2] b[4 * j.val + 3]

end Sys2Proof.Machine
end

