-- ==== Sys2Proof/Machine/Ops.lean ====
section
/-! DEFINITION. The shared operations: the sequencer, raising a fault and leaving one, RESET, the host's ports. -/

namespace Sys2Proof.Machine

/-- What a meaning and a step answer. -/
abbrev Result := Host.Outcome State Fault Refusal

/-- `SEQ <- (PHASE, SUB, BLK, T)` (00_scope.md R13). -/
def State.setSeq (s : State) (phase : Phase) (sub : BitVec 3) (blk : Nat) (t : Fin 64) : State :=
  { s with phase := phase, sub := sub, blk := blk, t := t }

/-- Raising a fault (60_exceptions.md R152): `FAULT <- f; SEQ <- (Start, 0, BLK, T)`. "Nothing is saved anywhere": no vector, no
saved counter, no change of mode, and no other register is touched. -/
def State.raise (s : State) (f : FaultCode) : State :=
  { s with fault := f, phase := .start, sub := 0 }

/-- Leaving a fault. There is no return from one; FAULT "is set back to None only by the acceptance of the next HASH command
... or by reset" (60_exceptions.md R153). This is the former's share. -/
def State.clearFault (s : State) : State :=
  { s with fault := .none }

/-- The fail-fast entry for an ill-formed state: "a step from one must record FAULT = InvariantViolation and stop (PHASE <-
Start), never compute a digest" (60_exceptions.md R154). DV becomes 0 too, because it is 1 only in DigestReady (10_state.md
R30; DEDUCED, log 8). -/
def State.failFast (s : State) : State :=
  { s.raise .invariantViolation with dv := false }

/-- The RESET event (70_reset_and_hazards.md R170, 10_state.md R37): PHASE Start, SUB 0, FAULT None, DV 0, every other register
of the engine unspecified, that is, a free value (log 2). MSG and the ports are the host's and stay. The values depend on this
engine's own draw counter alone, so two engines with equal counters get equal values: the model's choice, where the spec leaves
the values of different engines unrelated (60_exceptions.md R161; log 15). -/
def State.resetEvent (s : State) : State :=
  { s with
    h := Config.freeH s.draws
    r := Config.freeR s.draws
    w := Config.freeW s.draws
    pm := Config.freePM s.draws
    len := Config.freeLen s.draws
    n := Config.freeN s.draws
    blk := Config.freeBlk s.draws
    t := Config.freeT s.draws
    phase := .start
    sub := 0
    fault := .none
    dv := false
    d := Config.freeD s.draws
    x := Config.freeX s.draws
    draws := s.draws + 1 }

/-- What the ports show at this instant: the head of the list, or nothing (log 5). -/
def State.ports (s : State) : Ports :=
  match s.inputs with
  | [] => {}
  | p :: _ => p

/-- The instant is over: whatever its ports showed is not remembered (45_hash_command_and_sequencer.md R131 (b), log 5). -/
def State.popPorts (s : State) : State :=
  { s with inputs := s.inputs.tail }

/-- The byte the host places in MSG at this instant lands (70_reset_and_hazards.md R172). -/
def State.hostWrite (s : State) (p : Ports) : State :=
  match p.msgWrite with
  | none => s
  | some c => { s with msg := s.msg.write c.1 c.2 }

/-- `MemRead(addr, 1)` as PAD sees it (20_memory.md R50): `MSG[addr]`, but for a byte the host has changed since HASH was issued
(93_implementation_defined.md U3, log 7). -/
def State.messageByte (s : State) (a : Nat) : Option Byte :=
  match s.disturbed.read a with
  | some b => some b
  | none => s.msg.read a

/-- "any value between the old and new byte" (93_implementation_defined.md U3): `free` picks one, the ends included. -/
def between (old new free : Byte) : Byte :=
  let low := min old.toNat new.toNat
  let high := max old.toNat new.toNat
  BitVec.ofNat 8 (low + free.toNat % (high - low + 1))

/-- The host writes a cell while a message of `len` bytes waits for PAD. If it is a byte of that message, PAD will read any value
between the old and the new one, and any value at all if the byte was not backed (log 7). -/
def State.disturbUnread (s : State) (len : Nat) (c : Host.Cell) : State :=
  if c.1 < len then
    let free := Config.freeMessageByte s.draws
    let seen :=
      match s.messageByte c.1 with
      | some old => between old c.2 free
      | none => free
    { s with disturbed := s.disturbed.write c.1 seen, draws := s.draws + 1 }
  else s

/-- What a host write at this instant does to the call that waits for PAD, or whose command an idle engine accepts now
(93_implementation_defined.md U3, 70_reset_and_hazards.md R174 (a)). At acceptance the record of disturbed bytes begins anew. After
PAD a change of MSG "is not seen" (20_memory.md R65): PAD has taken its snapshot (R56). -/
def State.disturb (s : State) (p : Ports) : State :=
  match s.phase with
  | .start | .digestReady =>
    match p.start with
    | none => s
    | some len =>
      match p.msgWrite with
      | none => { s with disturbed := [] }
      | some c => { s with disturbed := [] }.disturbUnread len c
  | .padding =>
    match p.msgWrite with
    | none => s
    | some c => s.disturbUnread s.len c
  | .blockLoop | .finalize => s

end Sys2Proof.Machine
end

