-- ==== Sys2Proof/Machine/Accumulator.lean ====
section
/-! DEFINITION. The state accumulator, operation ACC (43_accumulator.md). -/

namespace Sys2Proof.Machine

/-- `H[i] <- add32(H[i], R[i])` for i = 0..7 (43_accumulator.md R120). -/
def foldRegs (h r : Vector Word 8) : Vector Word 8 :=
  Vector.ofFn fun i : Fin 8 => add32 h[i] r[i]

/-- ACC (43_accumulator.md R120). -/
def execAcc (s : State) : Result :=
  let s' := { s with h := foldRegs s.h s.r }
  if s.blk + 1 < s.n then .next (s'.setSeq .blockLoop subLoad (s.blk + 1) s.t)
  else .next (s'.setSeq .finalize subRaw s.blk s.t)

end Sys2Proof.Machine
end

