-- ==== Sys2Proof/Machine/Compression.lean ====
section
/-! DEFINITION. The compression engine, operations LDWR and ROUND (42_compression.md). -/

namespace Sys2Proof.Machine

/-- LDWR (42_compression.md R110). -/
def execLdwr (s : State) : Result :=
  .next ({ s with r := s.h }.setSeq .blockLoop subRound s.blk 0)

/-- `T1 = add32( h, Sigma1(e), Ch(e, f, g), K[T], W[T] )` (42_compression.md R112). -/
def roundT1 (r : Vector Word 8) (k w : Word) : Word :=
  r[7] + bigSigma1 r[4] + ch r[4] r[5] r[6] + k + w

/-- `T2 = add32( Sigma0(a), Maj(a, b, c) )` (42_compression.md R112). -/
def roundT2 (r : Vector Word 8) : Word :=
  bigSigma0 r[0] + maj r[0] r[1] r[2]

/-- The register update of one round: `R' = [ add32(T1,T2), R[0], R[1], R[2], add32(R[3],T1), R[4], R[5], R[6] ]`
(42_compression.md R112, R114). -/
def roundStep (r : Vector Word 8) (k w : Word) : Vector Word 8 :=
  #v[roundT1 r k w + roundT2 r, r[0], r[1], r[2], r[3] + roundT1 r k w, r[4], r[5], r[6]]

/-- ROUND (42_compression.md R112). -/
def execRound (s : State) : Result :=
  let s' := { s with r := roundStep s.r kTable[s.t] s.w[s.t] }
  if more : s.t.val < 63 then .next (s'.setSeq .blockLoop subRound s.blk ⟨s.t.val + 1, by omega⟩)
  else .next (s'.setSeq .blockLoop subAcc s.blk s.t)

/-- `r_t`: the working registers after the rounds 0 to t-1 (42_compression.md R114); there are 64 rounds. -/
def compressRounds (hIn : Vector Word 8) (w : Vector Word 64) : Nat → Vector Word 8
  | 0 => hIn
  | t + 1 =>
    if inRange : t < 64 then roundStep (compressRounds hIn w t) kTable[t] w[t]
    else compressRounds hIn w t

/-- `compress(h_in, w) = r_64` (42_compression.md R114). -/
def compress (hIn : Vector Word 8) (w : Vector Word 64) : Vector Word 8 :=
  compressRounds hIn w 64

end Sys2Proof.Machine
end

