-- ==== Sys2Proof/Machine/DigestEncoder.lean ====
section
/-! DEFINITION. The digest serializer, operations DIGEST and HEX (44_digest_encoder.md). -/

namespace Sys2Proof.Machine

/-- The raw digest of eight words: `D[4k + m] = H[k][31-8m : 24-8m]` (30_encoding.md R75, 44_digest_encoder.md R125, R126). -/
def digestBytes (h : Vector Word 8) : Vector Byte 32 :=
  Vector.ofFn fun j : Fin 32 => byteBe32 h[j.val / 4] ⟨j.val % 4, by omega⟩

/-- DIGEST (44_digest_encoder.md R125). -/
def execDigest (s : State) : Result :=
  .next ({ s with d := digestBytes s.h }.setSeq .finalize subText s.blk s.t)

/-- The text digest of eight words: `X[8k + m] = hexchar( H[k][31 - 4m : 28 - 4m] )` (30_encoding.md R76, 44_digest_encoder.md
R127). -/
def digestText (h : Vector Word 8) : Vector Byte 64 :=
  Vector.ofFn fun j : Fin 64 => hexchar (hexDigit h[j.val / 8] ⟨j.val % 8, by omega⟩)

/-- HEX (44_digest_encoder.md R127). -/
def execHex (s : State) : Result :=
  .next ({ s with x := digestText s.h, dv := true }.setSeq .digestReady 0 s.blk s.t)

end Sys2Proof.Machine
end

