-- ==== Sys2Proof/Machine/HashCommand.lean ====
section
/-! DEFINITION. The HASH command (45_hash_command_and_sequencer.md R130). -/

namespace Sys2Proof.Machine

/-- The acceptance step of HASH (45_hash_command_and_sequencer.md R130). While the engine is busy a command "is not accepted,
changes nothing and is not remembered" (R131 (b)); the step then never selects HASH. -/
def execHash (len : Nat) (s : State) : Result :=
  if s.busy then .next s
  else
    .next
      ({ s.clearFault with len := len, dv := false, h := ivTable }.setSeq .padding 0 s.blk s.t)

end Sys2Proof.Machine
end

