-- ==== Sys2Proof/Machine/Padder.lean ====
section
/-! DEFINITION. The block padder, operation PAD (40_padder.md R90 to R93). -/

namespace Sys2Proof.Machine

/-- The number of zero bytes of the fill, `z = (55 - LEN) mod 64`, the non-negative remainder (30_encoding.md R72). -/
def zeroFill (len : Nat) : Nat :=
  ((55 - (len : Int)) % 64).toNat

/-- The block count `N = floor((LEN + 8) / 64) + 1` (30_encoding.md R74). -/
def blockCount (len : Nat) : Nat :=
  (len + 8) / 64 + 1

/-- `pad` of a message of LEN bytes: the message, 0x80, the zero fill, and the length in bits as eight bytes (40_padder.md R92,
30_encoding.md R72). Only used where `8 * LEN < 2^64`. -/
def padMessage (message : List Byte) (len : Nat) : List Byte :=
  message ++ [0x80#8] ++ List.replicate (zeroFill len) 0x00#8 ++ bytesBe64 (BitVec.ofNat 64 (8 * len))

/-- PAD (40_padder.md R90). The check uses the true product `8 * LEN`, "it must not be computed in 64 bits". A byte of the
message that is not backed leaves the step not enabled (93_implementation_defined.md U4, log 4). -/
def execPad (s : State) : Result :=
  if 2 ^ 64 ≤ 8 * s.len then .next (s.raise .inputTooLarge)
  else
    match readRange s.messageByte 0 s.len with
    | .error a => .fault (.messageByteAbsent a)
    | .ok message =>
      .next
        ({ s with pm := padMessage message s.len, n := blockCount s.len }.setSeq .blockLoop subLoad 0 s.t)

end Sys2Proof.Machine
end

