-- ==== Sys2Proof/Machine/Scheduler.lean ====
section
/-! DEFINITION. The block parser and message-schedule expander, operations LDBLK and SCHED (41_block_parser_scheduler.md). -/

namespace Sys2Proof.Machine

/-- W after LDBLK: W[0..15] are the block's words, W[16..63] are not touched (41_block_parser_scheduler.md R100). -/
def loadBlock (b : Block) (w : Vector Word 64) : Vector Word 64 :=
  Vector.ofFn fun j : Fin 64 => if low : j.val < 16 then blockWord b ⟨j.val, low⟩ else w[j]

/-- LDBLK (41_block_parser_scheduler.md R100). A block index outside PM is an invariant violation (20_memory.md R51, log 8). -/
def execLdblk (s : State) : Result :=
  match blockAt s.pm s.blk with
  | none => .next s.failFast
  | some b => .next ({ s with w := loadBlock b s.w }.setSeq .blockLoop subSched s.blk 16)

/-- The word SCHED computes, for 16 <= T: `add32(sigma1(W[T-2]), W[T-7], sigma0(W[T-15]), W[T-16])` (41_block_parser_scheduler.md
R103). -/
def schedWord (w : Vector Word 64) (t : Fin 64) : Word :=
  sigma1 w[t.val - 2] + w[t.val - 7] + sigma0 w[t.val - 15] + w[t.val - 16]

/-- The word that LDBLK (j < 16) or SCHED (j >= 16) writes to W[j], given the words below it. -/
def wordOf (b : Block) (w : Vector Word 64) (j : Fin 64) : Word :=
  if low : j.val < 16 then blockWord b ⟨j.val, low⟩ else schedWord w j

/-- "W[0..upTo-1] written for this block" (10_state.md R38): each holds the word LDBLK or SCHED writes there. -/
def scheduleWritten (b : Block) (w : Vector Word 64) (upTo : Nat) : Bool :=
  decide (∀ j : Fin 64, j.val < upTo → w[j] = wordOf b w j)

/-- SCHED (41_block_parser_scheduler.md R103). T outside 16..63 is an invariant violation (60_exceptions.md R154, log 8). -/
def execSched (s : State) : Result :=
  if 16 ≤ s.t.val then
    let s' := { s with w := s.w.set s.t.val (schedWord s.w s.t) s.t.isLt }
    if more : s.t.val < 63 then .next (s'.setSeq .blockLoop subSched s.blk ⟨s.t.val + 1, by omega⟩)
    else .next (s'.setSeq .blockLoop subInit s.blk s.t)
  else .next s.failFast

/-- The first `16 + k` words of the schedule of a block (41_block_parser_scheduler.md R104): sixteen from the block, then each
from the words before it. -/
def schedulePrefix (b : Block) : Nat → List Word
  | 0 => List.ofFn fun j : Fin 16 => blockWord b j
  | k + 1 =>
    let ws := schedulePrefix b k
    ws ++ [sigma1 (ws.getD (14 + k) 0) + ws.getD (9 + k) 0 + sigma0 (ws.getD (1 + k) 0) + ws.getD k 0]

/-- `schedule(B)`, 64 words (41_block_parser_scheduler.md R104). -/
def schedule (b : Block) : Vector Word 64 :=
  Vector.ofFn fun t : Fin 64 => (schedulePrefix b 48).getD t.val 0

end Sys2Proof.Machine
end

