-- ==== Sys2Proof/Machine/Dispatch.lean ====
section
/-! DEFINITION. The meaning of each operation: one arm per constructor of Instr. -/

namespace Sys2Proof.Machine

def exec (i : Instr) (s : State) : Host.Outcome State Fault Refusal :=
  match i with
  | .hash len => Sys2Proof.Machine.execHash len s
  | .pad => Sys2Proof.Machine.execPad s
  | .ldblk => Sys2Proof.Machine.execLdblk s
  | .sched => Sys2Proof.Machine.execSched s
  | .ldwr => Sys2Proof.Machine.execLdwr s
  | .round => Sys2Proof.Machine.execRound s
  | .acc => Sys2Proof.Machine.execAcc s
  | .digest => Sys2Proof.Machine.execDigest s
  | .hex => Sys2Proof.Machine.execHex s

end Sys2Proof.Machine
end

