-- ==== Sys2Proof/Machine/StateCheck.lean ====
section
/-! DEFINITION. Well-formed states, by PHASE (10_state.md R38). -/

namespace Sys2Proof.Machine

/-- The conditions on W and R inside one pass of the block loop, by SUB (10_state.md R38). "Written" is tested as holding what the
rules write: a register holds its written value exactly when it was written or might as well have been (log 23). -/
def State.blockWritten (s : State) (b : Block) : Bool :=
  if s.sub = subSched then scheduleWritten b s.w s.t.val
  else if s.sub = subInit then scheduleWritten b s.w 64
  else if s.sub = subRound then scheduleWritten b s.w 64 && s.r == compressRounds s.h s.w s.t.val
  else if s.sub = subAcc then scheduleWritten b s.w 64 && s.r == compress s.h s.w
  else true

/-- The conditions of BlockLoop. -/
def State.inBlockLoop (s : State) : Bool :=
  !s.dv && s.fault == .none && decide (1 ≤ s.n) && s.pm.length == 64 * s.n && decide (s.blk < s.n) &&
    (s.sub == subLoad || (s.sub == subSched && decide (16 ≤ s.t.val)) || s.sub == subInit || s.sub == subRound ||
      s.sub == subAcc) &&
    (blockAt s.pm s.blk).any s.blockWritten

/-- Well-formed states, by PHASE (10_state.md R38). -/
def State.wellFormed (s : State) : Bool :=
  match s.phase with
  | .start => s.sub == 0 && !s.dv
  | .padding => s.sub == 0 && !s.dv && s.fault == .none && s.h == ivTable
  | .blockLoop => s.inBlockLoop
  | .finalize =>
    !s.dv && s.fault == .none && (s.sub == subRaw || (s.sub == subText && s.d == digestBytes s.h))
  | .digestReady =>
    s.sub == 0 && s.dv && s.fault == .none && s.d == digestBytes s.h && s.x == digestText s.h

end Sys2Proof.Machine
end

