-- ==== Sys2Proof/Machine/Sequencer.lean ====
section
/-! DEFINITION. One instant of the machine: the host's ports, then the operation the sequencer code selects. -/

namespace Sys2Proof.Machine

/-- What the decoder sees: the sequencer code and the command port (30_encoding.md R77, R80). -/
def State.opWord (s : State) : OpWord :=
  { seqc := s.seqc, command := s.ports.start }

/-- The instant's ports are consumed and the host's byte, if any, has landed in MSG (log 17). -/
def State.landed (s : State) : State :=
  s.popPorts.hostWrite s.ports

/-- The state the selected operation runs on: besides, a host write has disturbed the call it touches (log 7, log 17). -/
def State.afterPorts (s : State) : State :=
  (s.disturb s.ports).popPorts.hostWrite s.ports

/-- One instant, given what an operation does.

RESET wins over everything (60_exceptions.md R155 (a)). An ill-formed state records InvariantViolation (10_state.md R38,
60_exceptions.md R154). Otherwise the operation that the code selects runs; with no command present the idle engine's "state
does not change" (45_hash_command_and_sequencer.md R131 (a), log 6). -/
def instant (run : Instr → State → Result) (s : State) : Result :=
  if s.ports.reset then .next s.landed.resetEvent
  else if s.wellFormed then
    match decode s.opWord with
    | .ok i => run i s.afterPorts
    | .error .noCommand => .next s.afterPorts
    | .error (.reservedCode _) => .next s.landed.failFast
  else .next s.landed.failFast

/-- W and R as 10_state.md R38 demands them in the block loop (log 14). -/
def State.fittedToBlock (s : State) : State :=
  match blockAt s.pm s.blk with
  | none => s
  | some b =>
    let w := if s.sub = subLoad then s.w else schedule b
    { s with
      w := w
      r := if s.sub = subRound then compressRounds s.h w s.t.val else if s.sub = subAcc then compress s.h w else s.r }

/-- What 10_state.md R38 demands of the other registers in the phase `s` is in, supplied if `s` lacks it, so that the operation at
that code runs (log 14). -/
def State.fitted (s : State) : State :=
  if s.wellFormed then s
  else
    match s.phase with
    | .start => { s with dv := false }
    | .padding => { s with dv := false, fault := .none, h := ivTable }
    | .blockLoop =>
      let s := { s with dv := false, fault := .none, t := if s.sub = subSched ∧ s.t.val < 16 then 16 else s.t }
      if 1 ≤ s.n ∧ s.pm.length = 64 * s.n ∧ s.blk < s.n then s.fittedToBlock
      else { s with n := 1, blk := 0, pm := List.replicate 64 0 }.fittedToBlock
    | .finalize => { s with dv := false, fault := .none, d := digestBytes s.h }
    | .digestReady => { s with dv := true, fault := .none, d := digestBytes s.h, x := digestText s.h }

/-- Puts a word of the operation map where the next step reads it: PHASE and SUB, and the next instant of the ports, which shows
its command, if it is an idle code's, and nothing else. A code whose PHASE bits are reserved is no state of the machine
(10_state.md R27), and a word that sets a bit above the code is no word of the map: they leave the state as it is (log 14, log
16). -/
def State.place (s : State) (w : Nat) : State :=
  if w < 64 then
    match phaseOfCode ((BitVec.ofNat 6 w).extractLsb' 3 3) with
    | none => s
    | some phase =>
      let idle := seqcIdle (BitVec.ofNat 6 w)
      let s := { s with phase := phase, sub := (BitVec.ofNat 6 w).extractLsb' 0 3 }.fitted
      { s with
        inputs := { start := if idle then (tableOpWord w).command else none } :: s.inputs
        disturbed := if idle then [] else s.disturbed }
  else s

end Sys2Proof.Machine
end

