-- ==== Sys2Proof/Machine/Step.lean ====
section
/-! DEFINITION. The step of the machine, and where it reads its next operation. -/

namespace Sys2Proof.Machine

/-- One step: one instant of the ports and "the atomic performance of one operation" (00_scope.md R14). -/
def step (s : State) : Host.Outcome State Fault Refusal :=
  instant exec s

/-- `s` with an operation of the map placed where `step` reads its next one (log 14). The table's words have one byte; `nbits` is
not used. -/
def State.withFetchWord (s : State) (_nbits w : Nat) : State :=
  s.place w

end Sys2Proof.Machine
end

