-- ==== Sys2Proof/Machine/Whole.lean ====
section
/-! DEFINITION. What the steps add up to: the functions of the rules marked derived, runs of the machine, traces, the host's view.

No meaning calls anything of this file except through the shared functions of one block word, one round, one fold, the padding
and the digests. -/

namespace Sys2Proof.Machine

/-- `block(h, B)[i] = add32( h[i], compress(h, schedule(B))[i] )` (43_accumulator.md R121). -/
def blockStep (h : Vector Word 8) (b : Block) : Vector Word 8 :=
  foldRegs h (compress h (schedule b))

/-- `h_i`: the hash state after blocks 0 to i-1 of a padded message, from IV (43_accumulator.md R122). Past the last block there is
nothing to fold. -/
def chain (pm : List Byte) : Nat → Vector Word 8
  | 0 => ivTable
  | i + 1 =>
    match blockAt pm i with
    | none => chain pm i
    | some b => blockStep (chain pm i) b

/-- `pad(M)` of a whole message (40_padder.md R92). -/
def pad (message : List Byte) : List Byte :=
  padMessage message message.length

/-- `h_N`, the hash state after the last block of a message (43_accumulator.md R122). -/
def finalHash (message : List Byte) : Vector Word 8 :=
  chain (pad message) (blockCount message.length)

/-- The outcome of a call (45_hash_command_and_sequencer.md R136). -/
inductive HashResult where
  | inputTooLarge
  | digest (raw : Vector Byte 32) (text : Vector Byte 64)
  deriving DecidableEq, Repr

/-- `hash(M)`, the function a call computes (45_hash_command_and_sequencer.md R136). -/
def hashOf (message : List Byte) : HashResult :=
  if 2 ^ 64 ≤ 8 * message.length then .inputTooLarge
  else .digest (digestBytes (finalHash message)) (digestText (finalHash message))

/-- The number of steps of a successful call on a message of LEN bytes, `4 + 115 * N` (45_hash_command_and_sequencer.md R135). -/
def callSteps (len : Nat) : Nat :=
  4 + 115 * blockCount len

/-- `k` steps, stopping where a step stops. -/
def runSteps : Nat → State → Result
  | 0, s => .next s
  | k + 1, s =>
    match step s with
    | .next s' => runSteps k s'
    | .fault r => .fault r
    | .refused r => .refused r

/-- One step of a trace, an operation with its operands written out (30_encoding.md R83). -/
inductive TraceOp where
  | hash (len : Nat) (msg : Option (List Byte))
  | pad
  | ldblk (blk : Nat)
  | sched (t : Nat)
  | ldwr
  | round (t : Nat)
  | acc
  | digest
  | hex
  deriving DecidableEq, Repr

/-- The trace entry of an operation performed at a state (30_encoding.md R83): "they are the values of BLK and T at that step". The
message of HASH is what MSG holds when the command is presented. Two points R83 leaves open are the model's choice (log 22): a byte
the host places at the instant of acceptance is not shown yet, though it lands before the operation (log 17); and if a byte of the
message is not backed the message is left out, as program P7 leaves it out (95_test_vectors.md). -/
def traceOf (s : State) : Instr → TraceOp
  | .hash len =>
    .hash len
      (match readRange s.msg.read 0 len with
      | .ok m => some m
      | .error _ => none)
  | .pad => .pad
  | .ldblk => .ldblk s.blk
  | .sched => .sched s.t.val
  | .ldwr => .ldwr
  | .round => .round s.t.val
  | .acc => .acc
  | .digest => .digest
  | .hex => .hex

/-- The operation the next step performs, if it performs one (30_encoding.md R80). -/
def State.nextOp (s : State) : Option Instr :=
  if s.ports.reset || !s.wellFormed then none
  else
    match decode s.opWord with
    | .ok i => some i
    | .error _ => none

/-- The operations performed in the first `k` steps, in order (30_encoding.md R83). -/
def traceSteps : Nat → State → List TraceOp
  | 0, _ => []
  | k + 1, s =>
    match step s with
    | .next s' => (s.nextOp.map (traceOf s)).toList ++ traceSteps k s'
    | .fault _ => []
    | .refused _ => []

/-- The pseudo-op EXPAND (30_encoding.md R84). -/
def expandOps : List TraceOp :=
  (List.range 48).map fun k => .sched (16 + k)

/-- The pseudo-op COMPRESS (30_encoding.md R84). -/
def compressOps : List TraceOp :=
  .ldwr :: (List.range 64).map .round

/-- The pseudo-op BLOCK i (30_encoding.md R84). -/
def blockOps (i : Nat) : List TraceOp :=
  .ldblk i :: (expandOps ++ compressOps ++ [.acc])

/-- The pseudo-op FINAL (30_encoding.md R84). -/
def finalOps : List TraceOp :=
  [.digest, .hex]

/-- The pseudo-op hash(M) (30_encoding.md R84). -/
def hashOps (message : List Byte) : List TraceOp :=
  .hash message.length (some message) :: .pad ::
    ((List.range (blockCount message.length)).flatMap blockOps ++ finalOps)

/-- What the host can observe (45_hash_command_and_sequencer.md R137): STATUS, and D and X while DV is 1. -/
structure HostView where
  status : Status
  digest : Option (Vector Byte 32 × Vector Byte 64)
  deriving DecidableEq, Repr

/-- The host's view of a state (45_hash_command_and_sequencer.md R137). -/
def State.hostView (s : State) : HostView :=
  { status := s.status, digest := if s.dv then some (s.d, s.x) else none }

/-- Several engines (60_exceptions.md R161, 00_scope.md R8 NUM_ENGINES): "Each has its own copy of all state", beside the
messages the host shows it (log 15). -/
structure System where
  engines : List State
  deriving DecidableEq, Repr

/-- A step of the system: engine `k` takes a step, the others keep their state (60_exceptions.md R161). If there is no such engine, or
its step is not enabled, nothing happens. -/
def System.stepAt (sys : System) (k : Nat) : System :=
  match sys.engines[k]? with
  | none => sys
  | some s =>
    match step s with
    | .next s' => { engines := sys.engines.set k s' }
    | .fault _ => sys
    | .refused _ => sys

/-- The system after `m` steps of a schedule, which names the engine that takes each step: "The steps of different instances may
interleave in any order" (60_exceptions.md R161). -/
def System.run (sys : System) (schedule : Nat → Nat) : Nat → System
  | 0 => sys
  | m + 1 => (System.run sys schedule m).stepAt (schedule m)

/-- How many of the first `m` steps of a schedule engine `k` takes. -/
def stepsOf (schedule : Nat → Nat) (k : Nat) : Nat → Nat
  | 0 => 0
  | m + 1 => stepsOf schedule k m + if schedule m = k then 1 else 0

end Sys2Proof.Machine
end

