-- ==== Sys2Proof/Safety.lean ====
section
/-! DEFINITION. What a safe run is, in the terms the statements use. -/

namespace Sys2Proof.Machine

/-- The invariant on the contents of the registers: the message memory and the record of disturbed bytes have their canonical form,
the state is well-formed (10_state.md R38), and T is 63 where a counted loop has ended (45_hash_command_and_sequencer.md R132). -/
def StateInv (s : State) : Prop :=
  s.msg.wf = true ∧ s.disturbed.wf = true ∧ s.wellFormed = true ∧
    (s.phase = .blockLoop → s.sub = subInit ∨ s.sub = subAcc → s.t.val = 63)

/-- The host has placed the bytes of `message` in `MSG[0..LEN-1]` (70_reset_and_hazards.md R172). -/
def Memory.Holds (m : Memory) (message : List Byte) : Prop :=
  ∀ (j : Nat) (inRange : j < message.length), m.read j = some message[j]

/-- PAD reads the bytes of `message`: what the host has placed in `MSG[0..LEN-1]`, where it has not changed them since HASH was issued
(40_padder.md R92; log 7). -/
def State.ReadsAs (s : State) (message : List Byte) : Prop :=
  ∀ (j : Nat) (inRange : j < message.length), s.messageByte j = some message[j]

/-- The state of a call that reads `message`, by PHASE: the padded message, the hash state and the digests that 40_padder.md R92,
43_accumulator.md R122 and 44_digest_encoder.md R126, R127 give. What W and R hold inside a block is part of `State.wellFormed`. -/
def CallSound (s : State) (message : List Byte) : Prop :=
  match s.phase with
  | .start => True
  | .padding => True
  | .blockLoop =>
    message.length = s.len ∧ 8 * s.len < 2 ^ 64 ∧ s.pm = pad message ∧ s.n = blockCount s.len ∧
      s.h = chain (pad message) s.blk
  | .finalize =>
    message.length = s.len ∧ 8 * s.len < 2 ^ 64 ∧ s.h = finalHash message
  | .digestReady =>
    message.length = s.len ∧ 8 * s.len < 2 ^ 64 ∧ s.h = finalHash message ∧
      s.d = digestBytes (finalHash message) ∧ s.x = digestText (finalHash message)

/-- A sound state: it is the state of a call on some message of LEN bytes, so that in DigestReady the ports D and X hold that
message's digest (10_state.md R30, R38). -/
def Sound (s : State) : Prop :=
  ∃ message : List Byte, CallSound s message

/-- An instant at which the host keeps its duties to a running call on a message of `len` bytes: it does not reset, and it does not
write the message (70_reset_and_hazards.md R171, R174). A START event is allowed: it is lost (R174 (c)). -/
def Quiet (len : Nat) (p : Ports) : Prop :=
  p.reset = false ∧ ∀ c : Host.Cell, p.msgWrite = some c → len ≤ c.1

/-- An operation left every byte of the message memory as it was, and consumed nothing of the host's. -/
def HostUntouched (s s' : State) : Prop :=
  (∀ a, s'.msg.read a = s.msg.read a) ∧ s'.msg = s.msg ∧ s'.inputs = s.inputs ∧ s'.disturbed = s.disturbed ∧
    s'.draws = s.draws

/-- Engine `k` of the system has an enabled step: an operation is selected and can be taken (45_hash_command_and_sequencer.md R131). -/
def System.Enabled (sys : System) (k : Nat) : Prop :=
  ∃ s s', sys.engines[k]? = some s ∧ s.nextOp.isSome = true ∧ step s = .next s'

/-- "weak fairness between instances" (70_reset_and_hazards.md R177), for one of them: an engine that has an enabled step from some
moment on for ever takes a step at that moment or later. -/
def WeaklyFair (sys : System) (schedule : Nat → Nat) (k : Nat) : Prop :=
  ∀ m, (∀ m', m ≤ m' → (sys.run schedule m').Enabled k) → ∃ m', m ≤ m' ∧ schedule m' = k

/-- What the host sees of a run's outcome: its view of the state reached, or the reason the run stopped. -/
def viewOf : Result → Host.Outcome HostView Fault Refusal
  | .next s => .next s.hostView
  | .fault r => .fault r
  | .refused r => .refused r

/-- The first 64 primes, whose roots 10_state.md R22 and R25 name. -/
def primes64 : Vector Nat 64 :=
  #v[2, 3, 5, 7, 11, 13, 17, 19, 23, 29, 31, 37, 41, 43, 47, 53, 59, 61, 67, 71, 73, 79, 83, 89, 97, 101, 103, 107, 109, 113, 127,
    131, 137, 139, 149, 151, 157, 163, 167, 173, 179, 181, 191, 193, 197, 199, 211, 223, 227, 229, 233, 239, 241, 251, 257, 263,
    269, 271, 277, 281, 283, 293, 307, 311]

end Sys2Proof.Machine
end

