-- ==== Sys2Proof/Certificates/Slice0/Obligations.lean ====
section
/-! DEFINITION. The statements, for the provers.

Each docstring names the rule of the spec it formalises, or says that it is derived, and from what. -/

open Sys2Proof Sys2Proof.Machine

/-! ### Words and bytes -/

/-- 00_scope.md R10. The sum modulo 2^32, with any grouping, the circular right rotation, the logical right shift, the bitwise
operators and the complement. -/
def Obligations.WordPrimitivesAsNumbers : Prop :=
  (∀ x y : Word, (add32 x y).toNat = (x.toNat + y.toNat) % 2 ^ 32) ∧
  (∀ x y z : Word, add32 (add32 x y) z = add32 x (add32 y z) ∧
    (add32 (add32 x y) z).toNat = (x.toNat + y.toNat + z.toNat) % 2 ^ 32) ∧
  (∀ (x : Word) (n : Nat) (inRange : 0 < n ∧ n < 32),
    (rotr x n inRange).toNat = (x.toNat / 2 ^ n ||| x.toNat * 2 ^ (32 - n)) % 2 ^ 32) ∧
  (∀ (x : Word) (n : Nat) (inRange : n < 32), (shr x n inRange).toNat = x.toNat / 2 ^ n) ∧
  (∀ (x y : Word) (i : Nat),
    (x &&& y).getLsbD i = (x.getLsbD i && y.getLsbD i) ∧ (x ||| y).getLsbD i = (x.getLsbD i || y.getLsbD i) ∧
      (x ^^^ y).getLsbD i = (x.getLsbD i ^^ y.getLsbD i)) ∧
  (∀ x : Word, not32 x = x ^^^ 0xFFFFFFFF ∧ (not32 x).toNat = 2 ^ 32 - 1 - x.toNat)

/-- 00_scope.md R11. The three byte-order conversions: four bytes to a word by their weights, the split as its inverse, and the
eight bytes of a 64-bit value, the most significant first. -/
def Obligations.ByteOrderIsBigEndian : Prop :=
  (∀ b0 b1 b2 b3 : Byte,
    (be32 b0 b1 b2 b3).toNat = b0.toNat * 2 ^ 24 + b1.toNat * 2 ^ 16 + b2.toNat * 2 ^ 8 + b3.toNat) ∧
  (∀ b0 b1 b2 b3 : Byte, bytesBe32 (be32 b0 b1 b2 b3) = [b0, b1, b2, b3]) ∧
  (∀ (w : Word) (m : Fin 4), (byteBe32 w m).toNat = w.toNat / 2 ^ (24 - 8 * m.val) % 2 ^ 8) ∧
  (∀ v : Nat, v < 2 ^ 64 →
    bytesBe64 (BitVec.ofNat 64 v) = (List.range 8).map fun k => BitVec.ofNat 8 (v / 2 ^ (56 - 8 * k)))

/-- 41_block_parser_scheduler.md R102. Bit `i` of sigma0 and sigma1: two rotated bits and one shifted bit, zeros entering at the
top; and both are linear over exclusive or. -/
def Obligations.SmallSigmasBitwise : Prop :=
  (∀ (x : Word) (i : Nat), i < 32 →
    (sigma0 x).getLsbD i =
      ((x.getLsbD ((i + 7) % 32) ^^ x.getLsbD ((i + 18) % 32)) ^^ (decide (i + 3 < 32) && x.getLsbD (i + 3)))) ∧
  (∀ (x : Word) (i : Nat), i < 32 →
    (sigma1 x).getLsbD i =
      ((x.getLsbD ((i + 17) % 32) ^^ x.getLsbD ((i + 19) % 32)) ^^ (decide (i + 10 < 32) && x.getLsbD (i + 10)))) ∧
  (∀ x y : Word, sigma0 (x ^^^ y) = sigma0 x ^^^ sigma0 y ∧ sigma1 (x ^^^ y) = sigma1 x ^^^ sigma1 y)

/-- 42_compression.md R111. Bit `i` of the four round functions: three rotated bits each for Sigma0 and Sigma1; Ch selects `y` where
`x` has a 1 and `z` where it has a 0; Maj is the majority. -/
def Obligations.RoundFunctionsBitwise : Prop :=
  ∀ (x y z : Word) (i : Nat), i < 32 →
    (bigSigma0 x).getLsbD i =
      ((x.getLsbD ((i + 2) % 32) ^^ x.getLsbD ((i + 13) % 32)) ^^ x.getLsbD ((i + 22) % 32)) ∧
    (bigSigma1 x).getLsbD i =
      ((x.getLsbD ((i + 6) % 32) ^^ x.getLsbD ((i + 11) % 32)) ^^ x.getLsbD ((i + 25) % 32)) ∧
    (ch x y z).getLsbD i = (if x.getLsbD i then y.getLsbD i else z.getLsbD i) ∧
    (maj x y z).getLsbD i =
      ((x.getLsbD i && y.getLsbD i) || (x.getLsbD i && z.getLsbD i) || (y.getLsbD i && z.getLsbD i))

/-- 42_compression.md R113. Sigma0 and Sigma1 are linear over exclusive or and are bijections on 32-bit words, with the rule's corner
values; the other forms of Ch and Maj equal the normative ones, and Ch and Maj are not linear. -/
def Obligations.RoundFunctionFacts : Prop :=
  Function.Bijective bigSigma0 ∧ Function.Bijective bigSigma1 ∧
  (∀ x y : Word,
    bigSigma0 (x ^^^ y) = bigSigma0 x ^^^ bigSigma0 y ∧ bigSigma1 (x ^^^ y) = bigSigma1 x ^^^ bigSigma1 y) ∧
  (∀ x y z : Word,
    ch x y z = ((x &&& y) ||| (not32 x &&& z)) ∧ ch x y z = z ^^^ (x &&& (y ^^^ z)) ∧
    maj x y z = ((x &&& y) ||| (x &&& z) ||| (y &&& z)) ∧ maj x y z = (x &&& y) ^^^ (z &&& (x ^^^ y)) ∧
    ch 0 y z = z ∧ ch 0xFFFFFFFF y z = y ∧ ch x y y = y ∧
    maj x x z = x ∧ maj 0 y z = y &&& z ∧ maj 0xFFFFFFFF y z = y ||| z) ∧
  (bigSigma0 0 = 0 ∧ bigSigma1 0 = 0 ∧ bigSigma0 0xFFFFFFFF = 0xFFFFFFFF ∧ bigSigma1 0xFFFFFFFF = 0xFFFFFFFF ∧
    bigSigma0 1 = 0x40080400 ∧ bigSigma1 1 = 0x04200080 ∧ bigSigma0 0x80000000 = 0x20040200 ∧
    bigSigma1 0x80000000 = 0x02100040) ∧
  (∃ x y z x' y' z' : Word, ch (x ^^^ x') (y ^^^ y') (z ^^^ z') ≠ ch x y z ^^^ ch x' y' z') ∧
  (∃ x y z x' y' z' : Word, maj (x ^^^ x') (y ^^^ y') (z ^^^ z') ≠ maj x y z ^^^ maj x' y' z')

/-- Derived from 42_compression.md R114: "`round` is a bijection of the eight registers for fixed k and w". -/
def Obligations.RoundIsBijective : Prop :=
  ∀ k w : Word, Function.Bijective fun r : Vector Word 8 => roundStep r k w

/-- Derived from 10_state.md R22 and R25, whose values are the spec's from general knowledge (log 13): IV[i] is the first 32 bits of
the fractional part of the square root of the i-th prime, and K[i] those of its cube root. `q` is the root's whole part. -/
def Obligations.ConstantsAreRootFractions : Prop :=
  (∀ i : Fin 8, ∃ q : Fin 20,
    (q.val * 2 ^ 32 + (ivTable[i]).toNat) ^ 2 ≤ primes64[i.val] * 2 ^ 64 ∧
      primes64[i.val] * 2 ^ 64 < (q.val * 2 ^ 32 + (ivTable[i]).toNat + 1) ^ 2) ∧
  (∀ i : Fin 64, ∃ q : Fin 20,
    (q.val * 2 ^ 32 + (kTable[i]).toNat) ^ 3 ≤ primes64[i] * 2 ^ 96 ∧
      primes64[i] * 2 ^ 96 < (q.val * 2 ^ 32 + (kTable[i]).toNat + 1) ^ 3)

/-! ### The operation map -/

/-- 30_encoding.md R80. The word of each of the nine operations decodes to it, HASH at both its codes with every operand; and a word
decodes to an operation exactly when its code is one of the map's, matches the operation's row under its mask, and, for HASH,
the command carries its operand. -/
def Obligations.OperationMapRoundTrip : Prop :=
  (∀ i : Instr, i.wellFormed = true → decode (encode i) = .ok i) ∧
  (∀ len : Nat, decode (encodeHashAtDigestReady len) = .ok (.hash len)) ∧
  (∀ (o : OpWord) (i : Instr),
    decode o = .ok i ↔
      seqcLegal o.seqc = true ∧ o.seqc &&& tableMask i = tableMatch i ∧
        ∀ len : Nat, i = .hash len → o.command = some len)

/-- 30_encoding.md R80, R81, derived. The decoder accepts exactly the well-formed words: with no command an idle code selects
nothing, and each of the 54 reserved codes is refused by name, with a command or without. -/
def Obligations.DecoderRefusesEveryOtherWord : Prop :=
  (∀ o : OpWord, o.wellFormed = true ↔ ∃ i, decode o = .ok i) ∧
  (∀ o : OpWord, seqcLegal o.seqc = false ↔ decode o = .error (.reservedCode o.seqc)) ∧
  (∀ o : OpWord, (seqcIdle o.seqc = true ∧ o.command = none) ↔ decode o = .error .noCommand) ∧
  ((List.range 64).filter fun c => !seqcLegal (BitVec.ofNat 6 c)).length = 54

/-- Derived from 30_encoding.md R80: the table's words, written out, decode to their operations. That the two idle words decode to
HASH, and with operand 0, is the model's choice (log 16): the table gives the START event and LEN no bits, and the model presents
them beside each word. -/
def Obligations.TableWordsDecode : Prop :=
  decodeTableWord 8 0b000000 = some (.hash 0) ∧ decodeTableWord 8 0b100000 = some (.hash 0) ∧
  decodeTableWord 8 0b001000 = some .pad ∧ decodeTableWord 8 0b010000 = some .ldblk ∧
  decodeTableWord 8 0b010001 = some .sched ∧ decodeTableWord 8 0b010010 = some .ldwr ∧
  decodeTableWord 8 0b010011 = some .round ∧ decodeTableWord 8 0b010100 = some .acc ∧
  decodeTableWord 8 0b011000 = some .digest ∧ decodeTableWord 8 0b011001 = some .hex ∧
  decodeTableWord 8 0b010101 = none ∧ decodeTableWord 8 0b101000 = none

/-- Derived from 30_encoding.md R80 (and log 14, log 16): from any state, a table word placed by `withFetchWord` is the operation the
very next step runs. -/
def Obligations.PlacedWordRuns : Prop :=
  ∀ (s : State) (w : Nat) (i : Instr), decodeTableWord 8 w = some i →
    step (s.withFetchWord 8 w) = exec i { s.withFetchWord 8 w with inputs := s.inputs }

/-! ### The step -/

/-- Derived from 00_scope.md R14 and 30_encoding.md R80: with no RESET, in a well-formed state, the step is the decoded operation. The
state it runs on is the model's choice (log 5, log 7, log 17): the instant's ports are consumed, the host's byte, if it places one,
has landed in MSG, and what the write disturbs is settled. A busy engine to which the host writes nothing runs it on its own
state. -/
def Obligations.StepRunsDecodedOperation : Prop :=
  ∀ (s : State) (i : Instr), s.ports.reset = false → s.wellFormed = true →
    decode { seqc := s.seqc, command := s.ports.start } = .ok i →
      step s = exec i ((s.disturb s.ports).popPorts.hostWrite s.ports) ∧
      (s.busy = true → s.ports.msgWrite = none → step s = exec i { s with inputs := s.inputs.tail })

/-- 45_hash_command_and_sequencer.md R131. (a) With no command an idle engine performs no operation and its state does not change; that
the model's step then answers the unchanged state, where R131 has no enabled step, is the model's choice (log 6). (b) While the
engine is busy a HASH command changes nothing and is not remembered: the step is the one taken without it. (c) A busy engine
always has an enabled step, which needs no input but the state and, for PAD, the message bytes. -/
def Obligations.WhenStepsAreTaken : Prop :=
  (∀ s : State, s.wellFormed = true → s.ports.reset = false → s.busy = false → s.ports.start = none →
    s.nextOp = none ∧ ∃ s', step s = .next s' ∧ { s' with msg := s.msg, inputs := s.inputs } = s) ∧
  (∀ (s : State) (p : Ports) (rest : List Ports) (len : Nat), s.busy = true →
    step { s with inputs := { p with start := some len } :: rest } =
      step { s with inputs := { p with start := none } :: rest }) ∧
  (∀ s : State, s.wellFormed = true → s.ports.reset = false → s.busy = true →
    (s.phase = .padding → 2 ^ 61 ≤ s.len ∨ ∃ message : List Byte, message.length = s.len ∧ s.ReadsAs message) →
      s.nextOp.isSome = true ∧ ∃ s', step s = .next s')

/-- 45_hash_command_and_sequencer.md R132, "the whole of the engine's control flow": every row of its table, with the operation
selected and the FAULT and DV entries of the two rows that have them. The last column of the two ACC rows, T = 63, holds under
the invariant. -/
def Obligations.SequencerNextState : Prop :=
  ∀ s s' : State, s.wellFormed = true → s.ports.reset = false → step s = .next s' →
    match s.phase with
    | .start | .digestReady =>
      (∀ len, s.ports.start = some len →
        s.nextOp = some (.hash len) ∧ s'.phase = .padding ∧ s'.sub = 0 ∧ s'.blk = s.blk ∧ s'.t = s.t) ∧
      (s.ports.start = none →
        s.nextOp = none ∧ s'.phase = s.phase ∧ s'.sub = s.sub ∧ s'.blk = s.blk ∧ s'.t = s.t)
    | .padding =>
      s.nextOp = some .pad ∧
        if 8 * s.len < 2 ^ 64 then s'.phase = .blockLoop ∧ s'.sub = subLoad ∧ s'.blk = 0 ∧ s'.t = s.t
        else s'.phase = .start ∧ s'.sub = 0 ∧ s'.blk = s.blk ∧ s'.t = s.t ∧ s'.fault = .inputTooLarge
    | .blockLoop =>
      if s.sub = subLoad then
        s.nextOp = some .ldblk ∧ s'.phase = .blockLoop ∧ s'.sub = subSched ∧ s'.blk = s.blk ∧ s'.t.val = 16
      else if s.sub = subSched then
        s.nextOp = some .sched ∧ s'.phase = .blockLoop ∧ s'.blk = s.blk ∧
          (s.t.val < 63 → s'.sub = subSched ∧ s'.t.val = s.t.val + 1) ∧
          (s.t.val = 63 → s'.sub = subInit ∧ s'.t.val = 63)
      else if s.sub = subInit then
        s.nextOp = some .ldwr ∧ s'.phase = .blockLoop ∧ s'.sub = subRound ∧ s'.blk = s.blk ∧ s'.t.val = 0
      else if s.sub = subRound then
        s.nextOp = some .round ∧ s'.phase = .blockLoop ∧ s'.blk = s.blk ∧
          (s.t.val < 63 → s'.sub = subRound ∧ s'.t.val = s.t.val + 1) ∧
          (s.t.val = 63 → s'.sub = subAcc ∧ s'.t.val = 63)
      else
        s.sub = subAcc ∧ s.nextOp = some .acc ∧ s'.t = s.t ∧ (StateInv s → s'.t.val = 63) ∧
          (s.blk + 1 < s.n → s'.phase = .blockLoop ∧ s'.sub = subLoad ∧ s'.blk = s.blk + 1) ∧
          (s.blk + 1 = s.n → s'.phase = .finalize ∧ s'.sub = subRaw ∧ s'.blk = s.blk)
    | .finalize =>
      if s.sub = subRaw then
        s.nextOp = some .digest ∧ s'.phase = .finalize ∧ s'.sub = subText ∧ s'.blk = s.blk ∧ s'.t = s.t
      else
        s.sub = subText ∧ s.nextOp = some .hex ∧ s'.phase = .digestReady ∧ s'.sub = 0 ∧ s'.blk = s.blk ∧ s'.t = s.t ∧
          s'.dv = true

/-- Derived from 45_hash_command_and_sequencer.md R133: "the sequence of operations of a call is a function of LEN alone". Two
well-formed states that agree on the sequencer, on N and LEN and on what the host presents step to states that agree on them
again, whatever their messages, hash registers and schedules. -/
def Obligations.ControlDependsOnLengthAlone : Prop :=
  ∀ s1 s2 t1 t2 : State, s1.wellFormed = true → s2.wellFormed = true →
    s1.ports.reset = false → s1.inputs = s2.inputs →
    s1.phase = s2.phase → s1.sub = s2.sub → s1.blk = s2.blk → s1.t = s2.t → s1.n = s2.n → s1.len = s2.len →
    step s1 = .next t1 → step s2 = .next t2 →
      s1.nextOp = s2.nextOp ∧ t1.inputs = t2.inputs ∧ t1.phase = t2.phase ∧ t1.sub = t2.sub ∧ t1.blk = t2.blk ∧
        t1.t = t2.t ∧ t1.n = t2.n ∧ t1.len = t2.len

/-- 10_state.md R38 and 60_exceptions.md R154, 30_encoding.md R81. Exactly which states are ill-formed: a reserved sequencer code, a
size, count or index of the block loop out of its range, DV, FAULT or H against R38, or a register that does not hold what the
rules write there ("written", log 23). -/
def Obligations.IllFormedConditions : Prop :=
  ∀ s : State, s.wellFormed = false ↔
    seqcLegal s.seqc = false ∨
    (s.phase = .blockLoop ∧
      (s.pm.length ≠ 64 * s.n ∨ s.n = 0 ∨ s.n ≤ s.blk ∨ (s.sub = subSched ∧ s.t.val < 16))) ∨
    (s.dv = true ∧ s.phase ≠ .digestReady) ∨ (s.dv = false ∧ s.phase = .digestReady) ∨
    (s.fault ≠ .none ∧ s.phase ≠ .start) ∨ (s.phase = .padding ∧ s.h ≠ ivTable) ∨
    (s.phase = .blockLoop ∧ ∃ b, blockAt s.pm s.blk = some b ∧
      ((s.sub = subSched ∧ ∃ j : Fin 64, j.val < s.t.val ∧ s.w[j] ≠ (schedule b)[j]) ∨
        ((s.sub = subInit ∨ s.sub = subRound ∨ s.sub = subAcc) ∧ s.w ≠ schedule b) ∨
        (s.sub = subRound ∧ s.r ≠ compressRounds s.h s.w s.t.val) ∨ (s.sub = subAcc ∧ s.r ≠ compress s.h s.w))) ∨
    (s.phase = .finalize ∧ s.sub = subText ∧ s.d ≠ digestBytes s.h) ∨
    (s.phase = .digestReady ∧ (s.d ≠ digestBytes s.h ∨ s.x ≠ digestText s.h))

/-- 10_state.md R38, 60_exceptions.md R154 and 30_encoding.md R81. A step from any ill-formed state records InvariantViolation and stops
in Start; no digest is computed: every other register keeps its contents. That DV becomes 0 is the model's reading of 10_state.md
R30 (log 8). -/
def Obligations.IllFormedStateFailsFast : Prop :=
  ∀ s : State, s.ports.reset = false → s.wellFormed = false →
    ∃ s', step s = .next s' ∧ s'.fault = .invariantViolation ∧ s'.phase = .start ∧ s'.sub = 0 ∧ s'.dv = false ∧
      { s' with fault := s.fault, phase := s.phase, sub := s.sub, dv := s.dv, msg := s.msg, inputs := s.inputs } = s

/-- 70_reset_and_hazards.md R170 and 60_exceptions.md R155 (a). RESET at any time and in any state, together with anything, puts the
engine in the state of 10_state.md R37; every other register holds an unspecified value, here a free value of the draw (log 2).
MSG is the host's and only takes the byte the host places. -/
def Obligations.ResetWinsFromAnyState : Prop :=
  ∀ s : State, s.ports.reset = true →
    ∃ s', step s = .next s' ∧ s'.phase = .start ∧ s'.sub = 0 ∧ s'.fault = .none ∧ s'.dv = false ∧
      s'.h = Config.freeH s.draws ∧ s'.r = Config.freeR s.draws ∧ s'.w = Config.freeW s.draws ∧
      s'.pm = Config.freePM s.draws ∧ s'.len = Config.freeLen s.draws ∧ s'.n = Config.freeN s.draws ∧
      s'.blk = Config.freeBlk s.draws ∧ s'.t = Config.freeT s.draws ∧ s'.d = Config.freeD s.draws ∧
      s'.x = Config.freeX s.draws ∧ s'.draws = s.draws + 1 ∧ s'.inputs = s.inputs.tail ∧
      (∀ a, (∀ c, s.ports.msgWrite = some c → c.1 ≠ a) → s'.msg.read a = s.msg.read a)

/-- 10_state.md R37, derived: what the state right after reset is known to hold, its status lines, and that it is well-formed. It
says nothing of the registers the spec calls unspecified. -/
def Obligations.ResetStateIsIdle : Prop :=
  State.reset.phase = .start ∧ State.reset.sub = 0 ∧ State.reset.fault = .none ∧ State.reset.dv = false ∧
  State.reset.busy = false ∧ State.reset.done = false ∧ State.reset.err = false ∧ StateInv State.reset

/-! ### The operations: result, completion, frame -/

/-- 45_hash_command_and_sequencer.md R130, with the values of 10_state.md R22. HASH is accepted in Start and in DigestReady, with any
operand; it writes LEN, FAULT, DV, H, PHASE and SUB and nothing else. -/
def Obligations.HashIsAccepted : Prop :=
  ∀ (s : State) (len : Nat), (s.phase = .start ∨ s.phase = .digestReady) →
    ∃ s', exec (.hash len) s = .next s' ∧ s'.len = len ∧ s'.fault = .none ∧ s'.dv = false ∧
      s'.h = #v[0x6a09e667, 0xbb67ae85, 0x3c6ef372, 0xa54ff53a, 0x510e527f, 0x9b05688c, 0x1f83d9ab, 0x5be0cd19] ∧
      s'.phase = .padding ∧ s'.sub = 0 ∧
      { s' with len := s.len, fault := s.fault, dv := s.dv, h := s.h, phase := s.phase, sub := s.sub } = s ∧
      HostUntouched s s'

/-- Derived from 45_hash_command_and_sequencer.md R131 (b): a HASH presented to a busy engine "is not accepted, changes nothing". -/
def Obligations.HashWhileBusyChangesNothing : Prop :=
  ∀ (s : State) (len : Nat), (s.phase = .padding ∨ s.phase = .blockLoop ∨ s.phase = .finalize) →
    exec (.hash len) s = .next s

/-- 40_padder.md R90, R91, R92 and 60_exceptions.md R152. For LEN >= 2^61 PAD raises InputTooLarge: FAULT, PHASE and SUB are written and
nothing else, whatever MSG holds. For LEN < 2^61 and a message of LEN bytes that it reads from MSG it writes the padded message, N,
BLK and the sequencer, and nothing else. The zero fill is the least that gives 56 modulo 64. -/
def Obligations.PadPadsOrRaisesInputTooLarge : Prop :=
  (∀ s : State, 2 ^ 61 ≤ s.len →
    ∃ s', exec .pad s = .next s' ∧ s'.fault = .inputTooLarge ∧ s'.phase = .start ∧ s'.sub = 0 ∧
      { s' with fault := s.fault, phase := s.phase, sub := s.sub } = s ∧ HostUntouched s s') ∧
  (∀ (s : State) (message : List Byte), s.len < 2 ^ 61 → message.length = s.len → s.ReadsAs message →
    ∃ s', exec .pad s = .next s' ∧
      (∃ z, z ≤ 63 ∧ (s.len + 1 + z) % 64 = 56 ∧
        s'.pm = message ++ [0x80#8] ++ List.replicate z 0x00#8 ++
          (List.range 8).map fun k => BitVec.ofNat 8 (8 * s.len / 2 ^ (56 - 8 * k))) ∧
      s'.n = (s.len + 8) / 64 + 1 ∧ s'.blk = 0 ∧ s'.phase = .blockLoop ∧ s'.sub = subLoad ∧
      { s' with pm := s.pm, n := s.n, blk := s.blk, phase := s.phase, sub := s.sub } = s ∧ HostUntouched s s')

/-- The model's choice (log 4), from 93_implementation_defined.md U4: if a byte of the message is not backed the PAD step is not
enabled, and the run stops with the lowest such index. -/
def Obligations.PadStopsAtAbsentByte : Prop :=
  ∀ (s : State) (a : Nat), s.len < 2 ^ 61 → a < s.len → s.messageByte a = none →
    (∀ b, b < a → (s.messageByte b).isSome = true) → exec .pad s = .fault (.messageByteAbsent a)

/-- 41_block_parser_scheduler.md R100. LDBLK writes W[0..15] with the sixteen big-endian words of block BLK of PM, SUB and T, and
nothing else. -/
def Obligations.LdblkLoadsTheBlock : Prop :=
  ∀ (s : State) (inPM : 64 * s.blk + 64 ≤ s.pm.length),
    ∃ s', exec .ldblk s = .next s' ∧
      (∀ j : Fin 16,
        s'.w[j.val] =
          be32 s.pm[64 * s.blk + 4 * j.val] s.pm[64 * s.blk + 4 * j.val + 1] s.pm[64 * s.blk + 4 * j.val + 2]
            s.pm[64 * s.blk + 4 * j.val + 3]) ∧
      (∀ j : Fin 64, 16 ≤ j.val → s'.w[j] = s.w[j]) ∧
      s'.phase = .blockLoop ∧ s'.sub = subSched ∧ s'.t.val = 16 ∧
      { s' with w := s.w, phase := s.phase, sub := s.sub, t := s.t } = s ∧ HostUntouched s s'

/-- 41_block_parser_scheduler.md R103. SCHED, for T in 16..63, writes W[T] and the sequencer, and nothing else. -/
def Obligations.SchedExtendsTheSchedule : Prop :=
  ∀ (s : State) (inRange : 16 ≤ s.t.val),
    ∃ s', exec .sched s = .next s' ∧
      s'.w[s.t] =
        add32 (add32 (add32 (sigma1 s.w[s.t.val - 2]) s.w[s.t.val - 7]) (sigma0 s.w[s.t.val - 15])) s.w[s.t.val - 16] ∧
      (∀ j : Fin 64, j ≠ s.t → s'.w[j] = s.w[j]) ∧
      (s.t.val < 63 → s'.sub = subSched ∧ s'.t.val = s.t.val + 1) ∧
      (s.t.val = 63 → s'.sub = subInit ∧ s'.t.val = 63) ∧
      s'.phase = .blockLoop ∧
      { s' with w := s.w, phase := s.phase, sub := s.sub, t := s.t } = s ∧ HostUntouched s s'

/-- Derived from 60_exceptions.md R154 and 20_memory.md R51: an index out of its range, in LDBLK or in SCHED, is an invariant violation.
That DV becomes 0 is the model's reading of 10_state.md R30 (log 8). -/
def Obligations.IndexOutOfRangeFailsFast : Prop :=
  ∀ (s : State) (i : Instr),
    ((i = .ldblk ∧ s.pm.length < 64 * s.blk + 64) ∨ (i = .sched ∧ s.t.val < 16)) →
    ∃ s', exec i s = .next s' ∧ s'.fault = .invariantViolation ∧ s'.phase = .start ∧ s'.sub = 0 ∧ s'.dv = false ∧
      { s' with fault := s.fault, phase := s.phase, sub := s.sub, dv := s.dv } = s ∧ HostUntouched s s'

/-- 42_compression.md R110. LDWR copies H to R, writes SUB and T, and nothing else. -/
def Obligations.LdwrSeedsWorkingRegisters : Prop :=
  ∀ s : State,
    ∃ s', exec .ldwr s = .next s' ∧ (∀ i : Fin 8, s'.r[i] = s.h[i]) ∧
      s'.phase = .blockLoop ∧ s'.sub = subRound ∧ s'.t.val = 0 ∧
      { s' with r := s.r, phase := s.phase, sub := s.sub, t := s.t } = s ∧ HostUntouched s s'

/-- 42_compression.md R112. ROUND, for every T: the eight register writes happen together, every right-hand side using the values from
before the step; it writes R and the sequencer, and nothing else. -/
def Obligations.RoundMixesWorkingRegisters : Prop :=
  ∀ s : State,
    let t1 := add32 (add32 (add32 (add32 s.r[7] (bigSigma1 s.r[4])) (ch s.r[4] s.r[5] s.r[6])) kTable[s.t]) s.w[s.t]
    let t2 := add32 (bigSigma0 s.r[0]) (maj s.r[0] s.r[1] s.r[2])
    ∃ s', exec .round s = .next s' ∧
      s'.r[7] = s.r[6] ∧ s'.r[6] = s.r[5] ∧ s'.r[5] = s.r[4] ∧ s'.r[4] = add32 s.r[3] t1 ∧
      s'.r[3] = s.r[2] ∧ s'.r[2] = s.r[1] ∧ s'.r[1] = s.r[0] ∧ s'.r[0] = add32 t1 t2 ∧
      (s.t.val < 63 → s'.sub = subRound ∧ s'.t.val = s.t.val + 1) ∧
      (s.t.val = 63 → s'.sub = subAcc ∧ s'.t.val = 63) ∧
      s'.phase = .blockLoop ∧
      { s' with r := s.r, phase := s.phase, sub := s.sub, t := s.t } = s ∧ HostUntouched s s'

/-- 43_accumulator.md R120. ACC adds R to H, modulo 2^32, and goes to the next block if there is one; it writes H and the sequencer, and
nothing else. -/
def Obligations.AccFoldsTheBlock : Prop :=
  ∀ s : State,
    ∃ s', exec .acc s = .next s' ∧
      (∀ i : Fin 8, (s'.h[i]).toNat = ((s.h[i]).toNat + (s.r[i]).toNat) % 2 ^ 32) ∧
      (s.blk + 1 < s.n → s'.phase = .blockLoop ∧ s'.sub = subLoad ∧ s'.blk = s.blk + 1) ∧
      (¬ s.blk + 1 < s.n → s'.phase = .finalize ∧ s'.sub = subRaw ∧ s'.blk = s.blk) ∧
      { s' with h := s.h, phase := s.phase, sub := s.sub, blk := s.blk } = s ∧ HostUntouched s s'

/-- 44_digest_encoder.md R125 and 30_encoding.md R75. DIGEST writes D, byte `4k + m` being bits 31-8m to 24-8m of H[k], and SUB, and
nothing else; DV stays as it is. -/
def Obligations.DigestSerializesHash : Prop :=
  ∀ s : State,
    ∃ s', exec .digest s = .next s' ∧
      (∀ (k : Fin 8) (m : Fin 4),
        (s'.d[4 * k.val + m.val]).toNat = (s.h[k]).toNat / 2 ^ (24 - 8 * m.val) % 2 ^ 8) ∧
      s'.phase = .finalize ∧ s'.sub = subText ∧
      { s' with d := s.d, phase := s.phase, sub := s.sub } = s ∧ HostUntouched s s'

/-- 44_digest_encoder.md R127 and 30_encoding.md R76. HEX writes X, character `8k + m` being the lowercase hexadecimal digit of bits 31-4m
to 28-4m of H[k], sets DV, and goes to DigestReady; nothing else is written. -/
def Obligations.HexSerializesHash : Prop :=
  ∀ s : State,
    ∃ s', exec .hex s = .next s' ∧
      (∀ (k m : Fin 8),
        s'.x[8 * k.val + m.val] =
          ([0x30, 0x31, 0x32, 0x33, 0x34, 0x35, 0x36, 0x37, 0x38, 0x39, 0x61, 0x62, 0x63, 0x64, 0x65, 0x66] : List Byte).getD
            ((s.h[k]).toNat / 16 ^ (7 - m.val) % 16) 0) ∧
      s'.dv = true ∧ s'.phase = .digestReady ∧ s'.sub = 0 ∧
      { s' with x := s.x, dv := s.dv, phase := s.phase, sub := s.sub } = s ∧ HostUntouched s s'

/-- 44_digest_encoder.md R128. The two digest forms of any eight words agree: two characters per byte, high digit first. -/
def Obligations.TextDigestSpellsRawDigest : Prop :=
  ∀ (h : Vector Word 8) (j : Fin 32),
    (digestText h)[2 * j.val] = hexchar ((digestBytes h)[j].extractLsb' 4 4) ∧
    (digestText h)[2 * j.val + 1] = hexchar ((digestBytes h)[j].extractLsb' 0 4)

/-- 10_state.md R20, the column "written by". An operation selected in a well-formed state changes a register only if the table names
it there: H by HASH and ACC, R by LDWR and ROUND, W[0..15] by LDBLK, W[16..63] by SCHED, PM and N by PAD, LEN by HASH, BLK by
PAD and ACC, T by LDBLK, SCHED, LDWR and ROUND, PHASE by HASH, PAD, ACC and HEX, FAULT by HASH and PAD, DV by HASH and HEX, D by
DIGEST, X by HEX. The other host inputs and MSG are no engine's to write. -/
def Obligations.OnlyNamedOperationsWrite : Prop :=
  ∀ (s s' : State) (i : Instr), s.wellFormed = true → decode s.opWord = .ok i → exec i s = .next s' →
    (s'.h = s.h ∨ (∃ len, i = .hash len) ∨ i = .acc) ∧
    (s'.r = s.r ∨ i = .ldwr ∨ i = .round) ∧
    (∀ j : Fin 64, s'.w[j] = s.w[j] ∨ (i = .ldblk ∧ j.val < 16) ∨ (i = .sched ∧ 16 ≤ j.val)) ∧
    (s'.pm = s.pm ∨ i = .pad) ∧
    (s'.len = s.len ∨ ∃ len, i = .hash len) ∧
    (s'.n = s.n ∨ i = .pad) ∧
    (s'.blk = s.blk ∨ i = .pad ∨ i = .acc) ∧
    (s'.t = s.t ∨ i = .ldblk ∨ i = .sched ∨ i = .ldwr ∨ i = .round) ∧
    (s'.phase = s.phase ∨ (∃ len, i = .hash len) ∨ i = .pad ∨ i = .acc ∨ i = .hex) ∧
    (s'.fault = s.fault ∨ (∃ len, i = .hash len) ∨ i = .pad) ∧
    (s'.dv = s.dv ∨ (∃ len, i = .hash len) ∨ i = .hex) ∧
    (s'.d = s.d ∨ i = .digest) ∧
    (s'.x = s.x ∨ i = .hex) ∧
    HostUntouched s s'

/-! ### Padding and whole functions -/

/-- 40_padder.md R93, the indexed form of the padded message: four disjoint cases that cover its 64 N bytes. -/
def Obligations.PaddedMessageByIndex : Prop :=
  ∀ message : List Byte, 8 * message.length < 2 ^ 64 →
    let n := (message.length + 8) / 64 + 1
    (pad message).length = 64 * n ∧ message.length + 1 ≤ 64 * n - 8 ∧
    (∀ (j : Nat) (inMessage : j < message.length), (pad message)[j]? = some message[j]) ∧
    (pad message)[message.length]? = some 0x80#8 ∧
    (∀ j : Nat, message.length < j → j < 64 * n - 8 → (pad message)[j]? = some 0x00#8) ∧
    (∀ j : Nat, 64 * n - 8 ≤ j → j < 64 * n →
      (pad message)[j]? = some (BitVec.ofNat 8 (8 * message.length / 2 ^ (8 * (64 * n - 1 - j)))))

/-- 40_padder.md R94 and 30_encoding.md R74. The padding invariants (a) to (f), and the three forms of the block count. -/
def Obligations.PaddingInvariants : Prop :=
  (∀ len : Nat,
    blockCount len = (len + 8) / 64 + 1 ∧ blockCount len = (8 * len + 1 + 64 + 511) / 512 ∧ 1 ≤ blockCount len) ∧
  (∀ message : List Byte, 8 * message.length < 2 ^ 64 →
    (pad message).length % 64 = 0 ∧
    (pad message).length = 64 * blockCount message.length ∧
    (pad message).length / 64 = blockCount message.length ∧
    message.length + 9 ≤ (pad message).length ∧ (pad message).length ≤ message.length + 72 ∧
    (pad message).take message.length = message ∧
    ((pad message).drop ((pad message).length - 8)).foldl (fun v b => 256 * v + b.toNat) 0 = 8 * message.length) ∧
  (∀ m1 m2 : List Byte, 8 * m1.length < 2 ^ 64 → 8 * m2.length < 2 ^ 64 → pad m1 = pad m2 → m1 = m2)

/-- 41_block_parser_scheduler.md R104. The schedule of a block by its recurrence; and LDBLK followed by the 48 SCHED steps (EXPAND)
leaves W = schedule(B) and changes no register but W and the sequencer's. -/
def Obligations.ExpandComputesSchedule : Prop :=
  (∀ (b : Block) (t : Fin 64),
    (∀ low : t.val < 16,
      (schedule b)[t] =
        be32 b[4 * t.val] b[4 * t.val + 1] b[4 * t.val + 2] b[4 * t.val + 3]) ∧
    (∀ high : 16 ≤ t.val,
      (schedule b)[t] =
        add32 (add32 (add32 (sigma1 (schedule b)[t.val - 2]) (schedule b)[t.val - 7]) (sigma0 (schedule b)[t.val - 15]))
          (schedule b)[t.val - 16])) ∧
  (∀ s : State, s.wellFormed = true → s.phase = .blockLoop → s.sub = subLoad →
    (∀ p, p ∈ s.inputs.take 49 → Quiet s.len p) →
    ∃ s' b, runSteps 49 s = .next s' ∧ blockAt s.pm s.blk = some b ∧ s'.w = schedule b ∧ s'.sub = subInit ∧
      s'.t.val = 63 ∧ s'.inputs = s.inputs.drop 49 ∧
      { s' with w := s.w, sub := s.sub, t := s.t, msg := s.msg, inputs := s.inputs } = s)

/-- 42_compression.md R114. LDWR followed by the 64 ROUND steps (COMPRESS) leaves R = compress(H, W) and changes no register but R and
the sequencer's. -/
def Obligations.CompressComputesRounds : Prop :=
  ∀ s : State, s.wellFormed = true → s.phase = .blockLoop → s.sub = subInit →
    (∀ p, p ∈ s.inputs.take 65 → Quiet s.len p) →
    ∃ s', runSteps 65 s = .next s' ∧ s'.r = compress s.h s.w ∧ s'.sub = subAcc ∧ s'.t.val = 63 ∧
      s'.inputs = s.inputs.drop 65 ∧
      { s' with r := s.r, sub := s.sub, t := s.t, msg := s.msg, inputs := s.inputs } = s

/-- 45_hash_command_and_sequencer.md R134, with the block function of 43_accumulator.md R121. One pass of the block loop: from Load,
exactly the 115 steps LDBLK, SCHED 16 to 63, LDWR, ROUND 0 to 63, ACC change H to block(H, B) and arrive at the next block's
Load or at Finalize; PM, N, LEN, D, X, DV and FAULT are unchanged. -/
def Obligations.BlockPassFoldsOneBlock : Prop :=
  ∀ s : State, s.wellFormed = true → s.phase = .blockLoop → s.sub = subLoad →
    (∀ p, p ∈ s.inputs.take 115 → Quiet s.len p) →
    ∃ s' b, runSteps 115 s = .next s' ∧
      traceSteps 115 s =
        .ldblk s.blk :: ((List.range 48).map (fun k => .sched (16 + k)) ++ .ldwr :: (List.range 64).map .round ++ [.acc]) ∧
      blockAt s.pm s.blk = some b ∧
      (∀ i : Fin 8, s'.h[i] = add32 s.h[i] (compress s.h (schedule b))[i]) ∧ s'.t.val = 63 ∧
      (s.blk + 1 < s.n → s'.phase = .blockLoop ∧ s'.sub = subLoad ∧ s'.blk = s.blk + 1) ∧
      (¬ s.blk + 1 < s.n → s'.phase = .finalize ∧ s'.sub = subRaw ∧ s'.blk = s.blk) ∧
      s'.inputs = s.inputs.drop 115 ∧
      s'.pm = s.pm ∧ s'.n = s.n ∧ s'.len = s.len ∧ s'.d = s.d ∧ s'.x = s.x ∧ s'.dv = s.dv ∧ s'.fault = s.fault

/-- 45_hash_command_and_sequencer.md R135, R136. From any well-formed idle engine, whatever its registers hold, a HASH command on a
message that the host has placed in MSG, and to which it then keeps its duties, ends after exactly 4 + 115 N steps in DigestReady
with FAULT = None, DV = 1, and D and X the two forms of hash(M). With LEN >= 2^61 the call ends after exactly two steps in Start
with FAULT = InputTooLarge and DV = 0, whatever MSG holds. Commands presented meanwhile are lost. -/
def Obligations.CallComputesTheDigest : Prop :=
  (∀ (s : State) (message : List Byte) (p : Ports) (rest : List Ports),
    s.wellFormed = true → s.busy = false → s.inputs = p :: rest → p.start = some message.length →
    8 * message.length < 2 ^ 64 → s.msg.Holds message →
    (∀ q, q ∈ s.inputs.take (4 + 115 * blockCount message.length) → Quiet message.length q) →
    ∃ s', runSteps (4 + 115 * blockCount message.length) s = .next s' ∧
      s'.phase = .digestReady ∧ s'.fault = .none ∧ s'.dv = true ∧ s'.len = message.length ∧
      hashOf message = .digest s'.d s'.x ∧ s'.d = digestBytes (finalHash message) ∧
      s'.x = digestText (finalHash message) ∧
      s'.inputs = s.inputs.drop (4 + 115 * blockCount message.length) ∧
      (∀ j, j < message.length → s'.msg.read j = s.msg.read j)) ∧
  (∀ (s : State) (len : Nat) (p : Ports) (rest : List Ports),
    s.wellFormed = true → s.busy = false → s.inputs = p :: rest → p.start = some len → 2 ^ 64 ≤ 8 * len →
    (∀ q, q ∈ s.inputs.take 2 → Quiet len q) →
    ∃ s', runSteps 2 s = .next s' ∧ s'.phase = .start ∧ s'.fault = .inputTooLarge ∧ s'.dv = false ∧
      s'.busy = false ∧ s'.err = true ∧ s'.done = false ∧
      ∀ message : List Byte, message.length = len → hashOf message = .inputTooLarge)

/-- Derived from 93_implementation_defined.md U3, 70_reset_and_hazards.md R174 (a) and 20_memory.md R56, R65, by the reading of log 7. A
host that changes the message while the call runs does not stop it: without RESET the call ends after the same 4 + 115 N steps
with the digest of some "mixture of old and new bytes". Each byte lies between the values MSG held there up to the PAD step,
whose snapshot it is: it is the old byte where the host wrote none at the instants of HASH and of PAD, whatever it writes later. -/
def Obligations.ChangedMessageHashesBetween : Prop :=
  ∀ (s : State) (message : List Byte) (p : Ports) (rest : List Ports),
    s.wellFormed = true → s.busy = false → s.inputs = p :: rest → p.start = some message.length →
    8 * message.length < 2 ^ 64 → s.msg.Holds message →
    (∀ q, q ∈ s.inputs.take (callSteps message.length) → q.reset = false) →
    ∃ s' mixed, runSteps (callSteps message.length) s = .next s' ∧
      s'.phase = .digestReady ∧ s'.fault = .none ∧ s'.dv = true ∧ s'.len = message.length ∧
      mixed.length = message.length ∧ hashOf mixed = .digest s'.d s'.x ∧
      ∀ (j : Nat) (inMessage : j < message.length) (inMixed : j < mixed.length) (low high : Nat),
        low ≤ message[j].toNat → message[j].toNat ≤ high →
        (∀ q, q ∈ s.inputs.take 2 → ∀ c : Host.Cell, q.msgWrite = some c → c.1 = j →
          low ≤ c.2.toNat ∧ c.2.toNat ≤ high) →
        low ≤ mixed[j].toNat ∧ mixed[j].toNat ≤ high

/-- Derived from 20_memory.md R56 and R65: "after the PAD step the engine never reads MSG again in that call", and a change of MSG "is not
seen after the PAD step". In BlockLoop and Finalize the step is the same whatever MSG and the record of disturbed bytes hold and
whatever the host writes to MSG: it differs in MSG and that record alone. -/
def Obligations.LateMessageChangeIsNotSeen : Prop :=
  ∀ (s : State) (msg disturbed : Memory) (p : Ports) (rest : List Ports) (write : Option Host.Cell),
    (s.phase = .blockLoop ∨ s.phase = .finalize) → s.inputs = p :: rest →
    ∃ s' msg', step s = .next s' ∧
      step { s with msg := msg, disturbed := disturbed, inputs := { p with msgWrite := write } :: rest } =
        .next { s' with msg := msg', disturbed := disturbed }

/-- 30_encoding.md R83, R84. The trace of a successful call is the pseudo-op hash(M): HASH, PAD, BLOCK 0 to BLOCK N-1, FINAL. -/
def Obligations.CallTraceIsHashPseudoOp : Prop :=
  ∀ (s : State) (message : List Byte) (p : Ports) (rest : List Ports),
    s.wellFormed = true → s.busy = false → s.inputs = p :: rest → p.start = some message.length →
    8 * message.length < 2 ^ 64 → s.msg.Holds message →
    (∀ q, q ∈ s.inputs.take (callSteps message.length) → Quiet message.length q) →
    traceSteps (callSteps message.length) s = hashOps message

/-! ### Invariants and isolation -/

/-- 10_state.md R38, derived. Every step, from every state that meets the invariant, and whatever the host presents, gives a state that
meets it: the message memory and the record of disturbed bytes keep their canonical form, the state is well-formed, every
register holding what R38 says was written, and T is 63 when a counted loop is over. -/
def Obligations.StepKeepsInvariant : Prop :=
  ∀ s s' : State, StateInv s → step s = .next s' → StateInv s'

/-- 10_state.md R30, R38, derived. Every step, whatever the host presents, keeps the state sound: PM is the padded form of some message
of LEN bytes and H its hash state after BLK blocks, so that whenever PHASE is DigestReady the ports D and X hold that message's
digest. -/
def Obligations.StepKeepsSoundness : Prop :=
  ∀ s s' : State, StateInv s → Sound s → step s = .next s' → Sound s'

/-- 10_state.md R30, R32, R33, 30_encoding.md R78, R79. In a well-formed state DV is 1 exactly in DigestReady, DONE is DV, BUSY and ERR are as R32
says, DV = 1 excludes a fault, and STATUS reads the codes. -/
def Obligations.StatusLinesFollowTheState : Prop :=
  ∀ s : State, s.wellFormed = true →
    (s.dv = true ↔ s.phase = .digestReady) ∧ s.done = s.dv ∧
    (s.busy = true ↔ s.phase = .padding ∨ s.phase = .blockLoop ∨ s.phase = .finalize) ∧
    (s.err = true ↔ s.fault ≠ .none) ∧ (s.dv = true → s.fault = .none) ∧
    s.status.dv = s.dv ∧
    s.status.phase.toNat =
      (match s.phase with | .start => 0 | .padding => 1 | .blockLoop => 2 | .finalize => 3 | .digestReady => 4) ∧
    s.status.fault.toNat = (match s.fault with | .none => 0 | .inputTooLarge => 1 | .invariantViolation => 2) ∧
    s.seqc.toNat = 8 * s.status.phase.toNat + s.sub.toNat

/-- 10_state.md R29, R31, 60_exceptions.md R153, derived. Only RESET and an accepted HASH clear a recorded fault, and only they end the validity of
the digest: every other step keeps FAULT when one is recorded, and keeps DV, D and X while DV is 1. -/
def Obligations.FaultAndDigestAreHeld : Prop :=
  ∀ s s' : State, s.wellFormed = true → s.ports.reset = false → (s.busy = true ∨ s.ports.start = none) →
    step s = .next s' →
    (s.fault ≠ .none → s'.fault = s.fault) ∧ (s.dv = true → s'.dv = true ∧ s'.d = s.d ∧ s'.x = s.x)

/-- 20_memory.md R57, R61 (c), derived. While DV is 1 a host read of D or X returns the stored byte and changes nothing. While DV is 0 it
returns a value that depends on no register and changes no register; that it is a draw, of the counter, where R57 also allows a
refusal, is the model's choice (log 3). -/
def Obligations.HostReadsGiveDigestOrNothing : Prop :=
  (∀ (s : State) (j : Fin 32) (k : Fin 64), s.dv = true →
    s.hostReadD j = (s.d[j], s) ∧ s.hostReadX k = (s.x[k], s)) ∧
  (∀ (s1 s2 : State) (j : Fin 32) (k : Fin 64), s1.dv = false → s2.dv = false → s1.draws = s2.draws →
    (s1.hostReadD j).1 = (s2.hostReadD j).1 ∧ (s1.hostReadX k).1 = (s2.hostReadX k).1) ∧
  (∀ (s : State) (j : Fin 32) (k : Fin 64),
    { (s.hostReadD j).2 with draws := s.draws } = s ∧ { (s.hostReadX k).2 with draws := s.draws } = s)

/-- 20_memory.md R50, derived: "The engine never writes MSG", and 70_reset_and_hazards.md R172 (2), the host places the message there. A
step leaves every byte of MSG but the one the host places at that instant, and that one lands, whatever else the step does (log
17). -/
def Obligations.EngineNeverWritesMessageMemory : Prop :=
  (∀ (s s' : State) (a : Nat), step s = .next s' → (∀ c : Host.Cell, s.ports.msgWrite = some c → c.1 ≠ a) →
    s'.msg.read a = s.msg.read a) ∧
  (∀ (s s' : State) (c : Host.Cell), step s = .next s' → s.ports.msgWrite = some c → s'.msg.read c.1 = some c.2)

/-- 70_reset_and_hazards.md R174, derived: "the engine checks none of them and raises no fault if they are broken". The one reason for
which a step stops is a byte of the message that PAD reads and that is not backed (93_implementation_defined.md U4, log 4): no
host write, command or RESET stops the machine. -/
def Obligations.OnlyAbsentByteStops : Prop :=
  ∀ s : State, (∃ s', step s = .next s') ∨
    ∃ a, step s = .fault (.messageByteAbsent a) ∧ s.wellFormed = true ∧ s.ports.reset = false ∧ s.phase = .padding ∧
      s.len < 2 ^ 61 ∧ a < s.len ∧ s.afterPorts.messageByte a = none ∧
      ∀ b, b < a → (s.afterPorts.messageByte b).isSome = true

/-- 10_state.md R36, 43_accumulator.md R123, 70_reset_and_hazards.md R173, derived. Nothing unwritten reaches the host: two engines in Start
that agree on FAULT, on MSG and on what the host presents, and may differ in every other register, look the same to the host
after every number of steps, resets included. So no result depends on the values the model gives the unspecified registers (log
1, log 2) or on earlier calls. What PAD reads of a byte that the host changes after HASH was issued is a draw (log 7): where
the host does so the two engines are given the same draws. -/
def Obligations.UnwrittenRegistersNeverShow : Prop :=
  ∀ s1 s2 : State, s1.wellFormed = true → s2.wellFormed = true →
    s1.phase = .start → s2.phase = .start → s1.fault = s2.fault → s1.msg = s2.msg → s1.inputs = s2.inputs →
    (s1.draws = s2.draws ∨
      ∀ p, p ∈ s1.inputs → ∀ c : Host.Cell, p.msgWrite = some c →
        ∀ q, q ∈ s1.inputs → ∀ len, q.start = some len → len ≤ c.1) →
    ∀ k : Nat, viewOf (runSteps k s1) = viewOf (runSteps k s2)

/-- 60_exceptions.md R161, derived, with the system of log 15 (a list of engines, each with its own MSG). Under every interleaving each
engine is where its own run takes it: after as many steps as the schedule gave it, or, if that run stops, where it stopped. So
each call ends as 45_hash_command_and_sequencer.md R136 says, whatever the other engines do. -/
def Obligations.EnginesAreIndependent : Prop :=
  ∀ (sys : System) (turns : Nat → Nat) (m k : Nat) (s : State), sys.engines[k]? = some s →
    (∀ s', runSteps (stepsOf turns k m) s = .next s' → (sys.run turns m).engines[k]? = some s') ∧
    (∀ r, runSteps (stepsOf turns k m) s = .fault r →
      ∃ l s', l < stepsOf turns k m ∧ runSteps l s = .next s' ∧ step s' = .fault r ∧
        (sys.run turns m).engines[k]? = some s')

/-- 70_reset_and_hazards.md R177, derived, with the system of log 15: "from every accepted HASH, the idle end state is reached after
finitely many steps"; with several engines, if the schedule is weakly fair to the engine. Engine `k` accepts a HASH at some moment
of the run and its host keeps its duties; then at some later moment it is in the end state, with the digest of the message, or,
with LEN >= 2^61, with InputTooLarge. -/
def Obligations.FairScheduleEndsEveryCall : Prop :=
  ∀ (sys : System) (turns : Nat → Nat) (m k : Nat) (s : State) (p : Ports) (rest : List Ports),
    WeaklyFair sys turns k → (sys.run turns m).engines[k]? = some s →
    s.wellFormed = true → s.busy = false → s.inputs = p :: rest →
    (∀ message : List Byte, p.start = some message.length → 8 * message.length < 2 ^ 64 → s.msg.Holds message →
      (∀ q, q ∈ s.inputs.take (callSteps message.length) → Quiet message.length q) →
      ∃ m' s', m ≤ m' ∧ (sys.run turns m').engines[k]? = some s' ∧ s'.phase = .digestReady ∧ s'.fault = .none ∧
        s'.dv = true ∧ hashOf message = .digest s'.d s'.x) ∧
    (∀ len : Nat, p.start = some len → 2 ^ 64 ≤ 8 * len → (∀ q, q ∈ s.inputs.take 2 → Quiet len q) →
      ∃ m' s', m ≤ m' ∧ (sys.run turns m').engines[k]? = some s' ∧ s'.phase = .start ∧ s'.fault = .inputTooLarge ∧
        s'.dv = false)
end

