-- ==== Sys2Proof/Laws/State.lean ====
section
/-! SUPPORT. One lemma per field per update of State, so that no later proof unfolds a record update. -/

namespace Sys2Proof.Machine

/-! ### setSeq -/

@[simp] theorem State.setSeq_h (s : State) (p : Phase) (u : BitVec 3) (b : Nat) (i : Fin 64) : (s.setSeq p u b i).h = s.h := rfl
@[simp] theorem State.setSeq_r (s : State) (p : Phase) (u : BitVec 3) (b : Nat) (i : Fin 64) : (s.setSeq p u b i).r = s.r := rfl
@[simp] theorem State.setSeq_w (s : State) (p : Phase) (u : BitVec 3) (b : Nat) (i : Fin 64) : (s.setSeq p u b i).w = s.w := rfl
@[simp] theorem State.setSeq_pm (s : State) (p : Phase) (u : BitVec 3) (b : Nat) (i : Fin 64) : (s.setSeq p u b i).pm = s.pm := rfl
@[simp] theorem State.setSeq_len (s : State) (p : Phase) (u : BitVec 3) (b : Nat) (i : Fin 64) : (s.setSeq p u b i).len = s.len := rfl
@[simp] theorem State.setSeq_n (s : State) (p : Phase) (u : BitVec 3) (b : Nat) (i : Fin 64) : (s.setSeq p u b i).n = s.n := rfl
@[simp] theorem State.setSeq_blk (s : State) (p : Phase) (u : BitVec 3) (b : Nat) (i : Fin 64) : (s.setSeq p u b i).blk = b := rfl
@[simp] theorem State.setSeq_t (s : State) (p : Phase) (u : BitVec 3) (b : Nat) (i : Fin 64) : (s.setSeq p u b i).t = i := rfl
@[simp] theorem State.setSeq_phase (s : State) (p : Phase) (u : BitVec 3) (b : Nat) (i : Fin 64) : (s.setSeq p u b i).phase = p := rfl
@[simp] theorem State.setSeq_sub (s : State) (p : Phase) (u : BitVec 3) (b : Nat) (i : Fin 64) : (s.setSeq p u b i).sub = u := rfl
@[simp] theorem State.setSeq_fault (s : State) (p : Phase) (u : BitVec 3) (b : Nat) (i : Fin 64) : (s.setSeq p u b i).fault = s.fault := rfl
@[simp] theorem State.setSeq_dv (s : State) (p : Phase) (u : BitVec 3) (b : Nat) (i : Fin 64) : (s.setSeq p u b i).dv = s.dv := rfl
@[simp] theorem State.setSeq_d (s : State) (p : Phase) (u : BitVec 3) (b : Nat) (i : Fin 64) : (s.setSeq p u b i).d = s.d := rfl
@[simp] theorem State.setSeq_x (s : State) (p : Phase) (u : BitVec 3) (b : Nat) (i : Fin 64) : (s.setSeq p u b i).x = s.x := rfl
@[simp] theorem State.setSeq_msg (s : State) (p : Phase) (u : BitVec 3) (b : Nat) (i : Fin 64) : (s.setSeq p u b i).msg = s.msg := rfl
@[simp] theorem State.setSeq_inputs (s : State) (p : Phase) (u : BitVec 3) (b : Nat) (i : Fin 64) : (s.setSeq p u b i).inputs = s.inputs := rfl
@[simp] theorem State.setSeq_disturbed (s : State) (p : Phase) (u : BitVec 3) (b : Nat) (i : Fin 64) : (s.setSeq p u b i).disturbed = s.disturbed := rfl
@[simp] theorem State.setSeq_draws (s : State) (p : Phase) (u : BitVec 3) (b : Nat) (i : Fin 64) : (s.setSeq p u b i).draws = s.draws := rfl

/-! ### raise -/

@[simp] theorem State.raise_h (s : State) (f : FaultCode) : (s.raise f).h = s.h := rfl
@[simp] theorem State.raise_r (s : State) (f : FaultCode) : (s.raise f).r = s.r := rfl
@[simp] theorem State.raise_w (s : State) (f : FaultCode) : (s.raise f).w = s.w := rfl
@[simp] theorem State.raise_pm (s : State) (f : FaultCode) : (s.raise f).pm = s.pm := rfl
@[simp] theorem State.raise_len (s : State) (f : FaultCode) : (s.raise f).len = s.len := rfl
@[simp] theorem State.raise_n (s : State) (f : FaultCode) : (s.raise f).n = s.n := rfl
@[simp] theorem State.raise_blk (s : State) (f : FaultCode) : (s.raise f).blk = s.blk := rfl
@[simp] theorem State.raise_t (s : State) (f : FaultCode) : (s.raise f).t = s.t := rfl
@[simp] theorem State.raise_phase (s : State) (f : FaultCode) : (s.raise f).phase = .start := rfl
@[simp] theorem State.raise_sub (s : State) (f : FaultCode) : (s.raise f).sub = 0 := rfl
@[simp] theorem State.raise_fault (s : State) (f : FaultCode) : (s.raise f).fault = f := rfl
@[simp] theorem State.raise_dv (s : State) (f : FaultCode) : (s.raise f).dv = s.dv := rfl
@[simp] theorem State.raise_d (s : State) (f : FaultCode) : (s.raise f).d = s.d := rfl
@[simp] theorem State.raise_x (s : State) (f : FaultCode) : (s.raise f).x = s.x := rfl
@[simp] theorem State.raise_msg (s : State) (f : FaultCode) : (s.raise f).msg = s.msg := rfl
@[simp] theorem State.raise_inputs (s : State) (f : FaultCode) : (s.raise f).inputs = s.inputs := rfl
@[simp] theorem State.raise_disturbed (s : State) (f : FaultCode) : (s.raise f).disturbed = s.disturbed := rfl
@[simp] theorem State.raise_draws (s : State) (f : FaultCode) : (s.raise f).draws = s.draws := rfl

/-! ### clearFault -/

@[simp] theorem State.clearFault_h (s : State) : s.clearFault.h = s.h := rfl
@[simp] theorem State.clearFault_r (s : State) : s.clearFault.r = s.r := rfl
@[simp] theorem State.clearFault_w (s : State) : s.clearFault.w = s.w := rfl
@[simp] theorem State.clearFault_pm (s : State) : s.clearFault.pm = s.pm := rfl
@[simp] theorem State.clearFault_len (s : State) : s.clearFault.len = s.len := rfl
@[simp] theorem State.clearFault_n (s : State) : s.clearFault.n = s.n := rfl
@[simp] theorem State.clearFault_blk (s : State) : s.clearFault.blk = s.blk := rfl
@[simp] theorem State.clearFault_t (s : State) : s.clearFault.t = s.t := rfl
@[simp] theorem State.clearFault_phase (s : State) : s.clearFault.phase = s.phase := rfl
@[simp] theorem State.clearFault_sub (s : State) : s.clearFault.sub = s.sub := rfl
@[simp] theorem State.clearFault_fault (s : State) : s.clearFault.fault = .none := rfl
@[simp] theorem State.clearFault_dv (s : State) : s.clearFault.dv = s.dv := rfl
@[simp] theorem State.clearFault_d (s : State) : s.clearFault.d = s.d := rfl
@[simp] theorem State.clearFault_x (s : State) : s.clearFault.x = s.x := rfl
@[simp] theorem State.clearFault_msg (s : State) : s.clearFault.msg = s.msg := rfl
@[simp] theorem State.clearFault_inputs (s : State) : s.clearFault.inputs = s.inputs := rfl
@[simp] theorem State.clearFault_disturbed (s : State) : s.clearFault.disturbed = s.disturbed := rfl
@[simp] theorem State.clearFault_draws (s : State) : s.clearFault.draws = s.draws := rfl

/-! ### failFast -/

@[simp] theorem State.failFast_h (s : State) : s.failFast.h = s.h := rfl
@[simp] theorem State.failFast_r (s : State) : s.failFast.r = s.r := rfl
@[simp] theorem State.failFast_w (s : State) : s.failFast.w = s.w := rfl
@[simp] theorem State.failFast_pm (s : State) : s.failFast.pm = s.pm := rfl
@[simp] theorem State.failFast_len (s : State) : s.failFast.len = s.len := rfl
@[simp] theorem State.failFast_n (s : State) : s.failFast.n = s.n := rfl
@[simp] theorem State.failFast_blk (s : State) : s.failFast.blk = s.blk := rfl
@[simp] theorem State.failFast_t (s : State) : s.failFast.t = s.t := rfl
@[simp] theorem State.failFast_phase (s : State) : s.failFast.phase = .start := rfl
@[simp] theorem State.failFast_sub (s : State) : s.failFast.sub = 0 := rfl
@[simp] theorem State.failFast_fault (s : State) : s.failFast.fault = .invariantViolation := rfl
@[simp] theorem State.failFast_dv (s : State) : s.failFast.dv = false := rfl
@[simp] theorem State.failFast_d (s : State) : s.failFast.d = s.d := rfl
@[simp] theorem State.failFast_x (s : State) : s.failFast.x = s.x := rfl
@[simp] theorem State.failFast_msg (s : State) : s.failFast.msg = s.msg := rfl
@[simp] theorem State.failFast_inputs (s : State) : s.failFast.inputs = s.inputs := rfl
@[simp] theorem State.failFast_disturbed (s : State) : s.failFast.disturbed = s.disturbed := rfl
@[simp] theorem State.failFast_draws (s : State) : s.failFast.draws = s.draws := rfl

/-! ### resetEvent -/

@[simp] theorem State.resetEvent_h (s : State) : s.resetEvent.h = Config.freeH s.draws := rfl
@[simp] theorem State.resetEvent_r (s : State) : s.resetEvent.r = Config.freeR s.draws := rfl
@[simp] theorem State.resetEvent_w (s : State) : s.resetEvent.w = Config.freeW s.draws := rfl
@[simp] theorem State.resetEvent_pm (s : State) : s.resetEvent.pm = Config.freePM s.draws := rfl
@[simp] theorem State.resetEvent_len (s : State) : s.resetEvent.len = Config.freeLen s.draws := rfl
@[simp] theorem State.resetEvent_n (s : State) : s.resetEvent.n = Config.freeN s.draws := rfl
@[simp] theorem State.resetEvent_blk (s : State) : s.resetEvent.blk = Config.freeBlk s.draws := rfl
@[simp] theorem State.resetEvent_t (s : State) : s.resetEvent.t = Config.freeT s.draws := rfl
@[simp] theorem State.resetEvent_phase (s : State) : s.resetEvent.phase = .start := rfl
@[simp] theorem State.resetEvent_sub (s : State) : s.resetEvent.sub = 0 := rfl
@[simp] theorem State.resetEvent_fault (s : State) : s.resetEvent.fault = .none := rfl
@[simp] theorem State.resetEvent_dv (s : State) : s.resetEvent.dv = false := rfl
@[simp] theorem State.resetEvent_d (s : State) : s.resetEvent.d = Config.freeD s.draws := rfl
@[simp] theorem State.resetEvent_x (s : State) : s.resetEvent.x = Config.freeX s.draws := rfl
@[simp] theorem State.resetEvent_msg (s : State) : s.resetEvent.msg = s.msg := rfl
@[simp] theorem State.resetEvent_inputs (s : State) : s.resetEvent.inputs = s.inputs := rfl
@[simp] theorem State.resetEvent_disturbed (s : State) : s.resetEvent.disturbed = s.disturbed := rfl
@[simp] theorem State.resetEvent_draws (s : State) : s.resetEvent.draws = s.draws + 1 := rfl

/-! ### popPorts -/

@[simp] theorem State.popPorts_h (s : State) : s.popPorts.h = s.h := rfl
@[simp] theorem State.popPorts_r (s : State) : s.popPorts.r = s.r := rfl
@[simp] theorem State.popPorts_w (s : State) : s.popPorts.w = s.w := rfl
@[simp] theorem State.popPorts_pm (s : State) : s.popPorts.pm = s.pm := rfl
@[simp] theorem State.popPorts_len (s : State) : s.popPorts.len = s.len := rfl
@[simp] theorem State.popPorts_n (s : State) : s.popPorts.n = s.n := rfl
@[simp] theorem State.popPorts_blk (s : State) : s.popPorts.blk = s.blk := rfl
@[simp] theorem State.popPorts_t (s : State) : s.popPorts.t = s.t := rfl
@[simp] theorem State.popPorts_phase (s : State) : s.popPorts.phase = s.phase := rfl
@[simp] theorem State.popPorts_sub (s : State) : s.popPorts.sub = s.sub := rfl
@[simp] theorem State.popPorts_fault (s : State) : s.popPorts.fault = s.fault := rfl
@[simp] theorem State.popPorts_dv (s : State) : s.popPorts.dv = s.dv := rfl
@[simp] theorem State.popPorts_d (s : State) : s.popPorts.d = s.d := rfl
@[simp] theorem State.popPorts_x (s : State) : s.popPorts.x = s.x := rfl
@[simp] theorem State.popPorts_msg (s : State) : s.popPorts.msg = s.msg := rfl
@[simp] theorem State.popPorts_inputs (s : State) : s.popPorts.inputs = s.inputs.tail := rfl
@[simp] theorem State.popPorts_disturbed (s : State) : s.popPorts.disturbed = s.disturbed := rfl
@[simp] theorem State.popPorts_draws (s : State) : s.popPorts.draws = s.draws := rfl

/-! ### hostWrite and landed -/

@[simp] theorem State.hostWrite_h (s : State) (p : Ports) : (s.hostWrite p).h = s.h := by
  unfold State.hostWrite; split <;> rfl
@[simp] theorem State.hostWrite_r (s : State) (p : Ports) : (s.hostWrite p).r = s.r := by
  unfold State.hostWrite; split <;> rfl
@[simp] theorem State.hostWrite_w (s : State) (p : Ports) : (s.hostWrite p).w = s.w := by
  unfold State.hostWrite; split <;> rfl
@[simp] theorem State.hostWrite_pm (s : State) (p : Ports) : (s.hostWrite p).pm = s.pm := by
  unfold State.hostWrite; split <;> rfl
@[simp] theorem State.hostWrite_len (s : State) (p : Ports) : (s.hostWrite p).len = s.len := by
  unfold State.hostWrite; split <;> rfl
@[simp] theorem State.hostWrite_n (s : State) (p : Ports) : (s.hostWrite p).n = s.n := by
  unfold State.hostWrite; split <;> rfl
@[simp] theorem State.hostWrite_blk (s : State) (p : Ports) : (s.hostWrite p).blk = s.blk := by
  unfold State.hostWrite; split <;> rfl
@[simp] theorem State.hostWrite_t (s : State) (p : Ports) : (s.hostWrite p).t = s.t := by
  unfold State.hostWrite; split <;> rfl
@[simp] theorem State.hostWrite_phase (s : State) (p : Ports) : (s.hostWrite p).phase = s.phase := by
  unfold State.hostWrite; split <;> rfl
@[simp] theorem State.hostWrite_sub (s : State) (p : Ports) : (s.hostWrite p).sub = s.sub := by
  unfold State.hostWrite; split <;> rfl
@[simp] theorem State.hostWrite_fault (s : State) (p : Ports) : (s.hostWrite p).fault = s.fault := by
  unfold State.hostWrite; split <;> rfl
@[simp] theorem State.hostWrite_dv (s : State) (p : Ports) : (s.hostWrite p).dv = s.dv := by
  unfold State.hostWrite; split <;> rfl
@[simp] theorem State.hostWrite_d (s : State) (p : Ports) : (s.hostWrite p).d = s.d := by
  unfold State.hostWrite; split <;> rfl
@[simp] theorem State.hostWrite_x (s : State) (p : Ports) : (s.hostWrite p).x = s.x := by
  unfold State.hostWrite; split <;> rfl
@[simp] theorem State.hostWrite_inputs (s : State) (p : Ports) : (s.hostWrite p).inputs = s.inputs := by
  unfold State.hostWrite; split <;> rfl
@[simp] theorem State.hostWrite_disturbed (s : State) (p : Ports) : (s.hostWrite p).disturbed = s.disturbed := by
  unfold State.hostWrite; split <;> rfl
@[simp] theorem State.hostWrite_draws (s : State) (p : Ports) : (s.hostWrite p).draws = s.draws := by
  unfold State.hostWrite; split <;> rfl

theorem State.hostWrite_none {s : State} {p : Ports} (h : p.msgWrite = none) : s.hostWrite p = s := by
  simp [State.hostWrite, h]

theorem State.hostWrite_some {s : State} {p : Ports} {c : Host.Cell} (h : p.msgWrite = some c) :
    s.hostWrite p = { s with msg := s.msg.write c.1 c.2 } := by
  simp [State.hostWrite, h]

@[simp] theorem State.landed_h (s : State) : s.landed.h = s.h := by simp [State.landed]
@[simp] theorem State.landed_r (s : State) : s.landed.r = s.r := by simp [State.landed]
@[simp] theorem State.landed_w (s : State) : s.landed.w = s.w := by simp [State.landed]
@[simp] theorem State.landed_pm (s : State) : s.landed.pm = s.pm := by simp [State.landed]
@[simp] theorem State.landed_len (s : State) : s.landed.len = s.len := by simp [State.landed]
@[simp] theorem State.landed_n (s : State) : s.landed.n = s.n := by simp [State.landed]
@[simp] theorem State.landed_blk (s : State) : s.landed.blk = s.blk := by simp [State.landed]
@[simp] theorem State.landed_t (s : State) : s.landed.t = s.t := by simp [State.landed]
@[simp] theorem State.landed_phase (s : State) : s.landed.phase = s.phase := by simp [State.landed]
@[simp] theorem State.landed_sub (s : State) : s.landed.sub = s.sub := by simp [State.landed]
@[simp] theorem State.landed_fault (s : State) : s.landed.fault = s.fault := by simp [State.landed]
@[simp] theorem State.landed_dv (s : State) : s.landed.dv = s.dv := by simp [State.landed]
@[simp] theorem State.landed_d (s : State) : s.landed.d = s.d := by simp [State.landed]
@[simp] theorem State.landed_x (s : State) : s.landed.x = s.x := by simp [State.landed]
@[simp] theorem State.landed_inputs (s : State) : s.landed.inputs = s.inputs.tail := by simp [State.landed]
@[simp] theorem State.landed_disturbed (s : State) : s.landed.disturbed = s.disturbed := by simp [State.landed]
@[simp] theorem State.landed_draws (s : State) : s.landed.draws = s.draws := by simp [State.landed]

/-- The host's byte and the instant are all that lands. -/
theorem State.landed_eq (s : State) : s.landed = { s with msg := s.landed.msg, inputs := s.inputs.tail } := by
  unfold State.landed State.hostWrite
  split <;> rfl

/-! ### disturb and afterPorts -/

/-- A disturbed call changes the record of disturbed bytes and the draw counter, and nothing else. -/
theorem State.disturb_eq (s : State) (p : Ports) :
    s.disturb p =
      { s with disturbed := (s.disturb p).disturbed, draws := (s.disturb p).draws } := by
  unfold State.disturb State.disturbUnread
  repeat' split
  all_goals rfl

@[simp] theorem State.disturb_h (s : State) (p : Ports) : (s.disturb p).h = s.h := by rw [State.disturb_eq]
@[simp] theorem State.disturb_r (s : State) (p : Ports) : (s.disturb p).r = s.r := by rw [State.disturb_eq]
@[simp] theorem State.disturb_w (s : State) (p : Ports) : (s.disturb p).w = s.w := by rw [State.disturb_eq]
@[simp] theorem State.disturb_pm (s : State) (p : Ports) : (s.disturb p).pm = s.pm := by rw [State.disturb_eq]
@[simp] theorem State.disturb_len (s : State) (p : Ports) : (s.disturb p).len = s.len := by rw [State.disturb_eq]
@[simp] theorem State.disturb_n (s : State) (p : Ports) : (s.disturb p).n = s.n := by rw [State.disturb_eq]
@[simp] theorem State.disturb_blk (s : State) (p : Ports) : (s.disturb p).blk = s.blk := by rw [State.disturb_eq]
@[simp] theorem State.disturb_t (s : State) (p : Ports) : (s.disturb p).t = s.t := by rw [State.disturb_eq]
@[simp] theorem State.disturb_phase (s : State) (p : Ports) : (s.disturb p).phase = s.phase := by rw [State.disturb_eq]
@[simp] theorem State.disturb_sub (s : State) (p : Ports) : (s.disturb p).sub = s.sub := by rw [State.disturb_eq]
@[simp] theorem State.disturb_fault (s : State) (p : Ports) : (s.disturb p).fault = s.fault := by rw [State.disturb_eq]
@[simp] theorem State.disturb_dv (s : State) (p : Ports) : (s.disturb p).dv = s.dv := by rw [State.disturb_eq]
@[simp] theorem State.disturb_d (s : State) (p : Ports) : (s.disturb p).d = s.d := by rw [State.disturb_eq]
@[simp] theorem State.disturb_x (s : State) (p : Ports) : (s.disturb p).x = s.x := by rw [State.disturb_eq]
@[simp] theorem State.disturb_msg (s : State) (p : Ports) : (s.disturb p).msg = s.msg := by rw [State.disturb_eq]
@[simp] theorem State.disturb_inputs (s : State) (p : Ports) : (s.disturb p).inputs = s.inputs := by rw [State.disturb_eq]

@[simp] theorem State.afterPorts_h (s : State) : s.afterPorts.h = s.h := by simp [State.afterPorts]
@[simp] theorem State.afterPorts_r (s : State) : s.afterPorts.r = s.r := by simp [State.afterPorts]
@[simp] theorem State.afterPorts_w (s : State) : s.afterPorts.w = s.w := by simp [State.afterPorts]
@[simp] theorem State.afterPorts_len (s : State) : s.afterPorts.len = s.len := by simp [State.afterPorts]
@[simp] theorem State.afterPorts_n (s : State) : s.afterPorts.n = s.n := by simp [State.afterPorts]
@[simp] theorem State.afterPorts_blk (s : State) : s.afterPorts.blk = s.blk := by simp [State.afterPorts]
@[simp] theorem State.afterPorts_t (s : State) : s.afterPorts.t = s.t := by simp [State.afterPorts]
@[simp] theorem State.afterPorts_phase (s : State) : s.afterPorts.phase = s.phase := by simp [State.afterPorts]
@[simp] theorem State.afterPorts_sub (s : State) : s.afterPorts.sub = s.sub := by simp [State.afterPorts]
@[simp] theorem State.afterPorts_fault (s : State) : s.afterPorts.fault = s.fault := by simp [State.afterPorts]
@[simp] theorem State.afterPorts_dv (s : State) : s.afterPorts.dv = s.dv := by simp [State.afterPorts]
@[simp] theorem State.afterPorts_d (s : State) : s.afterPorts.d = s.d := by simp [State.afterPorts]
@[simp] theorem State.afterPorts_x (s : State) : s.afterPorts.x = s.x := by simp [State.afterPorts]
@[simp] theorem State.afterPorts_inputs (s : State) : s.afterPorts.inputs = s.inputs.tail := by simp [State.afterPorts]
@[simp] theorem State.afterPorts_pm (s : State) : s.afterPorts.pm = s.pm := by simp [State.afterPorts]
@[simp] theorem State.afterPorts_disturbed (s : State) : s.afterPorts.disturbed = (s.disturb s.ports).disturbed := by simp [State.afterPorts]
@[simp] theorem State.afterPorts_draws (s : State) : s.afterPorts.draws = (s.disturb s.ports).draws := by simp [State.afterPorts]

/-- What lands in MSG does not depend on what it disturbs. -/
@[simp] theorem State.afterPorts_msg (s : State) : s.afterPorts.msg = s.landed.msg := by
  unfold State.afterPorts State.landed State.hostWrite
  split <;> simp

theorem State.disturbUnread_outside {s : State} {len : Nat} {c : Host.Cell} (h : len ≤ c.1) : s.disturbUnread len c = s :=
  if_neg (Nat.not_lt.2 h)

/-- While the host writes nothing, a busy engine is not disturbed. -/
theorem State.disturb_busy {s : State} {p : Ports} (hb : s.busy = true) (hp : p.msgWrite = none) : s.disturb p = s := by
  unfold State.busy at hb
  unfold State.disturb
  cases h : s.phase <;> simp_all

/-- An idle engine to which no command is presented is not disturbed. -/
theorem State.disturb_idle {s : State} {p : Ports} (hb : s.busy = false) (hp : p.start = none) : s.disturb p = s := by
  unfold State.busy at hb
  unfold State.disturb
  cases h : s.phase <;> simp_all

/-- After PAD no host write disturbs the call. -/
theorem State.disturb_afterPad {s : State} (p : Ports) (h : s.phase = .blockLoop ∨ s.phase = .finalize) : s.disturb p = s := by
  rcases h with h | h <;> simp [State.disturb, h]

/-- A host write beyond the message does not disturb the call that runs. -/
theorem State.disturb_outside {s : State} {p : Ports} (hb : s.busy = true)
    (hp : ∀ c : Host.Cell, p.msgWrite = some c → s.len ≤ c.1) : s.disturb p = s := by
  unfold State.busy at hb
  unfold State.disturb
  cases hm : p.msgWrite with
  | none => cases h : s.phase <;> simp_all
  | some c =>
    cases h : s.phase <;> simp_all [State.disturbUnread_outside]

end Sys2Proof.Machine
end

