-- ==== Sys2Proof/Laws/Memory.lean ====
section
/-! SUPPORT. The message memory: read after write, the canonical form, ranges of bytes. -/

namespace Sys2Proof.Machine

theorem Memory.read_nil (a : Nat) : Memory.read [] a = none := rfl

theorem Memory.read_cons (c : Host.Cell) (m : Memory) (a : Nat) :
    Memory.read (c :: m) a = if c.1 = a then some c.2 else Memory.read m a := rfl

theorem Memory.wf_cons (c : Host.Cell) (m : Memory) :
    Memory.wf (c :: m) = true ↔ (∀ e ∈ m, c.1 < e.1) ∧ Memory.wf m = true := by
  simp [Memory.wf]

/-- A read after a write to the same index gives the byte written, in a memory in canonical form. -/
theorem Memory.read_write_same (m : Memory) (a : Nat) (b : Byte) : (m.write a b).read a = some b := by
  induction m with
  | nil => simp [Memory.write, Memory.read]
  | cons c m ih =>
    unfold Memory.write
    split
    · simp [Memory.read]
    · split
      · simp [Memory.read]
      · rename_i hne
        simp [Memory.read, ih, Ne.symm hne]

/-- A write leaves every other index alone. -/
theorem Memory.read_write_other (m : Memory) {a a' : Nat} (b : Byte) (h : a' ≠ a) :
    (m.write a b).read a' = m.read a' := by
  induction m with
  | nil => simp [Memory.write, Memory.read, Ne.symm h]
  | cons c m ih =>
    unfold Memory.write
    split
    · simp [Memory.read, Ne.symm h]
    · split
      · rename_i heq
        simp [Memory.read, ← heq, Ne.symm h]
      · simp [Memory.read, ih]

theorem Memory.mem_write {m : Memory} {a : Nat} {b : Byte} {e : Host.Cell} (h : e ∈ m.write a b) :
    e.1 = a ∨ e ∈ m := by
  induction m with
  | nil =>
    simp [Memory.write] at h
    exact .inl (by simp [h])
  | cons c m ih =>
    unfold Memory.write at h
    split at h
    · rcases List.mem_cons.1 h with rfl | h
      · exact .inl rfl
      · exact .inr h
    · split at h
      · rcases List.mem_cons.1 h with rfl | h
        · exact .inl rfl
        · exact .inr (List.mem_cons_of_mem _ h)
      · rcases List.mem_cons.1 h with rfl | h
        · exact .inr List.mem_cons_self
        · rcases ih h with h | h
          · exact .inl h
          · exact .inr (List.mem_cons_of_mem _ h)

/-- The one operation that changes the message memory keeps its canonical form. -/
theorem Memory.wf_write {m : Memory} (a : Nat) (b : Byte) (h : m.wf = true) : (m.write a b).wf = true := by
  induction m with
  | nil => simp [Memory.write, Memory.wf]
  | cons c m ih =>
    have ⟨hc, hm⟩ := (Memory.wf_cons c m).1 h
    unfold Memory.write
    split
    · rename_i hlt
      refine (Memory.wf_cons _ _).2 ⟨fun e he => ?_, h⟩
      rcases List.mem_cons.1 he with rfl | he
      · exact hlt
      · exact Nat.lt_trans hlt (hc e he)
    · split
      · rename_i heq
        exact (Memory.wf_cons _ _).2 ⟨fun e he => by simpa [heq] using hc e he, hm⟩
      · rename_i hlt hne
        refine (Memory.wf_cons _ _).2 ⟨fun e he => ?_, ih hm⟩
        rcases Memory.mem_write he with h' | h'
        · omega
        · exact hc e h'

/-- The host's byte, where it lands, keeps the canonical form. -/
theorem State.landed_msg_wf {s : State} (h : s.msg.wf = true) : s.landed.msg.wf = true := by
  unfold State.landed State.hostWrite
  split
  · simpa using h
  · simpa using Memory.wf_write _ _ h

/-- At an instant the message memory changes at most where the host places a byte. -/
theorem State.landed_read {s : State} {a : Nat} (h : ∀ c : Host.Cell, s.ports.msgWrite = some c → c.1 ≠ a) :
    s.landed.msg.read a = s.msg.read a := by
  unfold State.landed State.hostWrite
  split
  · rfl
  · rename_i c hc
    simpa using Memory.read_write_other _ _ (Ne.symm (h c hc))

/-- The byte the host places lands. -/
theorem State.landed_read_written {s : State} {c : Host.Cell} (h : s.ports.msgWrite = some c) :
    s.landed.msg.read c.1 = some c.2 := by
  unfold State.landed
  rw [State.hostWrite_some h]
  exact Memory.read_write_same _ _ _

/-! ### Disturbed bytes -/

/-- A value between two bytes lies within any bounds that hold both. -/
theorem between_bounds {old new : Byte} (free : Byte) {low high : Nat} (h1 : low ≤ old.toNat) (h2 : old.toNat ≤ high)
    (h3 : low ≤ new.toNat) (h4 : new.toNat ≤ high) :
    low ≤ (between old new free).toNat ∧ (between old new free).toNat ≤ high := by
  have hr := Nat.mod_lt free.toNat
    (show 0 < max old.toNat new.toNat - min old.toNat new.toNat + 1 from Nat.succ_pos _)
  have ho := old.isLt
  have hn := new.isLt
  simp only [between, BitVec.toNat_ofNat]
  rw [Nat.mod_eq_of_lt (by omega)]
  omega

/-- A byte that is overwritten with itself does not change. -/
@[simp] theorem between_self (b free : Byte) : between b b free = b := by
  simp [between, Nat.mod_one]

/-- The record of disturbed bytes keeps its canonical form. -/
theorem State.disturb_disturbed_wf {s : State} (p : Ports) (h : s.disturbed.wf = true) :
    (s.disturb p).disturbed.wf = true := by
  unfold State.disturb State.disturbUnread
  repeat' split
  all_goals first | exact h | rfl | exact Memory.wf_write _ _ h

/-- PAD reads MSG where nothing is disturbed. -/
theorem State.messageByte_undisturbed {s : State} {a : Nat} (h : s.disturbed.read a = none) :
    s.messageByte a = s.msg.read a := by
  simp [State.messageByte, h]

/-- A message placed before the call and not changed since is what PAD reads. -/
theorem Memory.Holds.readsAs {s : State} {message : List Byte} (h : s.msg.Holds message) (hd : s.disturbed = []) :
    s.ReadsAs message := by
  intro j hj
  rw [State.messageByte_undisturbed (by simp [hd, Memory.read_nil])]
  exact h j hj

/-! ### Ranges of bytes -/

/-- Reading a range gives the bytes read one by one. -/
theorem readRange_ok {m : Nat → Option Byte} {a k : Nat} {bs : List Byte} (h : readRange m a k = .ok bs) :
    bs.length = k ∧ ∀ (j : Nat) (hj : j < bs.length), m (a + j) = some bs[j] := by
  induction k generalizing a bs with
  | zero =>
    simp [readRange] at h
    subst h
    simp
  | succ k ih =>
    unfold readRange at h
    split at h
    · cases h
    · rename_i b hb
      split at h
      · cases h
      · rename_i bs' hbs
        injection h with h
        subst h
        obtain ⟨hl, hr⟩ := ih hbs
        refine ⟨by simp [hl], fun j hj => ?_⟩
        cases j with
        | zero => simpa using hb
        | succ j =>
          have hj' : j < bs'.length := by simpa using hj
          simpa [Nat.add_assoc, Nat.add_comm 1] using hr j hj'

/-- A range whose bytes are all placed reads as those bytes. -/
theorem readRange_eq_ok {m : Nat → Option Byte} {a k : Nat} {bs : List Byte} (hl : bs.length = k)
    (h : ∀ (j : Nat) (hj : j < bs.length), m (a + j) = some bs[j]) : readRange m a k = .ok bs := by
  induction k generalizing a bs with
  | zero =>
    have : bs = [] := List.eq_nil_of_length_eq_zero hl
    simp [this, readRange]
  | succ k ih =>
    match bs, hl with
    | b :: bs, hl =>
      have h0 : m a = some b := h 0 (by simp)
      have ht : readRange m (a + 1) k = .ok bs := by
        refine ih (by simpa using hl) fun j hj => ?_
        have := h (j + 1) (by simpa using hj)
        simpa [Nat.add_assoc, Nat.add_comm 1] using this
      simp [readRange, h0, ht]

/-- A range with an index that is not backed stops at the lowest such index. -/
theorem readRange_eq_error {m : Nat → Option Byte} {a k e : Nat} (hae : a ≤ e) (hek : e < a + k) (he : m e = none)
    (hlow : ∀ b, a ≤ b → b < e → (m b).isSome = true) : readRange m a k = .error e := by
  induction k generalizing a with
  | zero => omega
  | succ k ih =>
    by_cases hEq : a = e
    · subst hEq
      simp [readRange, he]
    · obtain ⟨b, hb⟩ := Option.isSome_iff_exists.1 (hlow a (Nat.le_refl a) (by omega))
      have := ih (a := a + 1) (by omega) (by omega) fun b h1 h2 => hlow b (by omega) h2
      simp [readRange, hb, this]

/-- A message that PAD reads byte by byte is the range PAD reads. -/
theorem State.ReadsAs.readRange {s : State} {message : List Byte} (h : s.ReadsAs message) :
    readRange s.messageByte 0 message.length = .ok message :=
  readRange_eq_ok rfl fun j hj => by simpa using h j hj

theorem readsAs_of_readRange {s : State} {k : Nat} {message : List Byte}
    (h : readRange s.messageByte 0 k = .ok message) : s.ReadsAs message ∧ message.length = k := by
  obtain ⟨hl, hr⟩ := readRange_ok h
  exact ⟨fun j hj => by simpa using hr j hj, hl⟩

/-- A message the host has placed is the range read from MSG. -/
theorem Memory.Holds.readRange {m : Memory} {message : List Byte} (h : m.Holds message) :
    readRange m.read 0 message.length = .ok message :=
  readRange_eq_ok rfl fun j hj => by simpa using h j hj

/-- Why a range cannot be read: the lowest index of it that is not backed. -/
theorem readRange_error {m : Nat → Option Byte} {a k e : Nat} (h : Sys2Proof.Machine.readRange m a k = .error e) :
    a ≤ e ∧ e < a + k ∧ m e = none ∧ ∀ b, a ≤ b → b < e → (m b).isSome = true := by
  induction k generalizing a with
  | zero => cases h
  | succ k ih =>
    unfold Sys2Proof.Machine.readRange at h
    split at h
    · rename_i hn
      injection h with h
      subst h
      exact ⟨Nat.le_refl _, by omega, hn, fun b h1 h2 => absurd h2 (by omega)⟩
    · rename_i b0 hb
      split at h
      · rename_i e' he
        injection h with h
        subst h
        obtain ⟨h1, h2, h3, h4⟩ := ih he
        refine ⟨by omega, by omega, h3, fun b hb1 hb2 => ?_⟩
        by_cases hEq : b = a
        · rw [hEq, hb]
          rfl
        · exact h4 b (by omega) hb2
      · cases h

end Sys2Proof.Machine
end

