-- ==== Sys2Proof/Laws/Operands.lean ====
section
/-! SUPPORT. Blocks of a padded message, the padding's length, the schedule's prefix. -/

namespace Sys2Proof.Machine

/-- A block that lies inside PM can be read. -/
theorem blockAt_of_le {pm : List Byte} {i : Nat} (h : 64 * i + 64 ≤ pm.length) :
    blockAt pm i = some (Vector.ofFn fun j : Fin 64 => pm[64 * i + j.val]) :=
  dif_pos h

/-- A block that does not lie inside PM cannot. -/
theorem blockAt_eq_none {pm : List Byte} {i : Nat} : blockAt pm i = none ↔ pm.length < 64 * i + 64 := by
  unfold blockAt
  split
  · rename_i h
    simp only [reduceCtorEq, false_iff]
    omega
  · rename_i h
    simp only [true_iff]
    omega

theorem exists_blockAt {pm : List Byte} {i n : Nat} (hl : pm.length = 64 * n) (hi : i < n) :
    ∃ b, blockAt pm i = some b :=
  ⟨_, blockAt_of_le (by omega)⟩

/-- The zero fill is the least that brings message and terminator to 56 modulo 64. -/
theorem zeroFill_spec (len : Nat) : zeroFill len ≤ 63 ∧ (len + 1 + zeroFill len) % 64 = 56 := by
  unfold zeroFill
  omega

theorem length_bytesBe64 (v : BitVec 64) : (bytesBe64 v).length = 8 := rfl

/-- The padded message is N whole blocks. -/
theorem length_padMessage {message : List Byte} {len : Nat} (h : message.length = len) :
    (padMessage message len).length = 64 * blockCount len := by
  have := zeroFill_spec len
  simp only [padMessage, blockCount, List.length_append, List.length_replicate, length_bytesBe64, h, List.length_singleton]
  omega

/-- The first `16 + k` words of a schedule are that many. -/
theorem length_schedulePrefix (b : Block) (k : Nat) : (schedulePrefix b k).length = 16 + k := by
  induction k with
  | zero => simp [schedulePrefix]
  | succ k ih =>
    simp [schedulePrefix, ih]
    omega

/-- A longer prefix agrees with a shorter one. -/
theorem schedulePrefix_stable (b : Block) {k l t : Nat} (hkl : k ≤ l) (ht : t < 16 + k) :
    (schedulePrefix b l).getD t 0 = (schedulePrefix b k).getD t 0 := by
  induction l with
  | zero =>
    have : k = 0 := by omega
    rw [this]
  | succ l ih =>
    by_cases h : k = l + 1
    · rw [h]
    · have hl := length_schedulePrefix b l
      rw [← ih (by omega)]
      simp [schedulePrefix, List.getElem?_append_left (show t < (schedulePrefix b l).length by omega)]

end Sys2Proof.Machine
end

