-- ==== Sys2Proof/Laws/PerInstr.lean ====
section
/-! SUPPORT. A fact of every operation as syntax: its word lies in its row of spec/opcode_table.json. -/

namespace Sys2Proof.Laws.TableRow

/-- The operation's word has a legal code, and that code meets the row's mask and match. -/
def Statement (i : Instr) : Prop :=
  seqcLegal (encode i).seqc = true ∧ (encode i).seqc &&& tableMask i = tableMatch i

theorem hash (len : Nat) : Statement (.hash len) := ⟨by simp only [encode]; decide, by simp only [encode, tableMask, tableMatch]; decide⟩
theorem pad : Statement .pad := ⟨by decide, by decide⟩
theorem ldblk : Statement .ldblk := ⟨by decide, by decide⟩
theorem sched : Statement .sched := ⟨by decide, by decide⟩
theorem ldwr : Statement .ldwr := ⟨by decide, by decide⟩
theorem round : Statement .round := ⟨by decide, by decide⟩
theorem acc : Statement .acc := ⟨by decide, by decide⟩
theorem digest : Statement .digest := ⟨by decide, by decide⟩
theorem hex : Statement .hex := ⟨by decide, by decide⟩

end Sys2Proof.Laws.TableRow
end

