-- ==== Sys2Proof/Laws/Step.lean ====
section
/-! SUPPORT. The operation selected in each well-formed state, what each operation can do, and what a step can do. -/

namespace Sys2Proof.Machine

/-! ### The selected operation -/

theorem decode_start {s : State} (c : Option Nat) (hp : s.phase = .start) (hs : s.sub = 0) :
    decode { seqc := s.seqc, command := c } = decodeIdle c := by
  simp only [State.seqc, hp, hs, phaseCode]; rfl

theorem decode_digestReady {s : State} (c : Option Nat) (hp : s.phase = .digestReady) (hs : s.sub = 0) :
    decode { seqc := s.seqc, command := c } = decodeIdle c := by
  simp only [State.seqc, hp, hs, phaseCode]; rfl

theorem decode_padding {s : State} (c : Option Nat) (hp : s.phase = .padding) (hs : s.sub = 0) :
    decode { seqc := s.seqc, command := c } = .ok .pad := by
  simp only [State.seqc, hp, hs, phaseCode]; rfl

theorem decode_load {s : State} (c : Option Nat) (hp : s.phase = .blockLoop) (hs : s.sub = subLoad) :
    decode { seqc := s.seqc, command := c } = .ok .ldblk := by
  simp only [State.seqc, hp, hs, phaseCode]; rfl

theorem decode_sched {s : State} (c : Option Nat) (hp : s.phase = .blockLoop) (hs : s.sub = subSched) :
    decode { seqc := s.seqc, command := c } = .ok .sched := by
  simp only [State.seqc, hp, hs, phaseCode]; rfl

theorem decode_init {s : State} (c : Option Nat) (hp : s.phase = .blockLoop) (hs : s.sub = subInit) :
    decode { seqc := s.seqc, command := c } = .ok .ldwr := by
  simp only [State.seqc, hp, hs, phaseCode]; rfl

theorem decode_round {s : State} (c : Option Nat) (hp : s.phase = .blockLoop) (hs : s.sub = subRound) :
    decode { seqc := s.seqc, command := c } = .ok .round := by
  simp only [State.seqc, hp, hs, phaseCode]; rfl

theorem decode_acc {s : State} (c : Option Nat) (hp : s.phase = .blockLoop) (hs : s.sub = subAcc) :
    decode { seqc := s.seqc, command := c } = .ok .acc := by
  simp only [State.seqc, hp, hs, phaseCode]; rfl

theorem decode_raw {s : State} (c : Option Nat) (hp : s.phase = .finalize) (hs : s.sub = subRaw) :
    decode { seqc := s.seqc, command := c } = .ok .digest := by
  simp only [State.seqc, hp, hs, phaseCode]; rfl

theorem decode_text {s : State} (c : Option Nat) (hp : s.phase = .finalize) (hs : s.sub = subText) :
    decode { seqc := s.seqc, command := c } = .ok .hex := by
  simp only [State.seqc, hp, hs, phaseCode]; rfl

/-! ### Well-formed states, by phase -/

theorem wellFormed_start {s : State} (hp : s.phase = .start) :
    s.wellFormed = true ↔ s.sub = 0 ∧ s.dv = false := by
  simp [State.wellFormed, hp]

theorem wellFormed_padding {s : State} (hp : s.phase = .padding) :
    s.wellFormed = true ↔ s.sub = 0 ∧ s.dv = false ∧ s.fault = .none ∧ s.h = ivTable := by
  simp [State.wellFormed, hp, and_assoc]

/-- The five places of the block loop. -/
def State.LoopPlace (s : State) : Prop :=
  s.sub = subLoad ∨ (s.sub = subSched ∧ 16 ≤ s.t.val) ∨ s.sub = subInit ∨ s.sub = subRound ∨ s.sub = subAcc

theorem wellFormed_blockLoop {s : State} (hp : s.phase = .blockLoop) :
    s.wellFormed = true ↔
      s.dv = false ∧ s.fault = .none ∧ 1 ≤ s.n ∧ s.pm.length = 64 * s.n ∧ s.blk < s.n ∧ s.LoopPlace ∧
        ∃ b, blockAt s.pm s.blk = some b ∧ s.blockWritten b = true := by
  simp [State.wellFormed, State.inBlockLoop, State.LoopPlace, hp, and_assoc, or_assoc, Option.any_eq_true]

theorem wellFormed_finalize {s : State} (hp : s.phase = .finalize) :
    s.wellFormed = true ↔
      s.dv = false ∧ s.fault = .none ∧ (s.sub = subRaw ∨ (s.sub = subText ∧ s.d = digestBytes s.h)) := by
  simp [State.wellFormed, hp, and_assoc]

theorem wellFormed_digestReady {s : State} (hp : s.phase = .digestReady) :
    s.wellFormed = true ↔
      s.sub = 0 ∧ s.dv = true ∧ s.fault = .none ∧ s.d = digestBytes s.h ∧ s.x = digestText s.h := by
  simp [State.wellFormed, hp, and_assoc]

/-! ### What W and R hold, by SUB -/

theorem scheduleWritten_iff {b : Block} {w : Vector Word 64} {k : Nat} :
    scheduleWritten b w k = true ↔ ∀ j : Fin 64, j.val < k → w[j] = wordOf b w j := by
  simp [scheduleWritten]

@[simp] theorem blockWritten_load {s : State} {b : Block} (h : s.sub = subLoad) : s.blockWritten b = true := by
  simp [State.blockWritten, h, subSched, subInit, subRound, subAcc]

@[simp] theorem blockWritten_sched {s : State} {b : Block} (h : s.sub = subSched) :
    s.blockWritten b = scheduleWritten b s.w s.t.val := by
  simp [State.blockWritten, h]

@[simp] theorem blockWritten_init {s : State} {b : Block} (h : s.sub = subInit) :
    s.blockWritten b = scheduleWritten b s.w 64 := by
  simp [State.blockWritten, h, subSched, subInit]

@[simp] theorem blockWritten_round {s : State} {b : Block} (h : s.sub = subRound) :
    s.blockWritten b = (scheduleWritten b s.w 64 && s.r == compressRounds s.h s.w s.t.val) := by
  simp [State.blockWritten, h, subSched, subInit, subRound]

@[simp] theorem blockWritten_acc {s : State} {b : Block} (h : s.sub = subAcc) :
    s.blockWritten b = (scheduleWritten b s.w 64 && s.r == compress s.h s.w) := by
  simp [State.blockWritten, h, subSched, subInit, subRound, subAcc]

/-- The words of W that a word depends on lie below it. -/
theorem wordOf_congr {b : Block} {w w' : Vector Word 64} {j : Fin 64} (h : ∀ i : Fin 64, i.val < j.val → w[i] = w'[i]) :
    wordOf b w j = wordOf b w' j := by
  unfold wordOf
  split
  · rfl
  · rename_i hj
    have hl := j.isLt
    have e2 := h ⟨j.val - 2, by omega⟩ (by simp only; omega)
    have e7 := h ⟨j.val - 7, by omega⟩ (by simp only; omega)
    have e15 := h ⟨j.val - 15, by omega⟩ (by simp only; omega)
    have e16 := h ⟨j.val - 16, by omega⟩ (by simp only; omega)
    simp only [Fin.getElem_fin] at e2 e7 e15 e16
    simp only [schedWord, e2, e7, e15, e16]

/-- LDBLK writes the first sixteen words. -/
theorem scheduleWritten_loadBlock (b : Block) (w : Vector Word 64) : scheduleWritten b (loadBlock b w) 16 = true := by
  rw [scheduleWritten_iff]
  intro j hj
  simp [loadBlock, wordOf, hj]

/-- SCHED writes word T after the words below it. -/
theorem scheduleWritten_set {b : Block} {w : Vector Word 64} {t : Fin 64} (hlo : 16 ≤ t.val)
    (h : scheduleWritten b w t.val = true) :
    scheduleWritten b (w.set t.val (schedWord w t) t.isLt) (t.val + 1) = true := by
  rw [scheduleWritten_iff] at h ⊢
  have below (i : Fin 64) (hi : i.val < t.val) : (w.set t.val (schedWord w t) t.isLt)[i] = w[i] := by
    simp [Nat.ne_of_gt hi]
  intro j hj
  by_cases hEq : j = t
  · subst hEq
    rw [wordOf_congr below]
    simp [wordOf, Nat.not_lt.2 hlo]
  · have hlt : j.val < t.val := by
      have := Fin.val_ne_of_ne hEq
      omega
    rw [below j hlt, h j hlt]
    exact (wordOf_congr fun i hi => below i (by omega)).symm

theorem compressRounds_succ (h : Vector Word 8) (w : Vector Word 64) (t : Fin 64) :
    compressRounds h w (t.val + 1) = roundStep (compressRounds h w t.val) kTable[t] w[t] := by
  simp [compressRounds, t.isLt]

/-- Where a well-formed state stands: idle, or at exactly one of the eight sequencer-selected operations. -/
theorem wellFormed_selects {s : State} (c : Option Nat) (h : s.wellFormed = true) :
    (s.busy = false ∧ s.sub = 0 ∧ (s.phase = .start ∨ s.phase = .digestReady) ∧
      decode { seqc := s.seqc, command := c } = decodeIdle c) ∨
    (s.busy = true ∧ s.phase = .padding ∧ s.sub = 0 ∧
      decode { seqc := s.seqc, command := c } = .ok .pad) ∨
    (s.busy = true ∧ s.phase = .blockLoop ∧ s.sub = subLoad ∧
      decode { seqc := s.seqc, command := c } = .ok .ldblk) ∨
    (s.busy = true ∧ s.phase = .blockLoop ∧ s.sub = subSched ∧ 16 ≤ s.t.val ∧
      decode { seqc := s.seqc, command := c } = .ok .sched) ∨
    (s.busy = true ∧ s.phase = .blockLoop ∧ s.sub = subInit ∧
      decode { seqc := s.seqc, command := c } = .ok .ldwr) ∨
    (s.busy = true ∧ s.phase = .blockLoop ∧ s.sub = subRound ∧
      decode { seqc := s.seqc, command := c } = .ok .round) ∨
    (s.busy = true ∧ s.phase = .blockLoop ∧ s.sub = subAcc ∧
      decode { seqc := s.seqc, command := c } = .ok .acc) ∨
    (s.busy = true ∧ s.phase = .finalize ∧ s.sub = subRaw ∧
      decode { seqc := s.seqc, command := c } = .ok .digest) ∨
    (s.busy = true ∧ s.phase = .finalize ∧ s.sub = subText ∧
      decode { seqc := s.seqc, command := c } = .ok .hex) := by
  cases hp : s.phase with
  | start =>
    have := (wellFormed_start hp).1 h
    simp [State.busy, hp, this, decode_start c hp this.1]
  | padding =>
    have := (wellFormed_padding hp).1 h
    simp [State.busy, hp, this, decode_padding c hp this.1]
  | blockLoop =>
    obtain ⟨-, -, -, -, -, hs, -⟩ := (wellFormed_blockLoop hp).1 h
    rcases hs with hs | ⟨hs, ht⟩ | hs | hs | hs
    · simp [State.busy, hp, decode_load c hp hs]; simp [hs]
    · simp [State.busy, hp, decode_sched c hp hs]; simp [hs, ht]
    · simp [State.busy, hp, decode_init c hp hs]; simp [hs]
    · simp [State.busy, hp, decode_round c hp hs]; simp [hs]
    · simp [State.busy, hp, decode_acc c hp hs]; simp [hs]
  | finalize =>
    obtain ⟨-, -, hs | ⟨hs, -⟩⟩ := (wellFormed_finalize hp).1 h
    · simp [State.busy, hp, decode_raw c hp hs]; simp [hs]
    · simp [State.busy, hp, decode_text c hp hs]; simp [hs]
  | digestReady =>
    have := (wellFormed_digestReady hp).1 h
    simp [State.busy, hp, this, decode_digestReady c hp this.1]

/-! ### What each operation can do -/

theorem execHash_idle {s : State} (len : Nat) (h : s.busy = false) :
    exec (.hash len) s =
      .next { s with len := len, fault := .none, dv := false, h := ivTable, phase := .padding, sub := 0 } := by
  simp [exec, execHash, h, State.clearFault, State.setSeq]

theorem execHash_busy {s : State} (len : Nat) (h : s.busy = true) : exec (.hash len) s = .next s := by
  simp [exec, execHash, h]

theorem execPad_tooLarge {s : State} (h : 2 ^ 64 ≤ 8 * s.len) : exec .pad s = .next (s.raise .inputTooLarge) := by
  show execPad s = _
  rw [execPad, if_pos h]

theorem execPad_ok {s : State} {message : List Byte} (h : ¬ 2 ^ 64 ≤ 8 * s.len) (hm : readRange s.messageByte 0 s.len = .ok message) :
    exec .pad s =
      .next { s with
        pm := padMessage message s.len, n := blockCount s.len, blk := 0, phase := .blockLoop, sub := subLoad } := by
  show execPad s = _
  rw [execPad, if_neg h, hm]
  rfl

theorem execPad_absent {s : State} {a : Nat} (h : ¬ 2 ^ 64 ≤ 8 * s.len) (hm : readRange s.messageByte 0 s.len = .error a) :
    exec .pad s = .fault (.messageByteAbsent a) := by
  show execPad s = _
  rw [execPad, if_neg h, hm]

theorem execLdblk_ok {s : State} {b : Block} (h : blockAt s.pm s.blk = some b) :
    exec .ldblk s = .next { s with w := loadBlock b s.w, phase := .blockLoop, sub := subSched, t := 16 } := by
  simp [exec, execLdblk, h, State.setSeq]

theorem execLdblk_out {s : State} (h : blockAt s.pm s.blk = none) : exec .ldblk s = .next s.failFast := by
  simp [exec, execLdblk, h]

theorem execSched_more {s : State} (hlo : 16 ≤ s.t.val) (hhi : s.t.val < 63) :
    exec .sched s =
      .next { s with
        w := s.w.set s.t.val (schedWord s.w s.t) s.t.isLt, phase := .blockLoop, sub := subSched,
        t := ⟨s.t.val + 1, by omega⟩ } := by
  simp [exec, execSched, hlo, hhi, State.setSeq]

theorem execSched_last {s : State} (h : s.t.val = 63) :
    exec .sched s =
      .next { s with w := s.w.set s.t.val (schedWord s.w s.t) s.t.isLt, phase := .blockLoop, sub := subInit } := by
  have hlo : 16 ≤ s.t.val := by omega
  have hhi : ¬ s.t.val < 63 := by omega
  simp [exec, execSched, hlo, hhi, State.setSeq]

theorem execSched_out {s : State} (h : ¬ 16 ≤ s.t.val) : exec .sched s = .next s.failFast := by
  simp [exec, execSched, h]

theorem execLdwr_eq (s : State) :
    exec .ldwr s = .next { s with r := s.h, phase := .blockLoop, sub := subRound, t := 0 } := rfl

theorem execRound_more {s : State} (h : s.t.val < 63) :
    exec .round s =
      .next { s with
        r := roundStep s.r kTable[s.t] s.w[s.t], phase := .blockLoop, sub := subRound,
        t := ⟨s.t.val + 1, by omega⟩ } := by
  simp [exec, execRound, h, State.setSeq]

theorem execRound_last {s : State} (h : s.t.val = 63) :
    exec .round s =
      .next { s with r := roundStep s.r kTable[s.t] s.w[s.t], phase := .blockLoop, sub := subAcc } := by
  have hhi : ¬ s.t.val < 63 := by omega
  simp [exec, execRound, hhi, State.setSeq]

theorem execAcc_more {s : State} (h : s.blk + 1 < s.n) :
    exec .acc s =
      .next { s with h := foldRegs s.h s.r, phase := .blockLoop, sub := subLoad, blk := s.blk + 1 } := by
  simp [exec, execAcc, h, State.setSeq]

theorem execAcc_last {s : State} (h : ¬ s.blk + 1 < s.n) :
    exec .acc s = .next { s with h := foldRegs s.h s.r, phase := .finalize, sub := subRaw } := by
  simp [exec, execAcc, h, State.setSeq]

theorem execDigest_eq (s : State) :
    exec .digest s = .next { s with d := digestBytes s.h, phase := .finalize, sub := subText } := rfl

theorem execHex_eq (s : State) :
    exec .hex s = .next { s with x := digestText s.h, dv := true, phase := .digestReady, sub := 0 } := rfl

/-- Everything an operation selected in a well-formed state can do, with the state it leaves (`c` is the command the ports show). -/
inductive Performs (c : Option Nat) (s : State) : Instr → State → Prop where
  | hash (len : Nat) (hc : c = some len) (hp : s.phase = .start ∨ s.phase = .digestReady) (hb : s.busy = false) :
    Performs c s (.hash len)
      { s with len := len, fault := .none, dv := false, h := ivTable, phase := .padding, sub := 0 }
  | padTooLong (hp : s.phase = .padding) (hs : s.sub = 0) (hl : 2 ^ 64 ≤ 8 * s.len) :
    Performs c s .pad (s.raise .inputTooLarge)
  | pad (message : List Byte) (hp : s.phase = .padding) (hs : s.sub = 0) (hl : 8 * s.len < 2 ^ 64)
      (hm : s.ReadsAs message) (hlen : message.length = s.len) :
    Performs c s .pad
      { s with pm := padMessage message s.len, n := blockCount s.len, blk := 0, phase := .blockLoop, sub := subLoad }
  | ldblk (b : Block) (hp : s.phase = .blockLoop) (hs : s.sub = subLoad) (hb : blockAt s.pm s.blk = some b) :
    Performs c s .ldblk { s with w := loadBlock b s.w, phase := .blockLoop, sub := subSched, t := 16 }
  | schedMore (hp : s.phase = .blockLoop) (hs : s.sub = subSched) (hlo : 16 ≤ s.t.val) (hhi : s.t.val < 63) :
    Performs c s .sched
      { s with
        w := s.w.set s.t.val (schedWord s.w s.t) s.t.isLt, phase := .blockLoop, sub := subSched,
        t := ⟨s.t.val + 1, Nat.succ_lt_succ hhi⟩ }
  | schedLast (hp : s.phase = .blockLoop) (hs : s.sub = subSched) (ht : s.t.val = 63) :
    Performs c s .sched
      { s with w := s.w.set s.t.val (schedWord s.w s.t) s.t.isLt, phase := .blockLoop, sub := subInit }
  | ldwr (hp : s.phase = .blockLoop) (hs : s.sub = subInit) :
    Performs c s .ldwr { s with r := s.h, phase := .blockLoop, sub := subRound, t := 0 }
  | roundMore (hp : s.phase = .blockLoop) (hs : s.sub = subRound) (hhi : s.t.val < 63) :
    Performs c s .round
      { s with
        r := roundStep s.r kTable[s.t] s.w[s.t], phase := .blockLoop, sub := subRound,
        t := ⟨s.t.val + 1, Nat.succ_lt_succ hhi⟩ }
  | roundLast (hp : s.phase = .blockLoop) (hs : s.sub = subRound) (ht : s.t.val = 63) :
    Performs c s .round
      { s with r := roundStep s.r kTable[s.t] s.w[s.t], phase := .blockLoop, sub := subAcc }
  | accMore (hp : s.phase = .blockLoop) (hs : s.sub = subAcc) (hn : s.blk + 1 < s.n) :
    Performs c s .acc { s with h := foldRegs s.h s.r, phase := .blockLoop, sub := subLoad, blk := s.blk + 1 }
  | accLast (hp : s.phase = .blockLoop) (hs : s.sub = subAcc) (hn : s.blk + 1 = s.n) :
    Performs c s .acc { s with h := foldRegs s.h s.r, phase := .finalize, sub := subRaw }
  | digest (hp : s.phase = .finalize) (hs : s.sub = subRaw) :
    Performs c s .digest { s with d := digestBytes s.h, phase := .finalize, sub := subText }
  | hex (hp : s.phase = .finalize) (hs : s.sub = subText) :
    Performs c s .hex { s with x := digestText s.h, dv := true, phase := .digestReady, sub := 0 }

/-- An operation selected in a well-formed state that answers a next state performs one of the cases. -/
theorem performs_of_exec {s s' : State} {i : Instr} {c : Option Nat} (hw : s.wellFormed = true)
    (hd : decode { seqc := s.seqc, command := c } = .ok i) (he : exec i s = .next s') : Performs c s i s' := by
  rcases wellFormed_selects c hw with ⟨hb, hs, hp, h⟩ | ⟨hb, hp, hs, h⟩ | ⟨hb, hp, hs, h⟩ | ⟨hb, hp, hs, ht, h⟩ |
    ⟨hb, hp, hs, h⟩ | ⟨hb, hp, hs, h⟩ | ⟨hb, hp, hs, h⟩ | ⟨hb, hp, hs, h⟩ | ⟨hb, hp, hs, h⟩
  · rw [h] at hd
    cases c with
    | none => cases hd
    | some len =>
      injection hd with hd
      subst hd
      rw [execHash_idle len hb] at he
      injection he with he
      exact he ▸ .hash len rfl hp hb
  all_goals
    rw [h] at hd
    injection hd with hd
    subst hd
  · by_cases hl : 2 ^ 64 ≤ 8 * s.len
    · rw [execPad_tooLarge hl] at he
      injection he with he
      exact he ▸ .padTooLong hp hs hl
    · cases hr : readRange s.messageByte 0 s.len with
      | error a =>
        rw [execPad_absent hl hr] at he
        cases he
      | ok message =>
        rw [execPad_ok hl hr] at he
        injection he with he
        obtain ⟨hm, hlen⟩ := readsAs_of_readRange hr
        exact he ▸ .pad message hp hs (Nat.lt_of_not_le hl) hm hlen
  · obtain ⟨-, -, -, h4, h5, -, -⟩ := (wellFormed_blockLoop hp).1 hw
    cases hblk : blockAt s.pm s.blk with
    | none =>
      have : ¬ 64 * s.blk + 64 ≤ s.pm.length := fun hin => by simp [blockAt, hin] at hblk
      omega
    | some b =>
      rw [execLdblk_ok hblk] at he
      injection he with he
      exact he ▸ .ldblk b hp hs hblk
  · by_cases hl : s.t.val < 63
    · rw [execSched_more ht hl] at he
      injection he with he
      exact he ▸ .schedMore hp hs ht hl
    · have hl : s.t.val = 63 := by omega
      rw [execSched_last hl] at he
      injection he with he
      exact he ▸ .schedLast hp hs hl
  · rw [execLdwr_eq] at he
    injection he with he
    exact he ▸ .ldwr hp hs
  · by_cases hl : s.t.val < 63
    · rw [execRound_more hl] at he
      injection he with he
      exact he ▸ .roundMore hp hs hl
    · have hl : s.t.val = 63 := by omega
      rw [execRound_last hl] at he
      injection he with he
      exact he ▸ .roundLast hp hs hl
  · obtain ⟨-, -, -, -, h5, -⟩ := (wellFormed_blockLoop hp).1 hw
    by_cases hl : s.blk + 1 < s.n
    · rw [execAcc_more hl] at he
      injection he with he
      exact he ▸ .accMore hp hs hl
    · rw [execAcc_last hl] at he
      injection he with he
      exact he ▸ .accLast hp hs (by omega)
  · rw [execDigest_eq] at he
    injection he with he
    exact he ▸ .digest hp hs
  · rw [execHex_eq] at he
    injection he with he
    exact he ▸ .hex hp hs

/-- Every operation leaves a well-formed state well-formed. -/
theorem Performs.wellFormed {s s' : State} {i : Instr} {c : Option Nat} (h : Performs c s i s') (hw : s.wellFormed = true) :
    s'.wellFormed = true := by
  cases h with
  | hash => simp [State.wellFormed]
  | padTooLong hp => simp [State.wellFormed, (wellFormed_padding hp).1 hw]
  | pad message hp hs hl hm hlen =>
    obtain ⟨-, h2, h3, -⟩ := (wellFormed_padding hp).1 hw
    have hl := length_padMessage hlen
    have hn : 1 ≤ blockCount s.len := Nat.succ_pos _
    obtain ⟨b, hb⟩ := exists_blockAt hl hn
    exact (wellFormed_blockLoop rfl).2 ⟨h2, h3, hn, hl, hn, .inl rfl, b, hb, blockWritten_load rfl⟩
  | digest hp hs =>
    obtain ⟨h1, h2, -⟩ := (wellFormed_finalize hp).1 hw
    exact (wellFormed_finalize rfl).2 ⟨h1, h2, .inr ⟨rfl, rfl⟩⟩
  | hex hp hs =>
    obtain ⟨-, h2, h3 | ⟨-, h3⟩⟩ := (wellFormed_finalize hp).1 hw
    · rw [hs] at h3
      cases h3
    · exact (wellFormed_digestReady rfl).2 ⟨rfl, rfl, h2, h3, rfl⟩
  | ldblk b hp hs hb =>
    obtain ⟨h1, h2, h3, h4, h5, -, -⟩ := (wellFormed_blockLoop hp).1 hw
    refine (wellFormed_blockLoop rfl).2 ⟨h1, h2, h3, h4, h5, .inr (.inl ⟨rfl, Nat.le_refl _⟩), b, hb, ?_⟩
    rw [blockWritten_sched rfl]
    exact scheduleWritten_loadBlock b s.w
  | schedMore hp hs hlo hhi =>
    obtain ⟨h1, h2, h3, h4, h5, -, b, hb, hk⟩ := (wellFormed_blockLoop hp).1 hw
    rw [blockWritten_sched hs] at hk
    refine (wellFormed_blockLoop rfl).2 ⟨h1, h2, h3, h4, h5, .inr (.inl ⟨rfl, Nat.le_succ_of_le hlo⟩), b, hb, ?_⟩
    rw [blockWritten_sched rfl]
    exact scheduleWritten_set hlo hk
  | schedLast hp hs ht =>
    obtain ⟨h1, h2, h3, h4, h5, -, b, hb, hk⟩ := (wellFormed_blockLoop hp).1 hw
    rw [blockWritten_sched hs] at hk
    refine (wellFormed_blockLoop rfl).2 ⟨h1, h2, h3, h4, h5, .inr (.inr (.inl rfl)), b, hb, ?_⟩
    rw [blockWritten_init rfl]
    simpa [ht] using scheduleWritten_set (ht ▸ by decide) hk
  | ldwr hp hs =>
    obtain ⟨h1, h2, h3, h4, h5, -, b, hb, hk⟩ := (wellFormed_blockLoop hp).1 hw
    rw [blockWritten_init hs] at hk
    refine (wellFormed_blockLoop rfl).2 ⟨h1, h2, h3, h4, h5, .inr (.inr (.inr (.inl rfl))), b, hb, ?_⟩
    rw [blockWritten_round rfl]
    simp [hk, compressRounds]
  | roundMore hp hs hhi =>
    obtain ⟨h1, h2, h3, h4, h5, -, b, hb, hk⟩ := (wellFormed_blockLoop hp).1 hw
    simp only [blockWritten_round hs, Bool.and_eq_true, beq_iff_eq] at hk
    refine (wellFormed_blockLoop rfl).2 ⟨h1, h2, h3, h4, h5, .inr (.inr (.inr (.inl rfl))), b, hb, ?_⟩
    rw [blockWritten_round rfl]
    simp only [hk.1, compressRounds_succ, ← hk.2, beq_self_eq_true, Bool.and_self]
  | roundLast hp hs ht =>
    obtain ⟨h1, h2, h3, h4, h5, -, b, hb, hk⟩ := (wellFormed_blockLoop hp).1 hw
    simp only [blockWritten_round hs, Bool.and_eq_true, beq_iff_eq] at hk
    refine (wellFormed_blockLoop rfl).2 ⟨h1, h2, h3, h4, h5, .inr (.inr (.inr (.inr rfl))), b, hb, ?_⟩
    have hc : compress s.h s.w = roundStep s.r kTable[s.t] s.w[s.t] := by
      rw [hk.2, ← compressRounds_succ]
      exact congrArg (compressRounds s.h s.w) (by omega)
    rw [blockWritten_acc rfl]
    simp only [hk.1, hc, beq_self_eq_true, Bool.and_self]
  | accMore hp hs hn =>
    obtain ⟨h1, h2, h3, h4, h5, -, -⟩ := (wellFormed_blockLoop hp).1 hw
    obtain ⟨b, hb⟩ := exists_blockAt h4 hn
    exact (wellFormed_blockLoop rfl).2 ⟨h1, h2, h3, h4, hn, .inl rfl, b, hb, blockWritten_load rfl⟩
  | accLast hp hs hn =>
    obtain ⟨h1, h2, -⟩ := (wellFormed_blockLoop hp).1 hw
    exact (wellFormed_finalize rfl).2 ⟨h1, h2, .inl rfl⟩

/-! ### What the ports leave alone -/

@[simp] theorem State.afterPorts_seqc (s : State) : s.afterPorts.seqc = s.seqc := by simp [State.seqc]

@[simp] theorem State.afterPorts_busy (s : State) : s.afterPorts.busy = s.busy := by simp [State.busy]

/-- What a host write disturbs, it leaves the state well-formed. -/
theorem State.afterPorts_wellFormed {s : State} (hw : s.wellFormed = true) : s.afterPorts.wellFormed = true := by
  cases hp : s.phase with
  | start => exact (wellFormed_start (by simpa using hp)).2 (by simpa using (wellFormed_start hp).1 hw)
  | padding => exact (wellFormed_padding (by simpa using hp)).2 (by simpa using (wellFormed_padding hp).1 hw)
  | finalize => exact (wellFormed_finalize (by simpa using hp)).2 (by simpa using (wellFormed_finalize hp).1 hw)
  | digestReady =>
    exact (wellFormed_digestReady (by simpa using hp)).2 (by simpa using (wellFormed_digestReady hp).1 hw)
  | blockLoop =>
    refine (wellFormed_blockLoop (by simpa using hp)).2 ?_
    simpa [State.LoopPlace, State.blockWritten] using (wellFormed_blockLoop hp).1 hw

/-! ### What a step can do -/

theorem step_reset {s : State} (h : s.ports.reset = true) : step s = .next s.landed.resetEvent := by
  simp [step, instant, h]

theorem step_illFormed {s : State} (hr : s.ports.reset = false) (hw : s.wellFormed = false) :
    step s = .next s.landed.failFast := by
  simp [step, instant, hr, hw]

theorem step_idle {s : State} (hr : s.ports.reset = false) (hw : s.wellFormed = true)
    (hd : decode s.opWord = .error .noCommand) : step s = .next s.afterPorts := by
  simp [step, instant, hr, hw, hd]

theorem step_exec {s : State} {i : Instr} (hr : s.ports.reset = false) (hw : s.wellFormed = true)
    (hd : decode s.opWord = .ok i) : step s = exec i s.afterPorts := by
  simp [step, instant, hr, hw, hd]

/-- A well-formed state selects an operation or is idle. -/
theorem decode_wellFormed {s : State} (hw : s.wellFormed = true) :
    (∃ i, decode s.opWord = .ok i) ∨ decode s.opWord = .error .noCommand := by
  have hsel := wellFormed_selects s.ports.start hw
  change _ ∨ decode { seqc := s.seqc, command := s.ports.start } = _
  rcases hsel with ⟨-, -, -, h⟩ | ⟨-, -, -, h⟩ | ⟨-, -, -, h⟩ | ⟨-, -, -, -, h⟩ | ⟨-, -, -, h⟩ | ⟨-, -, -, h⟩ |
    ⟨-, -, -, h⟩ | ⟨-, -, -, h⟩ | ⟨-, -, -, h⟩
  · cases hst : s.ports.start with
    | none => exact .inr (by rw [hst] at h; exact h)
    | some len => exact .inl ⟨.hash len, by rw [hst] at h; rw [State.opWord, hst]; exact h⟩
  all_goals exact .inl ⟨_, h⟩

/-- Everything a step that answers a next state can have done: taken a RESET, failed fast from an ill-formed state, stayed idle, or
performed the selected operation. -/
theorem step_cases {s s' : State} (h : step s = .next s') :
    (s.ports.reset = true ∧ s' = s.landed.resetEvent) ∨
    (s.ports.reset = false ∧ s.wellFormed = false ∧ s' = s.landed.failFast) ∨
    (s.ports.reset = false ∧ s.wellFormed = true ∧ decode s.opWord = .error .noCommand ∧ s' = s.afterPorts) ∨
    (s.ports.reset = false ∧ s.wellFormed = true ∧
      ∃ i, decode s.opWord = .ok i ∧ exec i s.afterPorts = .next s') := by
  cases hr : s.ports.reset with
  | true =>
    rw [step_reset hr] at h
    injection h with h
    exact .inl ⟨rfl, h.symm⟩
  | false =>
    cases hw : s.wellFormed with
    | false =>
      rw [step_illFormed hr hw] at h
      injection h with h
      exact .inr (.inl ⟨rfl, rfl, h.symm⟩)
    | true =>
      rcases decode_wellFormed hw with ⟨i, hd⟩ | hd
      · rw [step_exec hr hw hd] at h
        exact .inr (.inr (.inr ⟨rfl, rfl, i, hd, h⟩))
      · rw [step_idle hr hw hd] at h
        injection h with h
        exact .inr (.inr (.inl ⟨rfl, rfl, hd, h.symm⟩))

/-- A step of a well-formed machine that is neither reset nor idle performs one of the cases on the state behind the ports. -/
theorem step_performs {s s' : State} {i : Instr} (hw : s.wellFormed = true) (hd : decode s.opWord = .ok i)
    (he : exec i s.afterPorts = .next s') : Performs s.ports.start s.afterPorts i s' :=
  performs_of_exec (State.afterPorts_wellFormed hw) (by simpa [State.opWord] using hd) he

end Sys2Proof.Machine
end

