-- ==== Sys2Proof/Laws/Run.lean ====
section
/-! SUPPORT. Runs of several steps, and instants at which the host keeps its duties. -/

namespace Sys2Proof.Machine

@[simp] theorem runSteps_zero (s : State) : runSteps 0 s = .next s := rfl

theorem runSteps_succ {s s' : State} {k : Nat} (h : step s = .next s') : runSteps (k + 1) s = runSteps k s' := by
  simp [runSteps, h]

/-- A run of `k + l` steps is a run of `l` steps from where the run of `k` ended. -/
theorem runSteps_add {s s' : State} {k l : Nat} (h : runSteps k s = .next s') : runSteps (k + l) s = runSteps l s' := by
  induction k generalizing s with
  | zero =>
    simp only [runSteps_zero, Host.Outcome.next.injEq] at h
    simp [h]
  | succ k ih =>
    cases hs : step s with
    | next t =>
      rw [Nat.succ_add, runSteps_succ hs]
      exact ih (by rw [← runSteps_succ hs, h])
    | fault r => simp [runSteps, hs] at h
    | refused r => simp [runSteps, hs] at h

theorem State.ports_eq_default {s : State} (h : s.inputs = []) : s.ports = {} := by
  simp [State.ports, h]

theorem State.ports_mem {s : State} {p : Ports} {rest : List Ports} (h : s.inputs = p :: rest) : s.ports = p := by
  simp [State.ports, h]

/-- An instant at which the host presents nothing keeps every duty. -/
theorem quiet_default (len : Nat) : Quiet len {} := ⟨rfl, fun _ h => by cases h⟩

/-- If the host keeps its duties at the first `k + 1` instants, it does at the next one and at the `k` after it. -/
theorem quiet_take_succ {s : State} {k len : Nat} (h : ∀ p, p ∈ s.inputs.take (k + 1) → Quiet len p) :
    Quiet len s.ports ∧ ∀ p, p ∈ s.inputs.tail.take k → Quiet len p := by
  cases hi : s.inputs with
  | nil => exact ⟨State.ports_eq_default hi ▸ quiet_default len, by simp⟩
  | cons q rest =>
    rw [hi] at h
    refine ⟨State.ports_mem hi ▸ h q (by simp), fun p hp => h p ?_⟩
    simp only [List.take_succ_cons, List.mem_cons]
    exact .inr hp

/-- At an instant at which the host keeps its duties to the running call, nothing is disturbed. -/
theorem afterPorts_of_quiet {s : State} (hb : s.busy = true) (hq : Quiet s.len s.ports) : s.afterPorts = s.landed := by
  rw [State.afterPorts, State.disturb_outside hb hq.2, State.landed]

/-- The step of a busy, well-formed machine at such an instant is its selected operation. -/
theorem step_quiet {s : State} {i : Instr} (hw : s.wellFormed = true) (hb : s.busy = true) (hq : Quiet s.len s.ports)
    (hd : decode s.opWord = .ok i) : step s = exec i s.landed := by
  rw [step_exec hq.1 hw hd, afterPorts_of_quiet hb hq]

/-- A message stays in MSG at an instant at which the host does not write it. -/
theorem Memory.Holds.landed {s : State} {message : List Byte} (h : s.msg.Holds message)
    (hq : Quiet message.length s.ports) : s.landed.msg.Holds message := by
  intro j hj
  rw [State.landed_read, h j hj]
  intro c hc hcj
  have := hq.2 c hc
  omega

/-- What PAD will read stays so at an instant at which the host does not write it. -/
theorem State.ReadsAs.landed {s : State} {message : List Byte} (h : s.ReadsAs message)
    (hq : Quiet message.length s.ports) : s.landed.ReadsAs message := by
  intro j hj
  have hread : s.landed.msg.read j = s.msg.read j := by
    refine State.landed_read fun c hc hcj => ?_
    have := hq.2 c hc
    omega
  simpa [State.messageByte, hread] using h j hj

/-- At the instant at which a command is accepted the record of disturbed bytes begins anew. -/
theorem disturbed_of_accepted {s : State} {len : Nat} (hb : s.busy = false) (hc : s.ports.start = some len)
    (hq : Quiet len s.ports) : s.afterPorts.disturbed = [] := by
  rw [State.afterPorts_disturbed]
  unfold State.busy at hb
  unfold State.disturb
  cases hm : s.ports.msgWrite with
  | none => cases h : s.phase <;> simp_all
  | some c =>
    have := hq.2 c hm
    cases h : s.phase <;> simp_all [State.disturbUnread_outside]

end Sys2Proof.Machine
end

