-- ==== Sys2Proof/Laws/Words.lean ====
section
/-! SUPPORT. The word primitives bit by bit. -/

namespace Sys2Proof.Machine

/-- Bit `i` of a right rotation by `n` is bit `(i + n) mod 32`. -/
theorem rotr_getLsbD (x : Word) (n i : Nat) (h : 0 < n ∧ n < 32) (hi : i < 32) :
    (rotr x n h).getLsbD i = x.getLsbD ((i + n) % 32) := by
  unfold rotr
  simp only [BitVec.getLsbD_or, BitVec.getLsbD_ushiftRight, BitVec.getLsbD_shiftLeft]
  by_cases hn : i + n < 32
  · rw [Nat.mod_eq_of_lt hn]
    have : i < 32 - n := by omega
    simp [this, Nat.add_comm]
  · have h1 : (i + n) % 32 = i - (32 - n) := by omega
    have h2 : ¬ i < 32 - n := by omega
    rw [h1]
    have h3 : x.getLsbD (n + i) = false := BitVec.getLsbD_of_ge _ _ (by omega)
    simp [h2, hi, h3]

/-- Bit `i` of a right shift by `n` is bit `i + n`, and 0 where that is past the top. -/
theorem shr_getLsbD (x : Word) (n i : Nat) (h : n < 32) :
    (shr x n h).getLsbD i = (decide (i + n < 32) && x.getLsbD (i + n)) := by
  unfold shr
  rw [BitVec.getLsbD_ushiftRight, Nat.add_comm]
  by_cases hn : i + n < 32
  · simp [hn]
  · simp [hn, BitVec.getLsbD_of_ge x (i + n) (by omega)]

/-- The complement flips every bit. -/
theorem not32_eq_not (x : Word) : not32 x = ~~~x :=
  BitVec.xor_allOnes

theorem rotr_xor (x y : Word) (n : Nat) (h : 0 < n ∧ n < 32) : rotr (x ^^^ y) n h = rotr x n h ^^^ rotr y n h := by
  apply BitVec.eq_of_getLsbD_eq
  intro i hi
  simp only [BitVec.getLsbD_xor, rotr_getLsbD _ _ _ _ hi]

theorem shr_xor (x y : Word) (n : Nat) (h : n < 32) : shr (x ^^^ y) n h = shr x n h ^^^ shr y n h := by
  apply BitVec.eq_of_getLsbD_eq
  intro i hi
  simp only [BitVec.getLsbD_xor, shr_getLsbD, Bool.and_xor_distrib_left]

end Sys2Proof.Machine
end

