-- ==== Sys2Proof/Tests/Slice0.lean ====
section
/-! SUPPORT. Tests with values of the spec, and a state that meets the hypotheses of each statement. -/

namespace Sys2Proof.Tests

open Sys2Proof.Machine

/-! ### Words of the operation map (30_encoding.md R80, R81) -/

theorem test_reservedCode_illFormed : ({ seqc := 0b010101#6, command := none } : OpWord).wellFormed = false := by decide
theorem test_reservedPhase_illFormed : ({ seqc := 0b101000#6, command := some 3 } : OpWord).wellFormed = false := by decide
theorem test_reservedSubOfStart_illFormed : ({ seqc := 0b000001#6, command := some 3 } : OpWord).wellFormed = false := by
  decide
theorem test_idleWithoutCommand_illFormed : ({ seqc := 0b000000#6, command := none } : OpWord).wellFormed = false := by
  decide
theorem test_readyWithoutCommand_illFormed : ({ seqc := 0b100000#6, command := none } : OpWord).wellFormed = false := by
  decide
theorem test_hash_wellFormed : (Instr.hash (2 ^ 70)).wellFormed = true := by decide

theorem test_decode_hash : decode { seqc := 0b000000#6, command := some 3 } = .ok (.hash 3) := by decide
theorem test_decode_hashAtReady : decode { seqc := 0b100000#6, command := some 0 } = .ok (.hash 0) := by decide
theorem test_decode_pad : decode { seqc := 0b001000#6, command := none } = .ok .pad := by decide
theorem test_decode_ldblk : decode { seqc := 0b010000#6, command := none } = .ok .ldblk := by decide
theorem test_decode_sched : decode { seqc := 0b010001#6, command := none } = .ok .sched := by decide
theorem test_decode_ldwr : decode { seqc := 0b010010#6, command := none } = .ok .ldwr := by decide
theorem test_decode_round : decode { seqc := 0b010011#6, command := none } = .ok .round := by decide
theorem test_decode_acc : decode { seqc := 0b010100#6, command := none } = .ok .acc := by decide
theorem test_decode_digest : decode { seqc := 0b011000#6, command := none } = .ok .digest := by decide
theorem test_decode_hex : decode { seqc := 0b011001#6, command := none } = .ok .hex := by decide
theorem test_decode_reserved : decode { seqc := 0b111111#6, command := some 1 } = .error (.reservedCode 0b111111#6) := by
  decide
theorem test_decode_idle : decode { seqc := 0b100000#6, command := none } = .error .noCommand := by decide

/-! ### Word functions -/

/-- 95_test_vectors.md V30. -/
theorem test_add32_wraps : add32 0xbb67ae85 0xd39a2165 = 0x8f01cfea := by decide
/-- 95_test_vectors.md V31. -/
theorem test_rotr_shr : rotr 0x12345678 7 = 0xf02468ac ∧ rotr 0x61626380 22 = 0x898e0185 ∧ shr 0x80000000 10 = 0x00200000 := by
  decide
/-- 95_test_vectors.md V32. -/
theorem test_byteOrder :
    be32 0x61 0x62 0x63 0x80 = 0x61626380 ∧ bytesBe32 0xba7816bf = [0xba, 0x78, 0x16, 0xbf] ∧
      bytesBe64 (BitVec.ofNat 64 8000000) = [0, 0, 0, 0, 0, 0x7a, 0x12, 0] := by
  decide
/-- 95_test_vectors.md V33. -/
theorem test_sigmas :
    sigma0 0x12345678 = 0xe7fce6ee ∧ sigma1 0x12345678 = 0xa1f78649 ∧ sigma0 0xffffffff = 0x1fffffff ∧
      sigma1 0x80000000 = 0x00205000 := by
  decide
/-- 95_test_vectors.md V39. -/
theorem test_bigSigmas :
    bigSigma0 0x6a09e667 = 0xce20b47e ∧ bigSigma1 0x510e527f = 0x3587272b ∧ bigSigma0 0x00000001 = 0x40080400 ∧
      bigSigma1 0x12345678 = 0x3561abda := by
  decide
/-- 95_test_vectors.md V40. -/
theorem test_ch_maj :
    ch 0x510e527f 0x9b05688c 0x1f83d9ab = 0x1f85c98c ∧ maj 0x6a09e667 0xbb67ae85 0x3c6ef372 = 0x3a6fe667 ∧
      ch 0xf0f0f0f0 0xffff0000 0x00ffff00 = 0xf0ff0f00 := by
  decide

/-! ### Single operations -/

/-- The state an operation goes to, or the reset state if it stops. -/
def after : Result → State
  | .next s => s
  | .fault _ => State.reset
  | .refused _ => State.reset

/-- The padded message of "abc" (95_test_vectors.md V11). -/
def abcPadded : List Byte :=
  [0x61, 0x62, 0x63, 0x80] ++ List.replicate 59 0 ++ [0x18]

/-- A state in the block loop, on the single block of "abc". -/
def inBlock (sub : BitVec 3) (t : Fin 64) : State :=
  { State.reset with phase := .blockLoop, sub := sub, t := t, pm := abcPadded, n := 1, len := 3, h := ivTable }

/-- A state in Padding. -/
def inPadding (len : Nat) (msg : Memory) : State :=
  { State.reset with phase := .padding, len := len, msg := msg, h := ivTable }

/-- W[0..63] of the block of "abc" (95_test_vectors.md V36). -/
def abcSchedule : Vector Word 64 :=
  #v[0x61626380, 0x00000000, 0x00000000, 0x00000000, 0x00000000, 0x00000000, 0x00000000, 0x00000000,
    0x00000000, 0x00000000, 0x00000000, 0x00000000, 0x00000000, 0x00000000, 0x00000000, 0x00000018,
    0x61626380, 0x000f0000, 0x7da86405, 0x600003c6, 0x3e9d7b78, 0x0183fc00, 0x12dcbfdb, 0xe2e2c38e,
    0xc8215c1a, 0xb73679a2, 0xe5bc3909, 0x32663c5b, 0x9d209d67, 0xec8726cb, 0x702138a4, 0xd3b7973b,
    0x93f5997f, 0x3b68ba73, 0xaff4ffc1, 0xf10a5c62, 0x0a8b3996, 0x72af830a, 0x9409e33e, 0x24641522,
    0x9f47bf94, 0xf0a64f5a, 0x3e246a79, 0x27333ba3, 0x0c4763f2, 0x840abf27, 0x7a290d5d, 0x065c43da,
    0xfb3e89cb, 0xcc7617db, 0xb9e66c34, 0xa9993667, 0x84badedd, 0xc21462bc, 0x1487472c, 0xb20f7a99,
    0xef57b9cd, 0xebe6b238, 0x9fe3095e, 0x78bc8d4b, 0xa43fcf15, 0x668b2ff8, 0xeeaba2cc, 0x12b1edeb]

/-- R after round 61 of "abc" (95_test_vectors.md V43). -/
def abcRound61 : Vector Word 8 :=
  #v[0x04d24d6c, 0xb85e2ce9, 0xb6ae8fff, 0xffb70472, 0x948d25b6, 0x961f4894, 0xb21bad3d, 0x6d83bfc6]

/-- R after round 62 of "abc" (95_test_vectors.md V43). -/
def abcRound62 : Vector Word 8 :=
  #v[0xd39a2165, 0x04d24d6c, 0xb85e2ce9, 0xb6ae8fff, 0xfb121210, 0x948d25b6, 0x961f4894, 0xb21bad3d]

/-- R after round 63 of "abc" (95_test_vectors.md V43). -/
def abcRound63 : Vector Word 8 :=
  #v[0x506e3058, 0xd39a2165, 0x04d24d6c, 0xb85e2ce9, 0x5ef50f24, 0xfb121210, 0x948d25b6, 0x961f4894]

/-- H after the block of "abc" (95_test_vectors.md V46). -/
def abcHash : Vector Word 8 :=
  #v[0xba7816bf, 0x8f01cfea, 0x414140de, 0x5dae2223, 0xb00361a3, 0x96177a9c, 0xb410ff61, 0xf20015ad]

/-- D of "abc" (95_test_vectors.md V2). -/
def abcDigest : Vector Byte 32 :=
  #v[0xba, 0x78, 0x16, 0xbf, 0x8f, 0x01, 0xcf, 0xea, 0x41, 0x41, 0x40, 0xde, 0x5d, 0xae, 0x22, 0x23,
    0xb0, 0x03, 0x61, 0xa3, 0x96, 0x17, 0x7a, 0x9c, 0xb4, 0x10, 0xff, 0x61, 0xf2, 0x00, 0x15, 0xad]

/-- A well-formed state in the block of "abc", with the values of V36 and V43. -/
def inAbc (sub : BitVec 3) (t : Fin 64) (r : Vector Word 8) : State :=
  { inBlock sub t with w := abcSchedule, r := r }

/-- A state in Finalize, with the hash of "abc". -/
def inFinalize (sub : BitVec 3) : State :=
  { State.reset with phase := .finalize, sub := sub, n := 1, len := 3, h := abcHash }

/-- The same before HEX, with D written. -/
def inText : State :=
  { inFinalize subText with d := abcDigest }

/-- A state in DigestReady, after "abc". -/
def ready : State :=
  { inText with phase := .digestReady, sub := 0, dv := true, t := 63, x := digestText abcHash }

/-- `s` with one instant of the host's ports before it. -/
def withPort (p : Ports) (s : State) : State :=
  { s with inputs := [p] }

/-- "abc" in the message memory. -/
def abcMsg : Memory := [(0, 0x61), (1, 0x62), (2, 0x63)]

/-- 95_test_vectors.md P4, the first step of its second call: FAULT, DV and H. -/
theorem test_hash_accepted :
    let s := after (exec (.hash 0) ready)
    s.phase = .padding ∧ s.len = 0 ∧ s.dv = false ∧ s.h[7] = 0x5be0cd19 := by
  decide

/-- 95_test_vectors.md P8: a command while busy changes nothing. -/
theorem test_hash_busy : exec (.hash 0) (inBlock subSched 18) = .next (inBlock subSched 18) := by rfl

/-- 95_test_vectors.md V11, LEN = 3. -/
theorem test_pad_abc :
    let s := after (exec .pad (inPadding 3 abcMsg))
    s.pm = abcPadded ∧ s.n = 1 ∧ s.phase = .blockLoop := by
  decide

/-- 95_test_vectors.md V20, LEN = 2^64 + 3. -/
theorem test_pad_tooLarge :
    let s := after (exec .pad (inPadding (2 ^ 64 + 3) abcMsg))
    s.fault = .inputTooLarge ∧ s.phase = .start ∧ s.pm = [] := by
  decide

/-- 95_test_vectors.md V34. -/
theorem test_ldblk :
    let s := after (exec .ldblk (inBlock subLoad 5))
    s.w[0] = 0x61626380 ∧ s.w[1] = 0 ∧ s.w[15] = 0x00000018 ∧ s.t = 16 ∧ s.sub = subSched := by
  decide

/-- 95_test_vectors.md V35, T = 31: its four terms from W[29], W[24], W[16] and W[15] of V36. -/
theorem test_sched :
    let s := inBlock subSched 31
    let w := (((s.w.set 29 0xec8726cb).set 24 0xc8215c1a).set 16 0x61626380).set 15 0x00000018
    let s' := after (exec .sched { s with w := w })
    s'.w[31] = 0xd3b7973b ∧ s'.t = 32 ∧ s'.sub = subSched := by
  decide

/-- 41_block_parser_scheduler.md R103: the last step of the expansion. -/
theorem test_sched_last :
    let s := after (exec .sched (inBlock subSched 63))
    s.t = 63 ∧ s.sub = subInit := by
  decide

/-- 95_test_vectors.md V41. -/
theorem test_ldwr :
    let s := after (exec .ldwr (inBlock subInit 63))
    s.r = #v[0x6a09e667, 0xbb67ae85, 0x3c6ef372, 0xa54ff53a, 0x510e527f, 0x9b05688c, 0x1f83d9ab, 0x5be0cd19] ∧ s.t = 0 := by
  decide

/-- 95_test_vectors.md V42, row 1. -/
theorem test_round_first :
    let s := inBlock subRound 0
    let s' := after (exec .round { s with r := ivTable, w := s.w.set 0 0x61626380 })
    s'.r = #v[0x5d6aebcd, 0x6a09e667, 0xbb67ae85, 0x3c6ef372, 0xfa2a4622, 0x510e527f, 0x9b05688c, 0x1f83d9ab] ∧ s'.t = 1 := by
  decide

/-- 95_test_vectors.md V42, row 5. -/
theorem test_round_last :
    let s := inBlock subRound 63
    let s' := after (exec .round { s with r := Vector.replicate 8 0xffffffff, w := s.w.set 63 0xffffffff })
    s'.r[0] = 0xc67178ec ∧ s'.r[4] = 0xc67178ed ∧ s'.r[7] = 0xffffffff ∧ s'.t = 63 ∧ s'.sub = subAcc := by
  decide

/-- 95_test_vectors.md V46. -/
theorem test_acc :
    let s := inBlock subAcc 63
    let s' := after (exec .acc { s with r := abcRound63 })
    s'.h = abcHash ∧ s'.phase = .finalize ∧ s'.sub = subRaw := by
  decide

/-- 43_accumulator.md R120: with a block left the loop is taken. -/
theorem test_acc_more :
    let s := after (exec .acc { inBlock subAcc 63 with n := 2 })
    s.phase = .blockLoop ∧ s.sub = subLoad ∧ s.blk = 1 := by
  decide

/-- 95_test_vectors.md P2, step 118. -/
theorem test_digest :
    let s := after (exec .digest (inFinalize subRaw))
    s.d = abcDigest ∧ s.sub = subText ∧ s.dv = false := by
  decide

/-- 95_test_vectors.md P2, step 119. -/
theorem test_hex :
    let s := after (exec .hex (inFinalize subText))
    s.x[0] = 0x62 ∧ s.x[1] = 0x61 ∧ s.x[2] = 0x37 ∧ s.x[63] = 0x64 ∧ s.dv = true ∧ s.phase = .digestReady := by
  decide

/-- 60_exceptions.md R154: T outside 16..63. -/
theorem test_illFormed_failsFast :
    let s := after (step (inBlock subSched 15))
    s.fault = .invariantViolation ∧ s.phase = .start := by
  decide

/-- 10_state.md R38: at SUB = Text D must have been written. -/
theorem test_unwritten_failsFast :
    let s := after (step (inFinalize subText))
    s.fault = .invariantViolation ∧ s.phase = .start ∧ s.dv = false := by
  decide

/-- 10_state.md R38 holds of the values of 95_test_vectors.md V36 and V43, and not of V43's row of another T. -/
theorem test_wellFormed_round :
    (inAbc subRound 62 abcRound61).wellFormed = true ∧ (inAbc subRound 63 abcRound62).wellFormed = true ∧
      (inAbc subRound 63 abcRound61).wellFormed = false ∧ (inAbc subAcc 63 abcRound63).wellFormed = true := by
  decide +kernel

/-- 60_exceptions.md R155 (a): a command together with RESET is lost. -/
theorem test_reset_wins :
    let s := after (step (withPort { reset := true, start := some 3 } inText))
    s.phase = .start ∧ s.dv = false ∧ s.inputs = [] := by
  decide

/-- 70_reset_and_hazards.md R172: the byte the host places lands. -/
theorem test_hostWrite_lands :
    (after (step (withPort { msgWrite := some (1, 7) } State.reset))).msg.read 1 = some 7 := by
  decide

/-- 93_implementation_defined.md U3: a byte written before PAD reads it, with its old value, is that value. -/
theorem test_hostWrite_sameByte :
    let s := after (step (withPort { msgWrite := some (1, 0x62) } (inPadding 3 abcMsg)))
    s.pm.take 4 = [0x61, 0x62, 0x63, 0x80] ∧ s.phase = .blockLoop := by
  refine ⟨?_, rfl⟩
  have h : (inPadding 3 abcMsg |> withPort { msgWrite := some (1, 0x62) }).afterPorts.ReadsAs [0x61, 0x62, 0x63] := by
    intro j hj
    match j with
    | 0 => rfl
    | 1 => exact congrArg some (between_self 0x62 _)
    | 2 => rfl
    | k + 3 => simp at hj
  rw [step_exec rfl rfl (decode_padding _ rfl rfl), execPad_ok (by decide) (h.readRange)]
  rfl

/-! ### A state that meets the hypotheses of each statement, clause by clause -/

theorem test_meets_WordPrimitivesAsNumbers : (0 < 1 ∧ 1 < 32) ∧ (0 < 31 ∧ 31 < 32) ∧ 0 < 32 := by decide
theorem test_meets_ByteOrderIsBigEndian : 0 < 2 ^ 64 ∧ 2 ^ 64 - 1 < 2 ^ 64 := by decide
theorem test_meets_SmallSigmasBitwise : 0 < 32 ∧ 31 < 32 := by decide
theorem test_meets_RoundFunctionsBitwise : 0 < 32 ∧ 31 < 32 := by decide

theorem test_meets_OperationMapRoundTrip :
    (Instr.hash 0).wellFormed = true ∧ Instr.hex.wellFormed = true ∧
      decode { seqc := 0b100000#6, command := some 5 } = .ok (.hash 5) := by
  decide

theorem test_meets_DecoderRefusesEveryOtherWord :
    seqcLegal 0b111000#6 = false ∧ seqcIdle 0b100000#6 = true ∧
      ({ seqc := 0b011001#6, command := some 1 } : OpWord).wellFormed = true := by
  decide

theorem test_meets_PlacedWordRuns :
    decodeTableWord 8 0b100000 = some (.hash 0) ∧ decodeTableWord 8 0b011001 = some .hex := by
  decide

theorem test_meets_StepRunsDecodedOperation :
    let s := withPort { start := some 0 } (inAbc subSched 16 abcRound61)
    s.ports.reset = false ∧ s.wellFormed = true ∧ s.busy = true ∧ s.ports.msgWrite = none ∧
      decode { seqc := s.seqc, command := s.ports.start } = .ok .sched := by
  decide +kernel

theorem test_meets_WhenStepsAreTaken_idle :
    let s := withPort { msgWrite := some (7, 1) } ready
    s.wellFormed = true ∧ s.ports.reset = false ∧ s.busy = false ∧ s.ports.start = none := by
  decide +kernel

theorem test_meets_WhenStepsAreTaken_busy : inText.busy = true := by decide

theorem test_meets_WhenStepsAreTaken_enabled :
    let s := inPadding (2 ^ 61) []
    s.wellFormed = true ∧ s.ports.reset = false ∧ s.busy = true ∧ 2 ^ 61 ≤ s.len := by
  decide

/-- "abc" stands in `abcMsg`. -/
theorem abcMsg_holds : abcMsg.Holds [0x61, 0x62, 0x63] := by
  intro j hj
  match j with
  | 0 => rfl
  | 1 => rfl
  | 2 => rfl
  | k + 3 => simp at hj

theorem abc_readsAs : (inPadding 3 abcMsg).ReadsAs [0x61, 0x62, 0x63] := abcMsg_holds.readsAs rfl

theorem test_meets_WhenStepsAreTaken_pad :
    let s := inPadding 3 abcMsg
    s.wellFormed = true ∧ s.ports.reset = false ∧ s.busy = true ∧
      ∃ message : List Byte, message.length = s.len ∧ s.ReadsAs message :=
  ⟨by decide, by decide, by decide, [0x61, 0x62, 0x63], rfl, abc_readsAs⟩

/-- A step from a well-formed state without RESET that answers a next state. -/
def Steps (s : State) : Prop :=
  s.wellFormed = true ∧ s.ports.reset = false ∧ ∃ s', step s = .next s'

/-- An operation selected in a well-formed state at which the host presents nothing steps to where its meaning goes. -/
theorem steps_of_exec {s s' : State} {i : Instr} (hw : s.wellFormed = true) (hr : s.ports.reset = false)
    (hd : decode s.opWord = .ok i) (he : exec i s.afterPorts = .next s') : Steps s :=
  ⟨hw, hr, s', by rw [step_exec hr hw hd, he]⟩

theorem ready_wellFormed : ready.wellFormed = true := by decide +kernel

theorem test_meets_SequencerNextState_start : Steps (withPort { start := some 3 } State.reset) :=
  ⟨by decide, by decide, _, rfl⟩
theorem test_meets_SequencerNextState_idle : Steps ready :=
  ⟨ready_wellFormed, rfl, _, step_idle rfl ready_wellFormed rfl⟩
theorem test_meets_SequencerNextState_pad : Steps (inPadding 3 abcMsg) := ⟨by decide, by decide, _, rfl⟩
theorem test_meets_SequencerNextState_tooLarge : Steps (inPadding (2 ^ 61) []) := ⟨by decide, by decide, _, rfl⟩
theorem test_meets_SequencerNextState_load : Steps (inBlock subLoad 0) := ⟨by decide, by decide, _, rfl⟩
theorem test_meets_SequencerNextState_sched : Steps (inAbc subSched 62 abcRound61) :=
  steps_of_exec (by decide +kernel) rfl (decode_sched _ rfl rfl) (execSched_more (by decide) (by decide))
theorem test_meets_SequencerNextState_schedLast : Steps (inAbc subSched 63 abcRound61) :=
  steps_of_exec (by decide +kernel) rfl (decode_sched _ rfl rfl) (execSched_last rfl)
theorem test_meets_SequencerNextState_init : Steps (inAbc subInit 63 abcRound61) :=
  steps_of_exec (by decide +kernel) rfl (decode_init _ rfl rfl) (execLdwr_eq _)
theorem test_meets_SequencerNextState_round : Steps (inAbc subRound 62 abcRound61) :=
  steps_of_exec test_wellFormed_round.1 rfl (decode_round _ rfl rfl) (execRound_more (by decide))
theorem test_meets_SequencerNextState_roundLast : Steps (inAbc subRound 63 abcRound62) :=
  steps_of_exec test_wellFormed_round.2.1 rfl (decode_round _ rfl rfl) (execRound_last rfl)

/-- The end of the block of "abc" meets the invariant. -/
theorem abcAcc_inv : StateInv (inAbc subAcc 63 abcRound63) := by
  refine ⟨rfl, rfl, test_wellFormed_round.2.2.2, fun _ _ => rfl⟩

theorem test_meets_SequencerNextState_acc :
    StateInv (inAbc subAcc 63 abcRound63) ∧ Steps (inAbc subAcc 63 abcRound63) :=
  ⟨abcAcc_inv, steps_of_exec abcAcc_inv.2.2.1 rfl (decode_acc _ rfl rfl) (execAcc_last (by decide))⟩

/-- The same block with another one after it. -/
def inAbcOfTwo : State :=
  { inAbc subAcc 63 abcRound63 with n := 2, pm := abcPadded ++ abcPadded }

theorem test_meets_SequencerNextState_accMore : Steps inAbcOfTwo :=
  steps_of_exec (by decide +kernel) rfl (decode_acc _ rfl rfl) (execAcc_more (by decide))
theorem test_meets_SequencerNextState_raw : Steps (inFinalize subRaw) := ⟨by decide, by decide, _, rfl⟩

theorem inText_wellFormed : inText.wellFormed = true := by decide +kernel

theorem test_meets_SequencerNextState_text : Steps inText :=
  steps_of_exec inText_wellFormed rfl (decode_text _ rfl rfl) (execHex_eq _)

theorem test_meets_ControlDependsOnLengthAlone :
    let s1 := inPadding 3 abcMsg
    let s2 := inPadding 3 [(0, 1), (1, 2), (2, 3)]
    s1 ≠ s2 ∧ Steps s1 ∧ Steps s2 ∧ s1.inputs = s2.inputs ∧ s1.phase = s2.phase ∧ s1.sub = s2.sub ∧ s1.blk = s2.blk ∧
      s1.t = s2.t ∧ s1.n = s2.n ∧ s1.len = s2.len :=
  ⟨by decide, ⟨by decide, by decide, _, rfl⟩, ⟨by decide, by decide, _, rfl⟩, rfl, rfl, rfl, rfl, rfl, rfl, rfl⟩

theorem test_meets_IllFormedConditions :
    seqcLegal (inBlock 7 0).seqc = false ∧ inText.wellFormed = true ∧ ready.wellFormed = true := by
  exact ⟨by decide, inText_wellFormed, ready_wellFormed⟩

theorem test_meets_IllFormedStateFailsFast_code :
    (inBlock 7 0).ports.reset = false ∧ (inBlock 7 0).wellFormed = false := by
  decide
theorem test_meets_IllFormedStateFailsFast_dv :
    let s := { State.reset with dv := true }
    s.ports.reset = false ∧ s.wellFormed = false := by
  decide
theorem test_meets_IllFormedStateFailsFast_h :
    let s := { inPadding 0 [] with h := abcHash }
    s.ports.reset = false ∧ s.wellFormed = false := by
  decide
theorem test_meets_IllFormedStateFailsFast_unwritten :
    let s := inBlock subSched 16
    s.ports.reset = false ∧ s.wellFormed = false := by
  decide +kernel

theorem test_meets_ResetWinsFromAnyState :
    (withPort { reset := true, msgWrite := some (0, 1) } (inBlock 7 0)).ports.reset = true := by
  decide

theorem test_meets_HashIsAccepted : State.reset.phase = .start ∧ ready.phase = .digestReady := by decide
theorem test_meets_HashWhileBusyChangesNothing :
    (inPadding 0 []).phase = .padding ∧ (inBlock subAcc 0).phase = .blockLoop ∧ (inFinalize subRaw).phase = .finalize := by
  decide

theorem test_meets_PadPadsOrRaisesInputTooLarge_tooLarge : 2 ^ 61 ≤ (inPadding (2 ^ 61) []).len := by decide
theorem test_meets_PadPadsOrRaisesInputTooLarge_pads :
    (inPadding 3 abcMsg).len < 2 ^ 61 ∧ [0x61#8, 0x62, 0x63].length = (inPadding 3 abcMsg).len ∧
      (inPadding 3 abcMsg).ReadsAs [0x61, 0x62, 0x63] :=
  ⟨by decide, rfl, abc_readsAs⟩
theorem test_meets_PadPadsOrRaisesInputTooLarge_empty :
    (inPadding 0 []).len < 2 ^ 61 ∧ ([] : List Byte).length = (inPadding 0 []).len ∧ (inPadding 0 []).ReadsAs [] :=
  ⟨by decide, rfl, fun j hj => by simp at hj⟩

theorem test_meets_PadStopsAtAbsentByte :
    let s := inPadding 3 [(0, 0x61), (2, 0x63)]
    s.len < 2 ^ 61 ∧ 1 < s.len ∧ s.messageByte 1 = none ∧ ∀ b, b < 1 → (s.messageByte b).isSome = true := by
  refine ⟨by decide, by decide, rfl, fun b hb => ?_⟩
  obtain rfl : b = 0 := by omega
  rfl

theorem test_meets_LdblkLoadsTheBlock : 64 * (inBlock subLoad 0).blk + 64 ≤ (inBlock subLoad 0).pm.length := by decide
theorem test_meets_SchedExtendsTheSchedule :
    16 ≤ (inBlock subSched 16).t.val ∧ 16 ≤ (inBlock subSched 63).t.val ∧ (inBlock subSched 63).t.val = 63 := by
  decide
theorem test_meets_IndexOutOfRangeFailsFast :
    { inBlock subLoad 0 with blk := 1 }.pm.length < 64 * { inBlock subLoad 0 with blk := 1 }.blk + 64 ∧
      (inBlock subSched 15).t.val < 16 := by
  decide
theorem test_meets_RoundMixesWorkingRegisters :
    (inBlock subRound 62).t.val < 63 ∧ (inBlock subRound 63).t.val = 63 := by
  decide
theorem test_meets_AccFoldsTheBlock :
    { inBlock subAcc 63 with n := 2 }.blk + 1 < { inBlock subAcc 63 with n := 2 }.n ∧
      ¬ (inBlock subAcc 63).blk + 1 < (inBlock subAcc 63).n := by
  decide

theorem test_meets_OnlyNamedOperationsWrite :
    let s := inAbc subRound 63 abcRound62
    s.wellFormed = true ∧ decode s.opWord = .ok .round ∧ ∃ s', exec .round s = .next s' :=
  ⟨test_wellFormed_round.2.1, decode_round _ rfl rfl, _, execRound_last rfl⟩

theorem test_meets_PaddedMessageByIndex :
    8 * (List.replicate 56 0x61#8).length < 2 ^ 64 ∧ 8 * ([] : List Byte).length < 2 ^ 64 := by
  decide
theorem test_meets_PaddingInvariants :
    8 * [0#8].length < 2 ^ 64 ∧ pad [0#8] = pad [0#8] := by
  decide

/-- Instants at which nothing but a lost command and a byte beyond the message are presented. -/
def lostCommands : List Ports := [{ start := some 9 }, { msgWrite := some (70, 1) }]

theorem lostCommands_quiet {len k : Nat} (h : len ≤ 70) : ∀ p, p ∈ lostCommands.take k → Quiet len p := by
  intro p hp
  have hp := List.mem_of_mem_take hp
  simp only [lostCommands, List.mem_cons, List.not_mem_nil, or_false] at hp
  obtain rfl | rfl := hp
  · exact ⟨rfl, fun c hc => by simp at hc⟩
  · refine ⟨rfl, fun c hc => ?_⟩
    obtain rfl : (70, 1) = c := by simpa using hc
    exact h

theorem test_meets_ExpandComputesSchedule :
    let s := { inBlock subLoad 5 with inputs := lostCommands }
    s.wellFormed = true ∧ s.phase = .blockLoop ∧ s.sub = subLoad ∧ ∀ p, p ∈ s.inputs.take 49 → Quiet s.len p :=
  ⟨by decide, rfl, rfl, lostCommands_quiet (by decide)⟩

theorem test_meets_CompressComputesRounds :
    let s := { inAbc subInit 63 abcRound61 with inputs := lostCommands }
    s.wellFormed = true ∧ s.phase = .blockLoop ∧ s.sub = subInit ∧ ∀ p, p ∈ s.inputs.take 65 → Quiet s.len p :=
  ⟨by decide +kernel, rfl, rfl, lostCommands_quiet (by decide)⟩

theorem test_meets_BlockPassFoldsOneBlock :
    let s := { inBlock subLoad 0 with n := 2, pm := abcPadded ++ abcPadded, inputs := lostCommands }
    s.wellFormed = true ∧ s.phase = .blockLoop ∧ s.sub = subLoad ∧ s.blk + 1 < s.n ∧
      ∀ p, p ∈ s.inputs.take 115 → Quiet s.len p :=
  ⟨by decide +kernel, rfl, rfl, by decide, lostCommands_quiet (by decide)⟩

/-- An idle engine, a call on "abc" presented to it, and lost commands after it. -/
def calling (s : State) (len : Nat) : State :=
  { s with msg := abcMsg, inputs := { start := some len } :: lostCommands }

theorem calling_quiet {s : State} {len k : Nat} (h : len ≤ 70) :
    ∀ p, p ∈ (calling s len).inputs.take (k + 1) → Quiet len p := by
  intro p hp
  simp only [calling, List.take_succ_cons, List.mem_cons] at hp
  obtain rfl | hp := hp
  · exact ⟨rfl, fun c hc => by simp at hc⟩
  · exact lostCommands_quiet h p hp

theorem test_meets_CallComputesTheDigest_success :
    let s := calling ready 3
    let message : List Byte := [0x61, 0x62, 0x63]
    s.wellFormed = true ∧ s.busy = false ∧ s.inputs = { start := some message.length } :: lostCommands ∧
      8 * message.length < 2 ^ 64 ∧ s.msg.Holds message ∧
      ∀ q, q ∈ s.inputs.take (4 + 115 * blockCount message.length) → Quiet message.length q :=
  ⟨ready_wellFormed, by decide, rfl, by decide, abcMsg_holds, calling_quiet (by decide)⟩

theorem test_meets_CallComputesTheDigest_tooLong :
    let s := withPort { start := some (2 ^ 61) } State.reset
    s.wellFormed = true ∧ s.busy = false ∧ s.inputs = [{ start := some (2 ^ 61) }] ∧ 2 ^ 64 ≤ 8 * 2 ^ 61 ∧
      ∀ q, q ∈ s.inputs.take 2 → Quiet (2 ^ 61) q := by
  refine ⟨by decide, by decide, rfl, by decide, fun q hq => ?_⟩
  obtain rfl : q = { start := some (2 ^ 61) } := by simpa [withPort] using hq
  exact ⟨rfl, fun c hc => by simp at hc⟩

theorem test_meets_CallTraceIsHashPseudoOp :
    let s := calling State.reset 3
    let message : List Byte := [0x61, 0x62, 0x63]
    s.wellFormed = true ∧ s.busy = false ∧ s.inputs = { start := some message.length } :: lostCommands ∧
      8 * message.length < 2 ^ 64 ∧ s.msg.Holds message ∧
      ∀ q, q ∈ s.inputs.take (callSteps message.length) → Quiet message.length q := by
  refine ⟨by decide, by decide, rfl, by decide, abcMsg_holds, ?_⟩
  exact calling_quiet (k := 118) (by decide)

/-- A host that changes the first byte of "abc" at the second instant of the call, and a later one in the block loop. -/
def changing : List Ports :=
  [{ start := some 3 }, { msgWrite := some (0, 9) }, { msgWrite := some (2, 8), start := some 5 }]

theorem test_meets_ChangedMessageHashesBetween :
    let s := { ready with msg := abcMsg, inputs := changing }
    let message : List Byte := [0x61, 0x62, 0x63]
    s.wellFormed = true ∧ s.busy = false ∧ s.inputs = { start := some message.length } :: changing.tail ∧
      8 * message.length < 2 ^ 64 ∧ s.msg.Holds message ∧
      ∀ q, q ∈ s.inputs.take (callSteps message.length) → q.reset = false := by
  refine ⟨ready_wellFormed, rfl, rfl, by decide, abcMsg_holds, fun q hq => ?_⟩
  have hq : q ∈ changing := List.mem_of_mem_take hq
  simp only [changing, List.mem_cons, List.not_mem_nil, or_false] at hq
  obtain rfl | rfl | rfl := hq <;> rfl

/-- A host write to the message in the block loop, and one in Finalize. -/
theorem test_meets_LateMessageChangeIsNotSeen :
    (let s := withPort { msgWrite := some (1, 5) } (inAbc subAcc 63 abcRound63)
    s.phase = .blockLoop ∧ s.inputs = [{ msgWrite := some (1, 5) }]) ∧
    (let s := withPort { msgWrite := some (1, 5) } inText
    s.phase = .finalize ∧ s.inputs = [{ msgWrite := some (1, 5) }]) :=
  ⟨⟨rfl, rfl⟩, rfl, rfl⟩

theorem test_meets_StepKeepsInvariant :
    let s := withPort { msgWrite := some (1, 5) } (inAbc subAcc 63 abcRound63)
    StateInv s ∧ ∃ s', step s = .next s' := by
  have hw : (withPort { msgWrite := some (1, 5) } (inAbc subAcc 63 abcRound63)).wellFormed = true := abcAcc_inv.2.2.1
  exact ⟨⟨rfl, rfl, hw, fun _ _ => rfl⟩, (steps_of_exec hw rfl (decode_acc _ rfl rfl) (execAcc_last (by decide))).2.2⟩

theorem test_meets_StepKeepsSoundness :
    StateInv (inBlock subLoad 0) ∧ Sound (inBlock subLoad 0) ∧ ∃ s', step (inBlock subLoad 0) = .next s' := by
  have hpm : pad [0x61, 0x62, 0x63] = abcPadded := by decide
  exact ⟨⟨rfl, rfl, by decide, by decide⟩, ⟨[0x61, 0x62, 0x63], rfl, by decide, hpm.symm, by decide, rfl⟩, _, rfl⟩

theorem test_meets_StatusLinesFollowTheState : ready.wellFormed = true ∧ inText.wellFormed = true :=
  ⟨ready_wellFormed, inText_wellFormed⟩

theorem test_meets_FaultAndDigestAreHeld :
    (Steps ready ∧ ready.ports.start = none ∧ ready.dv = true) ∧
      Steps { State.reset with fault := .inputTooLarge } ∧ State.reset.ports.start = none :=
  ⟨⟨test_meets_SequencerNextState_idle, by decide, by decide⟩, ⟨by decide, by decide, _, rfl⟩, by decide⟩

theorem test_meets_HostReadsGiveDigestOrNothing :
    ready.dv = true ∧ State.reset.dv = false ∧ (inFinalize subText).dv = false ∧
      State.reset.draws = (inFinalize subText).draws := by
  decide

theorem test_meets_EngineNeverWritesMessageMemory :
    let s := withPort { msgWrite := some (5, 1) } (inPadding 3 abcMsg)
    (∃ s', step s = .next s') ∧ ∀ c : Host.Cell, s.ports.msgWrite = some c → c.1 ≠ 1 := by
  refine ⟨⟨_, rfl⟩, fun c hc => ?_⟩
  obtain rfl : (5, 1) = c := by simpa [withPort, State.ports] using hc
  decide

theorem test_meets_EngineNeverWritesMessageMemory_lands :
    let s := withPort { msgWrite := some (2, 1) } (inFinalize subRaw)
    (∃ s', step s = .next s') ∧ s.ports.msgWrite = some (2, 1) :=
  ⟨⟨_, rfl⟩, rfl⟩

theorem test_meets_UnwrittenRegistersNeverShow :
    let s1 := calling State.reset 3
    let s2 := { calling State.reset 3 with h := ivTable, pm := abcPadded, n := 7, w := Vector.replicate 64 5 }
    s1 ≠ s2 ∧ s1.wellFormed = true ∧ s2.wellFormed = true ∧ s1.phase = .start ∧ s2.phase = .start ∧
      s1.fault = s2.fault ∧ s1.msg = s2.msg ∧ s1.inputs = s2.inputs ∧ s1.draws = s2.draws := by
  decide

/-- The other premise: the draws differ, and every byte the host writes lies beyond the message. -/
theorem test_meets_UnwrittenRegistersNeverShow_outside :
    let s1 := { State.reset with inputs := [{ start := some 3, msgWrite := some (3, 1) }] }
    s1.draws ≠ { s1 with draws := 8 }.draws ∧
      ∀ p, p ∈ s1.inputs → ∀ c : Host.Cell, p.msgWrite = some c →
        ∀ q, q ∈ s1.inputs → ∀ len, q.start = some len → len ≤ c.1 := by
  refine ⟨by decide, fun p hp c hc q hq len hl => ?_⟩
  obtain rfl : p = { start := some 3, msgWrite := some (3, 1) } := by simpa using hp
  obtain rfl : q = { start := some 3, msgWrite := some (3, 1) } := by simpa using hq
  obtain rfl : (3, 1) = c := by simpa using hc
  obtain rfl : 3 = len := by simpa using hl
  decide

/-- A system of two engines, one of them idle with a call presented to it. -/
def twoEngines : System := { engines := [calling State.reset 3, inText] }

theorem test_meets_EnginesAreIndependent :
    twoEngines.engines[1]? = some inText ∧ ∃ s', runSteps (stepsOf (fun _ => 1) 1 1) inText = .next s' := by
  obtain ⟨-, -, s', h⟩ := test_meets_SequencerNextState_text
  exact ⟨rfl, s', by rw [show stepsOf (fun _ => 1) 1 1 = 0 + 1 from rfl, runSteps_succ h]; rfl⟩

/-- The schedule that gives the engines turns alternately is fair to each. -/
theorem alternating_fair (sys : System) (k : Nat) (h : k < 2) : WeaklyFair sys (fun m => m % 2) k := by
  intro m _
  by_cases hm : m % 2 = k
  · exact ⟨m, Nat.le_refl _, hm⟩
  · exact ⟨m + 1, Nat.le_succ _, by show (m + 1) % 2 = k; omega⟩

theorem test_meets_FairScheduleEndsEveryCall_success :
    let s := calling State.reset 3
    let message : List Byte := [0x61, 0x62, 0x63]
    WeaklyFair twoEngines (fun m => m % 2) 0 ∧ (twoEngines.run (fun m => m % 2) 0).engines[0]? = some s ∧
      s.wellFormed = true ∧ s.busy = false ∧ s.inputs = { start := some message.length } :: lostCommands ∧
      8 * message.length < 2 ^ 64 ∧ s.msg.Holds message ∧
      ∀ q, q ∈ s.inputs.take (callSteps message.length) → Quiet message.length q :=
  ⟨alternating_fair _ _ (by decide), rfl, by decide, rfl, rfl, by decide, abcMsg_holds,
    calling_quiet (k := 118) (by decide)⟩

theorem test_meets_FairScheduleEndsEveryCall_tooLong :
    let s := withPort { start := some (2 ^ 61) } State.reset
    let sys : System := { engines := [inText, s] }
    WeaklyFair sys (fun m => m % 2) 1 ∧ (sys.run (fun m => m % 2) 0).engines[1]? = some s ∧ s.wellFormed = true ∧
      s.busy = false ∧ s.inputs = [{ start := some (2 ^ 61) }] ∧ 2 ^ 64 ≤ 8 * 2 ^ 61 ∧
      ∀ q, q ∈ s.inputs.take 2 → Quiet (2 ^ 61) q :=
  ⟨alternating_fair _ _ (by decide), rfl, test_meets_CallComputesTheDigest_tooLong⟩

end Sys2Proof.Tests
end

/-! The word and byte-order primitives of 00_scope.md R10 and R11 as arithmetic on natural numbers. -/

namespace Sys2Proof.Machine

/-! ### Words -/

/-- Any grouping of a sum of three words is their sum modulo 2^32. -/
theorem toNat_add32_add32 (x y z : Word) :
    (add32 (add32 x y) z).toNat = (x.toNat + y.toNat + z.toNat) % 2 ^ 32 := by
  rw [BitVec.toNat_add, BitVec.toNat_add, Nat.mod_add_mod]

/-- The bits below `n` are dropped by the right shift and enter at the top by the left shift. -/
theorem toNat_rotr (x : Word) (n : Nat) (h : 0 < n ∧ n < 32) :
    (rotr x n h).toNat = (x.toNat / 2 ^ n ||| x.toNat * 2 ^ (32 - n)) % 2 ^ 32 := by
  have hfits : x.toNat / 2 ^ n < 2 ^ 32 := (Nat.div_le_self _ _).trans_lt x.isLt
  rw [Nat.or_mod_two_pow, Nat.mod_eq_of_lt hfits, rotr, BitVec.toNat_or, BitVec.toNat_ushiftRight,
    BitVec.toNat_shiftLeft, Nat.shiftRight_eq_div_pow, Nat.shiftLeft_eq]

theorem toNat_shr (x : Word) (n : Nat) (h : n < 32) : (shr x n h).toNat = x.toNat / 2 ^ n := by
  rw [shr, BitVec.toNat_ushiftRight, Nat.shiftRight_eq_div_pow]

theorem toNat_not32 (x : Word) : (not32 x).toNat = 2 ^ 32 - 1 - x.toNat := by
  rw [not32_eq_not, BitVec.toNat_not]

/-! ### Bytes -/

/-- A bit vector with a byte appended below it, as a number. -/
theorem toNat_append_byte {n : Nat} (x : BitVec n) (b : Byte) :
    (x ++ b).toNat = x.toNat * 2 ^ 8 + b.toNat := by
  rw [BitVec.toNat_append, ← Nat.shiftLeft_add_eq_or_of_lt b.isLt, Nat.shiftLeft_eq]

theorem toNat_be32 (b0 b1 b2 b3 : Byte) :
    (be32 b0 b1 b2 b3).toNat = b0.toNat * 2 ^ 24 + b1.toNat * 2 ^ 16 + b2.toNat * 2 ^ 8 + b3.toNat := by
  simp only [be32, toNat_append_byte]
  omega

theorem toNat_byteBe32 (w : Word) (m : Fin 4) : (byteBe32 w m).toNat = w.toNat / 2 ^ (24 - 8 * m.val) % 2 ^ 8 := by
  rw [byteBe32, BitVec.extractLsb'_toNat, Nat.shiftRight_eq_div_pow]

/-- Byte `m` of the word made of four bytes is the `m`-th of them. -/
theorem byteBe32_be32 (b0 b1 b2 b3 : Byte) (m : Fin 4) : byteBe32 (be32 b0 b1 b2 b3) m = #v[b0, b1, b2, b3][m] := by
  apply BitVec.eq_of_toNat_eq
  rw [toNat_byteBe32, toNat_be32]
  match m with
  | 0 | 1 | 2 | 3 => simp; omega

theorem bytesBe32_be32 (b0 b1 b2 b3 : Byte) : bytesBe32 (be32 b0 b1 b2 b3) = [b0, b1, b2, b3] := by
  simp [bytesBe32, byteBe32_be32]

/-- The byte of a 64-bit number that begins at bit `k`. -/
theorem extractByte_ofNat {v : Nat} (h : v < 2 ^ 64) (k : Nat) :
    (BitVec.ofNat 64 v).extractLsb' k 8 = BitVec.ofNat 8 (v / 2 ^ k) := by
  apply BitVec.eq_of_toNat_eq
  rw [BitVec.extractLsb'_toNat, BitVec.toNat_ofNat, BitVec.toNat_ofNat, Nat.mod_eq_of_lt h,
    Nat.shiftRight_eq_div_pow]

theorem bytesBe64_ofNat {v : Nat} (h : v < 2 ^ 64) :
    bytesBe64 (BitVec.ofNat 64 v) = (List.range 8).map fun k => BitVec.ofNat 8 (v / 2 ^ (56 - 8 * k)) := by
  simp only [bytesBe64, extractByte_ofNat h]
  rfl

/-! ### The statements -/

/-- Settles O1: each primitive as a number, the bitwise operators by Lean's own bit lemmas. -/
theorem wordPrimitivesAsNumbers : Obligations.WordPrimitivesAsNumbers :=
  ⟨BitVec.toNat_add,
    fun x y z => ⟨BitVec.add_assoc x y z, toNat_add32_add32 x y z⟩,
    toNat_rotr,
    toNat_shr,
    fun _ _ _ => ⟨BitVec.getLsbD_and, BitVec.getLsbD_or, BitVec.getLsbD_xor⟩,
    fun x => ⟨rfl, toNat_not32 x⟩⟩

/-- Settles O2: the weights of the bytes, and from them the inverse. -/
theorem byteOrderIsBigEndian : Obligations.ByteOrderIsBigEndian :=
  ⟨toNat_be32, bytesBe32_be32, toNat_byteBe32, fun _ => bytesBe64_ofNat⟩

end Sys2Proof.Machine

/-! The step as the decoded operation (00_scope.md R14, 30_encoding.md R80). -/

namespace Sys2Proof.Machine

/-- An instant at which the host writes nothing is over when its ports are consumed. -/
theorem State.landed_of_noWrite {s : State} (h : s.ports.msgWrite = none) :
    s.landed = { s with inputs := s.inputs.tail } :=
  State.hostWrite_none h

/-- With no RESET and no write the host keeps its duties to every call. -/
theorem quiet_of_noWrite {p : Ports} (len : Nat) (hr : p.reset = false) (hw : p.msgWrite = none) : Quiet len p :=
  ⟨hr, fun _ hc => by simp [hw] at hc⟩

/-- Settles O12: the general case is `step_exec`; at a busy engine's instant with no write nothing is disturbed and nothing
lands. -/
theorem stepRunsDecodedOperation : Obligations.StepRunsDecodedOperation := by
  intro s i hr hwf hd
  refine ⟨step_exec hr hwf hd, fun hbusy hnoWrite => ?_⟩
  rw [step_quiet hwf hbusy (quiet_of_noWrite s.len hr hnoWrite) hd, State.landed_of_noWrite hnoWrite]

end Sys2Proof.Machine

/-! What a step keeps (10_state.md R38): the canonical memories, the well-formed state, the soundness of the call. -/

namespace Sys2Proof.Machine

/-! ### The schedule as the words the rules write (41_block_parser_scheduler.md R100, R103, R104) -/

/-- Word `16 + k` of a schedule is computed when `k` words have been computed before it. -/
theorem schedulePrefix_new (b : Block) (k : Nat) :
    (schedulePrefix b (k + 1)).getD (16 + k) 0 =
      sigma1 ((schedulePrefix b k).getD (14 + k) 0) + (schedulePrefix b k).getD (9 + k) 0 +
        sigma0 ((schedulePrefix b k).getD (1 + k) 0) + (schedulePrefix b k).getD k 0 := by
  simp [schedulePrefix, ← length_schedulePrefix b k]

theorem schedule_getElem (b : Block) {t k : Nat} (ht : t < 64) (hk : k ≤ 48) (htk : t < 16 + k) :
    (schedule b)[t] = (schedulePrefix b k).getD t 0 := by
  rw [← schedulePrefix_stable b hk htk]
  simp [schedule]

/-- The words of a schedule are those LDBLK and SCHED write, one after the other. -/
theorem schedule_eq_wordOf (b : Block) (j : Fin 64) : (schedule b)[j] = wordOf b (schedule b) j := by
  have hj := j.isLt
  unfold wordOf
  split
  · rename_i hlow
    rw [Fin.getElem_fin, schedule_getElem b hj (Nat.zero_le _) hlow]
    rw [schedulePrefix, List.getD_eq_getElem _ _ (by simpa using hlow), List.getElem_ofFn]
  · rename_i hhigh
    obtain ⟨k, hk⟩ : ∃ k, j.val = 16 + k := ⟨j.val - 16, by omega⟩
    rw [Fin.getElem_fin, schedule_getElem b hj (k := k + 1) (by omega) (by omega), schedWord,
      schedule_getElem b (k := k) _ (by omega) (by omega), schedule_getElem b (k := k) _ (by omega) (by omega),
      schedule_getElem b (k := k) _ (by omega) (by omega), schedule_getElem b (k := k) _ (by omega) (by omega)]
    simp only [hk, schedulePrefix_new, show 16 + k - 2 = 14 + k by omega, show 16 + k - 7 = 9 + k by omega,
      show 16 + k - 15 = 1 + k by omega, Nat.add_sub_cancel_left]

/-- W is written up to an index exactly when it agrees with the schedule up to there. -/
theorem scheduleWritten_iff_schedule {b : Block} {w : Vector Word 64} {k : Nat} :
    scheduleWritten b w k = true ↔ ∀ j : Fin 64, j.val < k → w[j] = (schedule b)[j] := by
  rw [scheduleWritten_iff]
  constructor
  · intro h j hj
    induction j using WellFoundedLT.induction with
    | _ j ih =>
      rw [h j hj, schedule_eq_wordOf]
      exact wordOf_congr fun i hi => ih i hi (hi.trans hj)
  · intro h j hj
    rw [h j hj, schedule_eq_wordOf]
    exact wordOf_congr fun i hi => (h i (hi.trans hj)).symm

/-- W is written for a block exactly when it holds the block's schedule. -/
theorem scheduleWritten_all {b : Block} {w : Vector Word 64} : scheduleWritten b w 64 = true ↔ w = schedule b := by
  rw [scheduleWritten_iff_schedule]
  refine ⟨fun h => Vector.ext fun j hj => h ⟨j, hj⟩ hj, fun h j _ => by rw [h]⟩

/-! ### The memories -/

/-- No operation touches what is the host's or the model's own. -/
theorem Performs.hostUntouched {s s' : State} {i : Instr} {c : Option Nat} (h : Performs c s i s') : HostUntouched s s' := by
  cases h <;> exact ⟨fun _ => rfl, rfl, rfl, rfl, rfl⟩

/-- After every step MSG is what it was, with the byte the host placed. -/
theorem step_msg {s s' : State} (h : step s = .next s') : s'.msg = s.landed.msg := by
  rcases step_cases h with ⟨-, rfl⟩ | ⟨-, -, rfl⟩ | ⟨-, -, -, rfl⟩ | ⟨-, hw, i, hd, he⟩
  · rfl
  · rfl
  · exact s.afterPorts_msg
  · obtain ⟨-, hmsg, -⟩ := (step_performs hw hd he).hostUntouched
    rw [hmsg, s.afterPorts_msg]

/-- A step changes the record of disturbed bytes only by what the host writes to a waiting message. -/
theorem step_disturbed {s s' : State} (h : step s = .next s') :
    s'.disturbed = s.disturbed ∨ s'.disturbed = (s.disturb s.ports).disturbed := by
  rcases step_cases h with ⟨-, rfl⟩ | ⟨-, -, rfl⟩ | ⟨-, -, -, rfl⟩ | ⟨-, hw, i, hd, he⟩
  · exact .inl s.landed_disturbed
  · exact .inl s.landed_disturbed
  · exact .inr s.afterPorts_disturbed
  · obtain ⟨-, -, -, hdist, -⟩ := (step_performs hw hd he).hostUntouched
    exact .inr (hdist.trans s.afterPorts_disturbed)

/-! ### The invariant -/

/-- A state in Start with SUB and DV cleared is well-formed, whatever its other registers hold. -/
theorem wellFormed_of_start {s : State} (hp : s.phase = .start) (hs : s.sub = 0) (hdv : s.dv = false) :
    s.wellFormed = true :=
  (wellFormed_start hp).2 ⟨hs, hdv⟩

/-- Every step gives a well-formed state, an ill-formed one failing fast into Start. -/
theorem step_wellFormed {s s' : State} (h : step s = .next s') : s'.wellFormed = true := by
  rcases step_cases h with ⟨-, rfl⟩ | ⟨-, -, rfl⟩ | ⟨-, hw, -, rfl⟩ | ⟨-, hw, i, hd, he⟩
  · exact wellFormed_of_start rfl rfl rfl
  · exact wellFormed_of_start rfl rfl rfl
  · exact State.afterPorts_wellFormed hw
  · exact (step_performs hw hd he).wellFormed (State.afterPorts_wellFormed hw)

/-- T is 63 where a counted loop of the block loop has ended (45_hash_command_and_sequencer.md R132). -/
def State.LoopEnded (s : State) : Prop :=
  s.phase = .blockLoop → s.sub = subInit ∨ s.sub = subAcc → s.t.val = 63

theorem State.loopEnded_of_start {s : State} (hp : s.phase = .start) : s.LoopEnded := by
  intro hb
  rw [hp] at hb
  cases hb

/-- The two operations that end a counted loop do so at T = 63. -/
theorem Performs.loopEnded {s s' : State} {i : Instr} {c : Option Nat} (h : Performs c s i s') : s'.LoopEnded := by
  intro hp hs
  cases h with
  | schedLast _ _ ht => exact ht
  | roundLast _ _ ht => exact ht
  | hash | padTooLong | accLast | digest | hex => cases hp
  | pad | ldblk | schedMore | ldwr | roundMore | accMore => simp at hs

theorem step_loopEnded {s s' : State} (h : step s = .next s') (hl : s.LoopEnded) : s'.LoopEnded := by
  rcases step_cases h with ⟨-, rfl⟩ | ⟨-, -, rfl⟩ | ⟨-, -, -, rfl⟩ | ⟨-, hw, i, hd, he⟩
  · exact State.loopEnded_of_start rfl
  · exact State.loopEnded_of_start rfl
  · simpa [State.LoopEnded] using hl
  · exact (step_performs hw hd he).loopEnded

/-- Settles O43, part by part of the invariant. -/
theorem stepKeepsInvariant : Obligations.StepKeepsInvariant := by
  rintro s s' ⟨hmsg, hdist, -, hloop⟩ h
  refine ⟨?_, ?_, step_wellFormed h, step_loopEnded h hloop⟩
  · rw [step_msg h]
    exact State.landed_msg_wf hmsg
  · rcases step_disturbed h with hd | hd
    · rwa [hd]
    · rw [hd]
      exact State.disturb_disturbed_wf _ hdist

/-! ### Soundness -/

theorem callSound_blockLoop {s : State} {message : List Byte} (hp : s.phase = .blockLoop) :
    CallSound s message ↔
      message.length = s.len ∧ 8 * s.len < 2 ^ 64 ∧ s.pm = pad message ∧ s.n = blockCount s.len ∧
        s.h = chain (pad message) s.blk := by
  simp only [CallSound, hp]

theorem callSound_finalize {s : State} {message : List Byte} (hp : s.phase = .finalize) :
    CallSound s message ↔ message.length = s.len ∧ 8 * s.len < 2 ^ 64 ∧ s.h = finalHash message := by
  simp only [CallSound, hp]

theorem callSound_digestReady {s : State} {message : List Byte} (hp : s.phase = .digestReady) :
    CallSound s message ↔
      message.length = s.len ∧ 8 * s.len < 2 ^ 64 ∧ s.h = finalHash message ∧
        s.d = digestBytes (finalHash message) ∧ s.x = digestText (finalHash message) := by
  simp only [CallSound, hp]

/-- Before the block loop a call has computed nothing yet. -/
theorem sound_of_beforeLoop {s : State} (hp : s.phase = .start ∨ s.phase = .padding) : Sound s := by
  rcases hp with hp | hp <;> exact ⟨[], by simp only [CallSound, hp]⟩

theorem sound_afterPorts {s : State} (h : Sound s) : Sound s.afterPorts := by
  simpa [Sound, CallSound] using h

theorem chain_succ {pm : List Byte} {i : Nat} {b : Block} (hb : blockAt pm i = some b) :
    chain pm (i + 1) = blockStep (chain pm i) b := by
  simp [chain, hb]

/-- At Acc, R holds all 64 rounds on the schedule of the block. -/
theorem r_eq_compress {s : State} {b : Block} (hw : s.wellFormed = true) (hp : s.phase = .blockLoop) (hs : s.sub = subAcc)
    (hb : blockAt s.pm s.blk = some b) : s.r = compress s.h (schedule b) := by
  obtain ⟨-, -, -, -, -, -, b', hb', hk⟩ := (wellFormed_blockLoop hp).1 hw
  obtain rfl : b = b' := Option.some.inj (hb.symm.trans hb')
  rw [blockWritten_acc hs, Bool.and_eq_true, scheduleWritten_all, beq_iff_eq] at hk
  obtain ⟨hsched, hr⟩ := hk
  rw [hr, hsched]

/-- At Acc, folding R into H gives the hash state after one more block. -/
theorem foldRegs_eq_chain {s : State} {pm : List Byte} (hw : s.wellFormed = true) (hp : s.phase = .blockLoop)
    (hs : s.sub = subAcc) (hpm : s.pm = pm) (hh : s.h = chain pm s.blk) :
    foldRegs s.h s.r = chain pm (s.blk + 1) := by
  obtain ⟨-, -, -, -, -, -, b, hb, -⟩ := (wellFormed_blockLoop hp).1 hw
  rw [chain_succ (hpm ▸ hb), blockStep, r_eq_compress hw hp hs hb, hh]

/-- Every operation keeps the call sound. -/
theorem sound_of_performs {s s' : State} {i : Instr} {c : Option Nat} (h : Performs c s i s') (hw : s.wellFormed = true)
    (hsound : Sound s) : Sound s' := by
  obtain ⟨m, hm⟩ := hsound
  cases h with
  | hash => exact sound_of_beforeLoop (.inr rfl)
  | padTooLong => exact sound_of_beforeLoop (.inl rfl)
  | pad message hp _ hl _ hlen =>
    obtain ⟨-, -, -, hiv⟩ := (wellFormed_padding hp).1 hw
    exact ⟨message, (callSound_blockLoop rfl).2 ⟨hlen, hl, by rw [pad, hlen], rfl, hiv⟩⟩
  | ldblk _ hp | schedMore hp | schedLast hp | ldwr hp | roundMore hp | roundLast hp =>
    exact ⟨m, (callSound_blockLoop rfl).2 ((callSound_blockLoop hp).1 hm)⟩
  | accMore hp hs =>
    obtain ⟨hlen, hl, hpm, hn, hh⟩ := (callSound_blockLoop hp).1 hm
    exact ⟨m, (callSound_blockLoop rfl).2 ⟨hlen, hl, hpm, hn, foldRegs_eq_chain hw hp hs hpm hh⟩⟩
  | accLast hp hs hlast =>
    obtain ⟨hlen, hl, hpm, hn, hh⟩ := (callSound_blockLoop hp).1 hm
    have hfinal : finalHash m = chain (pad m) (s.blk + 1) := by rw [finalHash, hlen, ← hn, hlast]
    exact ⟨m, (callSound_finalize rfl).2 ⟨hlen, hl, hfinal ▸ foldRegs_eq_chain hw hp hs hpm hh⟩⟩
  | digest hp => exact ⟨m, (callSound_finalize rfl).2 ((callSound_finalize hp).1 hm)⟩
  | hex hp hs =>
    obtain ⟨hlen, hl, hh⟩ := (callSound_finalize hp).1 hm
    obtain ⟨-, -, hraw | ⟨-, hd⟩⟩ := (wellFormed_finalize hp).1 hw
    · exact absurd (hraw.symm.trans hs) (by decide)
    · exact ⟨m, (callSound_digestReady rfl).2 ⟨hlen, hl, hh, hh ▸ hd, hh ▸ rfl⟩⟩

/-- Settles O44, by the cases of a step. -/
theorem stepKeepsSoundness : Obligations.StepKeepsSoundness := by
  rintro s s' - hsound h
  rcases step_cases h with ⟨-, rfl⟩ | ⟨-, -, rfl⟩ | ⟨-, -, -, rfl⟩ | ⟨-, hw, i, hd, he⟩
  · exact sound_of_beforeLoop (.inl rfl)
  · exact sound_of_beforeLoop (.inl rfl)
  · exact sound_afterPorts hsound
  · exact sound_of_performs (step_performs hw hd he) (State.afterPorts_wellFormed hw) (sound_afterPorts hsound)

end Sys2Proof.Machine

/-! What the host sees does not depend on the registers no rule has written (10_state.md R36, 70_reset_and_hazards.md R173). -/

namespace Sys2Proof.Machine

/-! ### DV and the digest the host sees -/

theorem done_iff {s : State} : s.done = true ↔ s.phase = .digestReady := by
  simp [State.done]

/-- DV is 1 in DigestReady and in no other phase (10_state.md R30). -/
theorem dv_eq_done {s : State} (hw : s.wellFormed = true) : s.dv = s.done := by
  cases hp : s.phase with
  | start =>
    obtain ⟨-, hdv⟩ := (wellFormed_start hp).1 hw
    simp [State.done, hp, hdv]
  | padding =>
    obtain ⟨-, hdv, -⟩ := (wellFormed_padding hp).1 hw
    simp [State.done, hp, hdv]
  | blockLoop =>
    obtain ⟨hdv, -⟩ := (wellFormed_blockLoop hp).1 hw
    simp [State.done, hp, hdv]
  | finalize =>
    obtain ⟨hdv, -⟩ := (wellFormed_finalize hp).1 hw
    simp [State.done, hp, hdv]
  | digestReady =>
    obtain ⟨-, hdv, -⟩ := (wellFormed_digestReady hp).1 hw
    simp [State.done, hp, hdv]

/-! ### What a host write does to the message of a waiting call -/

theorem ports_congr {s1 s2 : State} (h : s1.inputs = s2.inputs) : s1.ports = s2.ports := by
  simp only [State.ports, h]

theorem messageByte_congr {s1 s2 : State} (hdist : s1.disturbed = s2.disturbed) (hmsg : s1.msg = s2.msg) :
    s1.messageByte = s2.messageByte := by
  funext a
  simp only [State.messageByte, hdist, hmsg]

/-- The length of the message that PAD has still to read: of the call in Padding, or of the one an idle engine accepts now. -/
def State.waitingLen (s : State) : Option Nat :=
  match s.phase with
  | .start | .digestReady => s.ports.start
  | .padding => some s.len
  | .blockLoop | .finalize => none

/-- The state with the record of disturbed bytes of the waiting call, which begins anew at acceptance (log 7). -/
def State.recorded (s : State) : State :=
  if s.busy then s else { s with disturbed := [] }

@[simp] theorem State.recorded_msg (s : State) : s.recorded.msg = s.msg := by
  unfold State.recorded; split <;> rfl

@[simp] theorem State.recorded_draws (s : State) : s.recorded.draws = s.draws := by
  unfold State.recorded; split <;> rfl

theorem disturb_notWaiting {s : State} (h : s.waitingLen = none) : s.disturb s.ports = s := by
  cases hp : s.phase <;> simp_all [State.waitingLen, State.disturb]

theorem disturb_waiting_noWrite {s : State} {len : Nat} (h : s.waitingLen = some len) (hm : s.ports.msgWrite = none) :
    s.disturb s.ports = s.recorded := by
  cases hp : s.phase <;> simp_all [State.waitingLen, State.disturb, State.recorded, State.busy]

theorem disturb_waiting_write {s : State} {len : Nat} {c : Host.Cell} (h : s.waitingLen = some len)
    (hm : s.ports.msgWrite = some c) : s.disturb s.ports = s.recorded.disturbUnread len c := by
  cases hp : s.phase <;> simp_all [State.waitingLen, State.disturb, State.recorded, State.busy]

/-- What a write does to an unread message depends on the record, MSG and the draw counter alone. -/
theorem disturbUnread_congr {s1 s2 : State} (len : Nat) (c : Host.Cell) (hdist : s1.disturbed = s2.disturbed)
    (hmsg : s1.msg = s2.msg) (hdraws : s1.draws = s2.draws) :
    (s1.disturbUnread len c).disturbed = (s2.disturbUnread len c).disturbed ∧
      (s1.disturbUnread len c).draws = (s2.disturbUnread len c).draws := by
  unfold State.disturbUnread
  rw [messageByte_congr hdist hmsg, hdist, hdraws]
  split
  · exact ⟨rfl, rfl⟩
  · exact ⟨hdist, hdraws⟩

/-- `len` is the length of a message that waits for PAD, or that may yet come to. -/
def State.MayWait (s : State) (len : Nat) : Prop :=
  (s.phase = .padding ∧ s.len = len) ∨ ∃ q ∈ s.inputs, q.start = some len

/-- Every byte the host is still to write lies beyond every message that PAD is still to read. -/
def State.WritesOutside (s : State) : Prop :=
  ∀ len, s.MayWait len → ∀ p ∈ s.inputs, ∀ c : Host.Cell, p.msgWrite = some c → len ≤ c.1

/-- An instant that shows something is one of the list. -/
theorem ports_mem_inputs {s : State} (h : s.ports ≠ {}) : s.ports ∈ s.inputs := by
  cases hi : s.inputs with
  | nil => exact absurd (State.ports_eq_default hi) h
  | cons p rest => simp [State.ports_mem hi]

theorem mayWait_of_start {s : State} {len : Nat} (h : s.ports.start = some len) : s.MayWait len :=
  .inr ⟨s.ports, ports_mem_inputs fun he => by simp [he] at h, h⟩

theorem mayWait_of_waitingLen {s : State} {len : Nat} (h : s.waitingLen = some len) : s.MayWait len := by
  unfold State.waitingLen at h
  split at h
  · exact mayWait_of_start h
  · exact mayWait_of_start h
  · exact .inl ⟨‹_›, Option.some.inj h⟩
  · cases h
  · cases h

/-- A write at this instant lies beyond the message that waits. -/
theorem State.WritesOutside.now {s : State} {len : Nat} {c : Host.Cell} (h : s.WritesOutside)
    (hwait : s.waitingLen = some len) (hm : s.ports.msgWrite = some c) : len ≤ c.1 :=
  h len (mayWait_of_waitingLen hwait) s.ports (ports_mem_inputs fun he => by simp [he] at hm) c hm

/-! ### What a step leaves of the host's inputs and of the draws -/

theorem step_inputs {s s' : State} (h : step s = .next s') : s'.inputs = s.inputs.tail := by
  rcases step_cases h with ⟨-, rfl⟩ | ⟨-, -, rfl⟩ | ⟨-, -, -, rfl⟩ | ⟨-, hw, i, hd, he⟩
  · exact s.landed_inputs
  · exact s.landed_inputs
  · exact s.afterPorts_inputs
  · obtain ⟨-, -, hin, -⟩ := (step_performs hw hd he).hostUntouched
    rw [hin, s.afterPorts_inputs]

/-- A well-formed engine draws at a RESET, and otherwise only for a disturbed byte. -/
theorem step_draws {s s' : State} (hw : s.wellFormed = true) (h : step s = .next s') :
    s'.draws = if s.ports.reset then s.draws + 1 else (s.disturb s.ports).draws := by
  rcases step_cases h with ⟨hr, rfl⟩ | ⟨-, hbad, -⟩ | ⟨hr, -, -, rfl⟩ | ⟨hr, -, i, hd, he⟩
  · simp [hr]
  · rw [hw] at hbad
    cases hbad
  · simp [hr]
  · obtain ⟨-, -, -, -, hdraws⟩ := (step_performs hw hd he).hostUntouched
    simp [hr, hdraws]

/-- A call comes to Padding only by a command presented at the instant before, and stays there with its length. -/
theorem step_padding_len {s s' : State} (h : step s = .next s') (hp : s'.phase = .padding) :
    (s.phase = .padding ∧ s'.len = s.len) ∨ s.ports.start = some s'.len := by
  rcases step_cases h with ⟨-, rfl⟩ | ⟨-, -, rfl⟩ | ⟨-, -, -, rfl⟩ | ⟨-, hw, i, hd, he⟩
  · cases hp
  · cases hp
  · exact .inl (by simpa using hp)
  · cases step_performs hw hd he with
    | hash len hc => exact .inr hc
    | padTooLong | pad | ldblk | schedMore | schedLast | ldwr | roundMore | roundLast | accMore | accLast | digest | hex =>
      cases hp

theorem State.MayWait.of_step {s s' : State} {len : Nat} (h : step s = .next s') (hl : s'.MayWait len) : s.MayWait len := by
  rcases hl with ⟨hp, rfl⟩ | ⟨q, hq, hs⟩
  · rcases step_padding_len h hp with ⟨hp, hlen⟩ | hstart
    · exact .inl ⟨hp, hlen.symm⟩
    · exact mayWait_of_start hstart
  · rw [step_inputs h] at hq
    exact .inr ⟨q, List.mem_of_mem_tail hq, hs⟩

theorem State.WritesOutside.of_step {s s' : State} (h : s.WritesOutside) (hstep : step s = .next s') : s'.WritesOutside := by
  intro len hl p hp
  rw [step_inputs hstep] at hp
  exact h len (hl.of_step hstep) p (List.mem_of_mem_tail hp)

/-! ### Two engines alike in what can reach the host -/

/-- The registers of the phase from which the host's view still depends, beside those of `Alike`. R, W, D, X and the registers that
R36 calls dead are not among them: a well-formed state holds the first four as functions of the others. -/
def LiveAgree (s1 s2 : State) : Prop :=
  match s1.phase with
  | .start => True
  | .padding => s1.len = s2.len ∧ s1.disturbed = s2.disturbed
  | .blockLoop =>
    s1.pm = s2.pm ∧ s1.n = s2.n ∧ s1.blk = s2.blk ∧ s1.h = s2.h ∧ (s1.sub = subSched ∨ s1.sub = subRound → s1.t = s2.t)
  | .finalize | .digestReady => s1.h = s2.h

theorem liveAgree_start {s1 s2 : State} (hp : s1.phase = .start) : LiveAgree s1 s2 := by
  simp only [LiveAgree, hp]

theorem liveAgree_padding {s1 s2 : State} (hp : s1.phase = .padding) :
    LiveAgree s1 s2 ↔ s1.len = s2.len ∧ s1.disturbed = s2.disturbed := by
  simp only [LiveAgree, hp]

theorem liveAgree_blockLoop {s1 s2 : State} (hp : s1.phase = .blockLoop) :
    LiveAgree s1 s2 ↔ s1.pm = s2.pm ∧ s1.n = s2.n ∧ s1.blk = s2.blk ∧ s1.h = s2.h ∧
      (s1.sub = subSched ∨ s1.sub = subRound → s1.t = s2.t) := by
  simp only [LiveAgree, hp]

theorem liveAgree_hashed {s1 s2 : State} (hp : s1.phase = .finalize ∨ s1.phase = .digestReady) :
    LiveAgree s1 s2 ↔ s1.h = s2.h := by
  rcases hp with hp | hp <;> simp only [LiveAgree, hp]

/-- Two engines that agree on the sequencer, on FAULT, on what the host holds and presents, and on the live registers. -/
structure Alike (s1 s2 : State) : Prop where
  phase : s1.phase = s2.phase
  sub : s1.sub = s2.sub
  fault : s1.fault = s2.fault
  msg : s1.msg = s2.msg
  inputs : s1.inputs = s2.inputs
  live : LiveAgree s1 s2

/-- Two results that are alike: alike next states, or the same stop. -/
inductive AlikeResults : Result → Result → Prop where
  | next {t1 t2 : State} (h : Alike t1 t2) : AlikeResults (.next t1) (.next t2)
  | fault (r : Fault) : AlikeResults (.fault r) (.fault r)

/-- The draws agree, or no draw is ever read. -/
def DrawsAgree (s1 s2 : State) : Prop :=
  s1.draws = s2.draws ∨ s1.WritesOutside

theorem Alike.ports {s1 s2 : State} (h : Alike s1 s2) : s1.ports = s2.ports :=
  ports_congr h.inputs

theorem Alike.opWord {s1 s2 : State} (h : Alike s1 s2) : s1.opWord = s2.opWord := by
  simp only [State.opWord, State.seqc, h.phase, h.sub, h.ports]

theorem Alike.landed_msg {s1 s2 : State} (h : Alike s1 s2) : s1.landed.msg = s2.landed.msg := by
  unfold State.landed
  rw [h.ports]
  cases hm : s2.ports.msgWrite with
  | none => simp [State.hostWrite_none hm, h.msg]
  | some c => simp [State.hostWrite_some hm, h.msg]

/-- Two alike well-formed engines look the same to the host. -/
theorem Alike.hostView {s1 s2 : State} (h : Alike s1 s2) (hw1 : s1.wellFormed = true) (hw2 : s2.wellFormed = true) :
    s1.hostView = s2.hostView := by
  have hdv : s1.dv = s2.dv := by rw [dv_eq_done hw1, dv_eq_done hw2, State.done, State.done, h.phase]
  have hstatus : s1.status = s2.status := by simp only [State.status, h.phase, h.fault, hdv]
  rw [State.hostView, State.hostView, hstatus, hdv]
  split
  · rename_i hdv2
    have hp2 : s2.phase = .digestReady := by rwa [dv_eq_done hw2, done_iff] at hdv2
    have hp1 : s1.phase = .digestReady := h.phase.trans hp2
    obtain ⟨-, -, -, hd1, hx1⟩ := (wellFormed_digestReady hp1).1 hw1
    obtain ⟨-, -, -, hd2, hx2⟩ := (wellFormed_digestReady hp2).1 hw2
    rw [hd1, hd2, hx1, hx2, (liveAgree_hashed (.inr hp1)).1 h.live]
  · rfl

/-! ### The instant's ports -/

theorem Alike.waitingLen {s1 s2 : State} (h : Alike s1 s2) : s1.waitingLen = s2.waitingLen := by
  have hlive := h.live
  unfold State.waitingLen
  rw [← h.phase, ← h.ports]
  cases hp : s1.phase with
  | padding => simp [((liveAgree_padding hp).1 hlive).1]
  | start | blockLoop | finalize | digestReady => rfl

theorem Alike.recorded_disturbed {s1 s2 : State} {len : Nat} (h : Alike s1 s2) (hwait : s1.waitingLen = some len) :
    s1.recorded.disturbed = s2.recorded.disturbed := by
  have hlive := h.live
  unfold State.recorded State.busy
  rw [← h.phase]
  cases hp : s1.phase with
  | padding => exact ((liveAgree_padding hp).1 hlive).2
  | start | digestReady => rfl
  | blockLoop | finalize => simp [State.waitingLen, hp] at hwait

/-- What the host disturbs of a waiting call, it disturbs alike. -/
theorem Alike.disturb_disturbed {s1 s2 : State} {len : Nat} (h : Alike s1 s2) (hdraws : DrawsAgree s1 s2)
    (hwait : s1.waitingLen = some len) : (s1.disturb s1.ports).disturbed = (s2.disturb s2.ports).disturbed := by
  have hwait2 := h.waitingLen ▸ hwait
  have hrec := h.recorded_disturbed hwait
  cases hm : s1.ports.msgWrite with
  | none => rw [disturb_waiting_noWrite hwait hm, disturb_waiting_noWrite hwait2 (h.ports ▸ hm), hrec]
  | some c =>
    rw [disturb_waiting_write hwait hm, disturb_waiting_write hwait2 (h.ports ▸ hm)]
    rcases hdraws with hdraws | hout
    · exact (disturbUnread_congr len c hrec (by simp [h.msg]) (by simp [hdraws])).1
    · have hc := hout.now hwait hm
      rw [State.disturbUnread_outside hc, State.disturbUnread_outside hc, hrec]

/-- Where the draws agree, they agree after what the host disturbs. -/
theorem Alike.disturb_draws {s1 s2 : State} (h : Alike s1 s2) (hdraws : s1.draws = s2.draws) :
    (s1.disturb s1.ports).draws = (s2.disturb s2.ports).draws := by
  cases hwait : s1.waitingLen with
  | none => rw [disturb_notWaiting hwait, disturb_notWaiting (h.waitingLen ▸ hwait), hdraws]
  | some len =>
    have hwait2 := h.waitingLen ▸ hwait
    cases hm : s1.ports.msgWrite with
    | none => simp [disturb_waiting_noWrite hwait hm, disturb_waiting_noWrite hwait2 (h.ports ▸ hm), hdraws]
    | some c =>
      rw [disturb_waiting_write hwait hm, disturb_waiting_write hwait2 (h.ports ▸ hm)]
      exact (disturbUnread_congr len c (h.recorded_disturbed hwait) (by simp [h.msg]) (by simp [hdraws])).2

theorem Alike.afterPorts {s1 s2 : State} (h : Alike s1 s2) (hdraws : DrawsAgree s1 s2) :
    Alike s1.afterPorts s2.afterPorts where
  phase := by simpa using h.phase
  sub := by simpa using h.sub
  fault := by simpa using h.fault
  msg := by simpa using h.landed_msg
  inputs := by simp [h.inputs]
  live := by
    have hlive := h.live
    cases hp : s1.phase with
    | start => exact liveAgree_start (by simpa using hp)
    | padding =>
      have hwait : s1.waitingLen = some s1.len := by simp [State.waitingLen, hp]
      refine (liveAgree_padding (by simpa using hp)).2 ⟨by simpa using ((liveAgree_padding hp).1 hlive).1, ?_⟩
      simpa using h.disturb_disturbed hdraws hwait
    | blockLoop => exact (liveAgree_blockLoop (by simpa using hp)).2 (by simpa using (liveAgree_blockLoop hp).1 hlive)
    | finalize => exact (liveAgree_hashed (.inl (by simpa using hp))).2 (by simpa using (liveAgree_hashed (.inl hp)).1 hlive)
    | digestReady =>
      exact (liveAgree_hashed (.inr (by simpa using hp))).2 (by simpa using (liveAgree_hashed (.inr hp)).1 hlive)

/-! ### The operations -/

/-- Two alike engines that have an unread message in common read it alike, and stop at the same byte. -/
theorem Alike.execPad_results {s1 s2 : State} (h : Alike s1 s2) (hp : s1.phase = .padding) (hw1 : s1.wellFormed = true)
    (hw2 : s2.wellFormed = true) : AlikeResults (exec .pad s1) (exec .pad s2) := by
  obtain ⟨hlen, hdist⟩ := (liveAgree_padding hp).1 h.live
  by_cases hl : 2 ^ 64 ≤ 8 * s1.len
  · rw [execPad_tooLarge hl, execPad_tooLarge (hlen ▸ hl)]
    exact .next ⟨rfl, rfl, rfl, h.msg, h.inputs, liveAgree_start rfl⟩
  · have hread : readRange s1.messageByte 0 s1.len = readRange s2.messageByte 0 s2.len := by
      rw [messageByte_congr hdist h.msg, hlen]
    cases hr : readRange s1.messageByte 0 s1.len with
    | error a =>
      rw [execPad_absent hl hr, execPad_absent (hlen ▸ hl) (hread ▸ hr)]
      exact .fault _
    | ok message =>
      obtain ⟨-, -, -, hiv1⟩ := (wellFormed_padding hp).1 hw1
      obtain ⟨-, -, -, hiv2⟩ := (wellFormed_padding (h.phase ▸ hp)).1 hw2
      rw [execPad_ok hl hr, execPad_ok (hlen ▸ hl) (hread ▸ hr)]
      exact .next ⟨rfl, rfl, h.fault, h.msg, h.inputs, (liveAgree_blockLoop rfl).2
        ⟨by rw [hlen], by rw [hlen], rfl, hiv1.trans hiv2.symm, by simp⟩⟩

/-- In the block loop R and W follow from PM, BLK, H and T, so that nothing unwritten enters H. -/
theorem Alike.execAcc_results {s1 s2 : State} (h : Alike s1 s2) (hp : s1.phase = .blockLoop) (hs : s1.sub = subAcc)
    (hw1 : s1.wellFormed = true) (hw2 : s2.wellFormed = true) : AlikeResults (exec .acc s1) (exec .acc s2) := by
  obtain ⟨hpm, hn, hblk, hh, -⟩ := (liveAgree_blockLoop hp).1 h.live
  obtain ⟨-, -, -, -, -, -, b, hb, -⟩ := (wellFormed_blockLoop hp).1 hw1
  have hr : s1.r = s2.r := by
    rw [r_eq_compress hw1 hp hs hb, r_eq_compress hw2 (h.phase ▸ hp) (h.sub ▸ hs) (hpm ▸ hblk ▸ hb), hh]
  have hfold : foldRegs s1.h s1.r = foldRegs s2.h s2.r := by rw [hh, hr]
  by_cases hmore : s1.blk + 1 < s1.n
  · rw [execAcc_more hmore, execAcc_more (hn ▸ hblk ▸ hmore)]
    exact .next ⟨rfl, rfl, h.fault, h.msg, h.inputs, (liveAgree_blockLoop rfl).2 ⟨hpm, hn, by rw [hblk], hfold, by simp⟩⟩
  · rw [execAcc_last hmore, execAcc_last (hn ▸ hblk ▸ hmore)]
    exact .next ⟨rfl, rfl, h.fault, h.msg, h.inputs, (liveAgree_hashed (.inl rfl)).2 hfold⟩

/-- The operation that two alike well-formed engines select has alike results. The command is accepted with the same record of
disturbed bytes. -/
theorem Alike.exec_results {s1 s2 : State} {i : Instr} {c : Option Nat} (h : Alike s1 s2) (hw1 : s1.wellFormed = true)
    (hw2 : s2.wellFormed = true) (hd : decode { seqc := s1.seqc, command := c } = .ok i)
    (hcmd : s1.busy = false → c.isSome = true → s1.disturbed = s2.disturbed) :
    AlikeResults (exec i s1) (exec i s2) := by
  rcases wellFormed_selects c hw1 with ⟨hb, -, -, hsel⟩ | ⟨-, hp, -, hsel⟩ | ⟨-, hp, hs, hsel⟩ | ⟨-, hp, hs, hlo, hsel⟩ |
    ⟨-, hp, hs, hsel⟩ | ⟨-, hp, hs, hsel⟩ | ⟨-, hp, hs, hsel⟩ | ⟨-, hp, hs, hsel⟩ | ⟨-, hp, hs, hsel⟩ <;> rw [hsel] at hd
  · cases c with
    | none => cases hd
    | some len =>
      have hb2 : s2.busy = false := by rw [← hb, State.busy, State.busy, h.phase]
      obtain rfl : Instr.hash len = i := Except.ok.inj hd
      rw [execHash_idle len hb, execHash_idle len hb2]
      exact .next ⟨rfl, rfl, rfl, h.msg, h.inputs, (liveAgree_padding rfl).2 ⟨rfl, hcmd hb rfl⟩⟩
  all_goals cases hd
  · exact h.execPad_results hp hw1 hw2
  · obtain ⟨hpm, hn, hblk, hh, -⟩ := (liveAgree_blockLoop hp).1 h.live
    obtain ⟨-, -, -, -, -, -, b, hb, -⟩ := (wellFormed_blockLoop hp).1 hw1
    rw [execLdblk_ok hb, execLdblk_ok (hpm ▸ hblk ▸ hb)]
    exact .next ⟨rfl, rfl, h.fault, h.msg, h.inputs, (liveAgree_blockLoop rfl).2 ⟨hpm, hn, hblk, hh, fun _ => rfl⟩⟩
  · obtain ⟨hpm, hn, hblk, hh, ht⟩ := (liveAgree_blockLoop hp).1 h.live
    have ht := ht (.inl hs)
    by_cases hmore : s1.t.val < 63
    · rw [execSched_more hlo hmore, execSched_more (ht ▸ hlo) (ht ▸ hmore)]
      exact .next ⟨rfl, rfl, h.fault, h.msg, h.inputs,
        (liveAgree_blockLoop rfl).2 ⟨hpm, hn, hblk, hh, fun _ => by simp only [ht]⟩⟩
    · have hlast : s1.t.val = 63 := by omega
      rw [execSched_last hlast, execSched_last (ht ▸ hlast)]
      exact .next ⟨rfl, rfl, h.fault, h.msg, h.inputs, (liveAgree_blockLoop rfl).2 ⟨hpm, hn, hblk, hh, fun _ => ht⟩⟩
  · obtain ⟨hpm, hn, hblk, hh, -⟩ := (liveAgree_blockLoop hp).1 h.live
    rw [execLdwr_eq, execLdwr_eq]
    exact .next ⟨rfl, rfl, h.fault, h.msg, h.inputs, (liveAgree_blockLoop rfl).2 ⟨hpm, hn, hblk, hh, fun _ => rfl⟩⟩
  · obtain ⟨hpm, hn, hblk, hh, ht⟩ := (liveAgree_blockLoop hp).1 h.live
    have ht := ht (.inr hs)
    by_cases hmore : s1.t.val < 63
    · rw [execRound_more hmore, execRound_more (ht ▸ hmore)]
      exact .next ⟨rfl, rfl, h.fault, h.msg, h.inputs,
        (liveAgree_blockLoop rfl).2 ⟨hpm, hn, hblk, hh, fun _ => by simp only [ht]⟩⟩
    · have hlast : s1.t.val = 63 := by omega
      rw [execRound_last hlast, execRound_last (ht ▸ hlast)]
      exact .next ⟨rfl, rfl, h.fault, h.msg, h.inputs, (liveAgree_blockLoop rfl).2 ⟨hpm, hn, hblk, hh, fun _ => ht⟩⟩
  · exact h.execAcc_results hp hs hw1 hw2
  · have hh := (liveAgree_hashed (.inl hp)).1 h.live
    rw [execDigest_eq, execDigest_eq]
    exact .next ⟨rfl, rfl, h.fault, h.msg, h.inputs, (liveAgree_hashed (.inl rfl)).2 hh⟩
  · have hh := (liveAgree_hashed (.inl hp)).1 h.live
    rw [execHex_eq, execHex_eq]
    exact .next ⟨rfl, rfl, h.fault, h.msg, h.inputs, (liveAgree_hashed (.inr rfl)).2 hh⟩

/-! ### Steps and runs -/

theorem Alike.step_results {s1 s2 : State} (h : Alike s1 s2) (hw1 : s1.wellFormed = true) (hw2 : s2.wellFormed = true)
    (hdraws : DrawsAgree s1 s2) : AlikeResults (step s1) (step s2) := by
  cases hr : s1.ports.reset with
  | true =>
    rw [step_reset hr, step_reset (h.ports ▸ hr)]
    exact .next ⟨rfl, rfl, rfl, h.landed_msg, by simp [h.inputs], liveAgree_start rfl⟩
  | false =>
    have hr2 : s2.ports.reset = false := h.ports ▸ hr
    have ha := h.afterPorts hdraws
    rcases decode_wellFormed hw1 with ⟨i, hd⟩ | hd
    · rw [step_exec hr hw1 hd, step_exec hr2 hw2 (h.opWord ▸ hd)]
      refine ha.exec_results (State.afterPorts_wellFormed hw1) (State.afterPorts_wellFormed hw2) (c := s1.ports.start)
        (by simpa [State.opWord] using hd) fun hb hc => ?_
      obtain ⟨len, hlen⟩ := Option.isSome_iff_exists.1 hc
      have hwait : s1.waitingLen = some len := by
        unfold State.waitingLen
        cases hp : s1.phase with
        | start | digestReady => exact hlen
        | padding | blockLoop | finalize => simp [State.busy, hp] at hb
      simpa using h.disturb_disturbed hdraws hwait
    · rw [step_idle hr hw1 hd, step_idle hr2 hw2 (h.opWord ▸ hd)]
      exact .next ha

theorem Alike.drawsAgree_step {s1 s2 t1 t2 : State} (h : Alike s1 s2) (hw1 : s1.wellFormed = true)
    (hw2 : s2.wellFormed = true) (hdraws : DrawsAgree s1 s2) (hs1 : step s1 = .next t1)
    (hs2 : step s2 = .next t2) : DrawsAgree t1 t2 := by
  rcases hdraws with hdraws | hout
  · left
    rw [step_draws hw1 hs1, step_draws hw2 hs2, h.disturb_draws hdraws, hdraws, h.ports]
  · exact .inr (hout.of_step hs1)

/-- Two alike engines look the same to the host after every number of steps. -/
theorem Alike.viewOf_runSteps {s1 s2 : State} (k : Nat) (h : Alike s1 s2) (hw1 : s1.wellFormed = true)
    (hw2 : s2.wellFormed = true) (hdraws : DrawsAgree s1 s2) : viewOf (runSteps k s1) = viewOf (runSteps k s2) := by
  induction k generalizing s1 s2 with
  | zero => simp only [runSteps_zero, viewOf, h.hostView hw1 hw2]
  | succ k ih =>
    have hres := h.step_results hw1 hw2 hdraws
    generalize hs1 : step s1 = r1 at hres
    generalize hs2 : step s2 = r2 at hres
    cases hres with
    | next ht =>
      rw [runSteps_succ hs1, runSteps_succ hs2]
      exact ih ht (step_wellFormed hs1) (step_wellFormed hs2) (h.drawsAgree_step hw1 hw2 hdraws hs1 hs2)
    | fault r => simp only [runSteps, hs1, hs2]

/-- Settles O50: in Start nothing but FAULT and what is the host's is live. -/
theorem unwrittenRegistersNeverShow : Obligations.UnwrittenRegistersNeverShow := by
  intro s1 s2 hw1 hw2 hp1 hp2 hfault hmsg hinputs hdraws k
  obtain ⟨hs1, -⟩ := (wellFormed_start hp1).1 hw1
  obtain ⟨hs2, -⟩ := (wellFormed_start hp2).1 hw2
  have halike : Alike s1 s2 :=
    ⟨hp1.trans hp2.symm, hs1.trans hs2.symm, hfault, hmsg, hinputs, liveAgree_start hp1⟩
  refine halike.viewOf_runSteps k hw1 hw2 (hdraws.imp_right fun hout len hl p hp c hc => ?_)
  rcases hl with ⟨hp, -⟩ | ⟨q, hq, hstart⟩
  · rw [hp1] at hp
    cases hp
  · exact hout p hp c hc q hq len hstart

end Sys2Proof.Machine

/-! The registers of the engine (10_state.md R20 to R38): who writes them, which states are well-formed, the status lines and the
constant tables. -/

namespace Sys2Proof.Machine

/-! ### The status lines -/

theorem seqc_toNat (s : State) : s.seqc.toNat = 8 * (phaseCode s.phase).toNat + s.sub.toNat := by
  rw [State.seqc, BitVec.toNat_append, ← Nat.shiftLeft_add_eq_or_of_lt s.sub.isLt, Nat.shiftLeft_eq, Nat.mul_comm]

/-- Only an engine in Start holds a fault. -/
theorem fault_eq_none {s : State} (hw : s.wellFormed = true) (hp : s.phase ≠ .start) : s.fault = .none := by
  cases h : s.phase with
  | start => exact absurd h hp
  | padding =>
    obtain ⟨-, -, hf, -⟩ := (wellFormed_padding h).1 hw
    exact hf
  | blockLoop =>
    obtain ⟨-, hf, -⟩ := (wellFormed_blockLoop h).1 hw
    exact hf
  | finalize =>
    obtain ⟨-, hf, -⟩ := (wellFormed_finalize h).1 hw
    exact hf
  | digestReady =>
    obtain ⟨-, -, hf, -⟩ := (wellFormed_digestReady h).1 hw
    exact hf

theorem busy_iff {s : State} : s.busy = true ↔ s.phase = .padding ∨ s.phase = .blockLoop ∨ s.phase = .finalize := by
  cases hp : s.phase <;> simp [State.busy, hp]

theorem err_iff {s : State} : s.err = true ↔ s.fault ≠ .none := by
  simp [State.err]

/-- Settles O45: DV is DONE in a well-formed state, and the rest is read off the definitions. -/
theorem statusLinesFollowTheState : Obligations.StatusLinesFollowTheState := by
  intro s hw
  have hdv : s.dv = true ↔ s.phase = .digestReady := by rw [dv_eq_done hw, done_iff]
  refine ⟨hdv, (dv_eq_done hw).symm, busy_iff, err_iff, fun h => fault_eq_none hw ?_, rfl, ?_, ?_, seqc_toNat s⟩
  · rw [hdv.1 h]
    decide
  · cases hp : s.phase <;> simp [State.status, hp, phaseCode]
  · cases hf : s.fault <;> simp [State.status, hf, faultCode]

/-! ### Ill-formed states -/

/-- Settles O17: the fail-fast entry writes FAULT, PHASE, SUB and DV, and the host's byte lands. -/
theorem illFormedStateFailsFast : Obligations.IllFormedStateFailsFast := by
  intro s hr hw
  refine ⟨_, step_illFormed hr hw, rfl, rfl, rfl, rfl, ?_⟩
  rw [State.landed_eq]
  rfl

/-- The legal codes of a phase are those of its places (30_encoding.md R80). -/
theorem seqcLegal_singleSub {s : State} (hp : s.phase = .start ∨ s.phase = .padding ∨ s.phase = .digestReady) :
    seqcLegal s.seqc = true ↔ s.sub = 0 := by
  have codes : ∀ u : BitVec 3, (seqcLegal (0b000#3 ++ u) = true ↔ u = 0) ∧ (seqcLegal (0b001#3 ++ u) = true ↔ u = 0) ∧
    (seqcLegal (0b100#3 ++ u) = true ↔ u = 0) := by decide
  obtain ⟨hstart, hpadding, hready⟩ := codes s.sub
  rcases hp with hp | hp | hp <;> simpa only [State.seqc, hp, phaseCode]

theorem seqcLegal_blockLoop {s : State} (hp : s.phase = .blockLoop) :
    seqcLegal s.seqc = true ↔
      s.sub = subLoad ∨ s.sub = subSched ∨ s.sub = subInit ∨ s.sub = subRound ∨ s.sub = subAcc := by
  have codes : ∀ u : BitVec 3, seqcLegal (0b010#3 ++ u) = true ↔
    u = subLoad ∨ u = subSched ∨ u = subInit ∨ u = subRound ∨ u = subAcc := by decide
  simpa only [State.seqc, hp, phaseCode] using codes s.sub

theorem seqcLegal_finalize {s : State} (hp : s.phase = .finalize) :
    seqcLegal s.seqc = true ↔ s.sub = subRaw ∨ s.sub = subText := by
  have codes : ∀ u : BitVec 3, seqcLegal (0b011#3 ++ u) = true ↔ u = subRaw ∨ u = subText := by decide
  simpa only [State.seqc, hp, phaseCode] using codes s.sub

/-- What breaks 10_state.md R38 in W and R inside one pass of the block loop. -/
def State.BlockUnwritten (s : State) (b : Block) : Prop :=
  (s.sub = subSched ∧ ∃ j : Fin 64, j.val < s.t.val ∧ s.w[j] ≠ (schedule b)[j]) ∨
    ((s.sub = subInit ∨ s.sub = subRound ∨ s.sub = subAcc) ∧ s.w ≠ schedule b) ∨
    (s.sub = subRound ∧ s.r ≠ compressRounds s.h s.w s.t.val) ∨ (s.sub = subAcc ∧ s.r ≠ compress s.h s.w)

theorem blockWritten_iff {s : State} (b : Block)
    (hs : s.sub = subLoad ∨ s.sub = subSched ∨ s.sub = subInit ∨ s.sub = subRound ∨ s.sub = subAcc) :
    s.blockWritten b = true ↔ ¬ s.BlockUnwritten b := by
  unfold State.BlockUnwritten
  rcases hs with hs | hs | hs | hs | hs
  · simp [hs]
  · simp [scheduleWritten_iff_schedule, hs]
  · simp [scheduleWritten_all, hs]
  · simp [scheduleWritten_all, hs]
  · simp [scheduleWritten_all, hs]

theorem illFormed_start {s : State} (hp : s.phase = .start) :
    s.wellFormed = false ↔ seqcLegal s.seqc = false ∨ s.dv = true := by
  rw [← Bool.not_eq_true, wellFormed_start hp, ← seqcLegal_singleSub (.inl hp), not_and_or, Bool.not_eq_true,
    Bool.not_eq_false]

theorem illFormed_padding {s : State} (hp : s.phase = .padding) :
    s.wellFormed = false ↔ seqcLegal s.seqc = false ∨ s.dv = true ∨ s.fault ≠ .none ∨ s.h ≠ ivTable := by
  rw [← Bool.not_eq_true, wellFormed_padding hp, ← seqcLegal_singleSub (.inr (.inl hp))]
  simp only [not_and_or, Bool.not_eq_true, Bool.not_eq_false]

theorem illFormed_finalize {s : State} (hp : s.phase = .finalize) :
    s.wellFormed = false ↔
      seqcLegal s.seqc = false ∨ s.dv = true ∨ s.fault ≠ .none ∨ (s.sub = subText ∧ s.d ≠ digestBytes s.h) := by
  rw [← Bool.not_eq_true, wellFormed_finalize hp, ← Bool.not_eq_true (seqcLegal _), seqcLegal_finalize hp]
  by_cases hraw : s.sub = subRaw
  · simp [hraw, imp_iff_not_or]
  · by_cases htext : s.sub = subText
    · simp [htext, imp_iff_not_or]
    · exact iff_of_true (fun ⟨_, _, h⟩ => h.elim hraw fun h => htext h.1) (.inl fun h => h.elim hraw htext)

theorem illFormed_digestReady {s : State} (hp : s.phase = .digestReady) :
    s.wellFormed = false ↔
      seqcLegal s.seqc = false ∨ s.dv = false ∨ s.fault ≠ .none ∨ s.d ≠ digestBytes s.h ∨ s.x ≠ digestText s.h := by
  rw [← Bool.not_eq_true, wellFormed_digestReady hp, ← seqcLegal_singleSub (.inr (.inr hp))]
  simp only [not_and_or, Bool.not_eq_true]

/-- The places of the block loop are its legal codes, with T in the range of SCHED at Sched. -/
theorem loopPlace_iff {s : State} (hp : s.phase = .blockLoop) :
    s.LoopPlace ↔ seqcLegal s.seqc = true ∧ (s.sub = subSched → 16 ≤ s.t.val) := by
  rw [seqcLegal_blockLoop hp, State.LoopPlace]
  by_cases hs : s.sub = subSched
  · simp [hs]
  · simp only [hs, false_and, false_or, IsEmpty.forall_iff, and_true]

theorem illFormed_blockLoop {s : State} (hp : s.phase = .blockLoop) :
    s.wellFormed = false ↔
      seqcLegal s.seqc = false ∨
      (s.pm.length ≠ 64 * s.n ∨ s.n = 0 ∨ s.n ≤ s.blk ∨ (s.sub = subSched ∧ s.t.val < 16)) ∨
      s.dv = true ∨ s.fault ≠ .none ∨
      ∃ b, blockAt s.pm s.blk = some b ∧ s.BlockUnwritten b := by
  rw [← Bool.not_eq_true, not_iff_comm, wellFormed_blockLoop hp, loopPlace_iff hp]
  simp only [not_or, not_exists, not_and, Bool.not_eq_false, Bool.not_eq_true, ne_eq, not_not, not_lt, not_le]
  constructor
  · rintro ⟨hs, ⟨hlen, hn, hblk, ht⟩, hdv, hf, hwritten⟩
    obtain ⟨b, hb⟩ := exists_blockAt hlen hblk
    exact ⟨hdv, hf, Nat.one_le_iff_ne_zero.2 hn, hlen, hblk, ⟨hs, ht⟩, b, hb,
      (blockWritten_iff b ((seqcLegal_blockLoop hp).1 hs)).2 (hwritten b hb)⟩
  · rintro ⟨hdv, hf, hn, hlen, hblk, ⟨hs, ht⟩, b, hb, hk⟩
    refine ⟨hs, ⟨hlen, Nat.one_le_iff_ne_zero.1 hn, hblk, ht⟩, hdv, hf, fun b' hb' => ?_⟩
    obtain rfl : b = b' := Option.some.inj (hb.symm.trans hb')
    exact (blockWritten_iff b ((seqcLegal_blockLoop hp).1 hs)).1 hk

/-- Settles O16, phase by phase: of the listed conditions those remain that concern the phase. -/
theorem illFormedConditions : Obligations.IllFormedConditions := by
  intro s
  cases hp : s.phase with
  | start => simp [illFormed_start hp]
  | padding => simp [illFormed_padding hp]
  | blockLoop => simp [illFormed_blockLoop hp, State.BlockUnwritten]
  | finalize => simp [illFormed_finalize hp]
  | digestReady => simp [illFormed_digestReady hp]

/-! ### Who writes which register -/

/-- LDBLK writes the first sixteen words of W only. -/
theorem loadBlock_getElem_or (b : Block) (w : Vector Word 64) (j : Fin 64) :
    (loadBlock b w)[j.val] = w[j.val] ∨ j.val < 16 := by
  by_cases hj : j.val < 16
  · exact .inr hj
  · exact .inl (by simp [loadBlock, hj])

/-- SCHED, with T in its range, writes none of the first sixteen words of W. -/
theorem set_getElem_or {w : Vector Word 64} {t : Fin 64} (hlo : 16 ≤ t.val) (v : Word) (j : Fin 64) :
    (w.set t.val v t.isLt)[j.val] = w[j.val] ∨ 16 ≤ j.val := by
  by_cases hj : t.val = j.val
  · exact .inr (hj ▸ hlo)
  · exact .inl (by simp [hj])

/-- Settles O33, operation by operation. -/
theorem onlyNamedOperationsWrite : Obligations.OnlyNamedOperationsWrite := by
  intro s s' i hw hd he
  have h := performs_of_exec hw hd he
  have hhost := h.hostUntouched
  cases h with
  | hash | padTooLong | pad | accMore | accLast | hex => simpa using hhost
  | ldblk b hp => simpa [hp, loadBlock_getElem_or] using hhost
  | schedMore hp _ hlo => simpa [hp, set_getElem_or hlo] using hhost
  | schedLast hp _ ht => simpa [hp, set_getElem_or (ht ▸ by decide : 16 ≤ s.t.val)] using hhost
  | ldwr hp | roundMore hp | roundLast hp | digest hp => simpa [hp] using hhost

/-! ### The reset state and the constants -/

/-- Settles O19: Start is well-formed and no counted loop has ended there. -/
theorem resetStateIsIdle : Obligations.ResetStateIsIdle :=
  ⟨rfl, rfl, rfl, rfl, rfl, rfl, rfl, rfl, rfl, wellFormed_of_start rfl rfl rfl, State.loopEnded_of_start rfl⟩

/-- The whole part of the `k`-th root of a number below `20 ^ k`: the greatest `q` whose power does not exceed it. -/
def rootWhole (k p : Nat) : Fin 20 :=
  ⟨Nat.findGreatest (fun q => q ^ k ≤ p) 19, Nat.lt_succ_of_le (Nat.findGreatest_le 19)⟩

/-- Settles O7: with the whole part of each root computed, the bounds are a finite check of the two tables. -/
theorem constantsAreRootFractions : Obligations.ConstantsAreRootFractions :=
  ⟨fun i => ⟨rootWhole 2 primes64[i.val], by revert i; decide +kernel⟩,
    fun i => ⟨rootWhole 3 primes64[i], by revert i; decide +kernel⟩⟩

end Sys2Proof.Machine

/-! The message memory (20_memory.md): the host alone writes it, PAD alone reads it, and the digest ports show the digest or
nothing. -/

namespace Sys2Proof.Machine

/-! ### After PAD neither MSG nor the record of disturbed bytes is read (R56, R65) -/

/-- The state with other contents of MSG and of the record of disturbed bytes. -/
def State.withMemory (s : State) (msg disturbed : Memory) : State :=
  { s with msg := msg, disturbed := disturbed }

/-- The state with other contents of the memories, to which the host presents `inputs` instead. -/
def State.withHost (s : State) (msg disturbed : Memory) (inputs : List Ports) : State :=
  { s.withMemory msg disturbed with inputs := inputs }

/-- The conditions of 10_state.md R38 concern nothing of the host's. -/
theorem wellFormed_withHost (s : State) (msg disturbed : Memory) (inputs : List Ports) :
    (s.withHost msg disturbed inputs).wellFormed = s.wellFormed := rfl

theorem opWord_withHost {s : State} {msg disturbed : Memory} {inputs : List Ports}
    (h : (s.withHost msg disturbed inputs).ports.start = s.ports.start) :
    (s.withHost msg disturbed inputs).opWord = s.opWord := by
  rw [State.opWord, State.opWord, h]
  rfl

theorem landed_withHost {s : State} (msg disturbed : Memory) {inputs : List Ports} (h : inputs.tail = s.inputs.tail) :
    ∃ msg', (s.withHost msg disturbed inputs).landed = s.landed.withMemory msg' disturbed :=
  ⟨_, by rw [State.landed_eq (s.withHost msg disturbed inputs), State.landed_eq s, ← h]; rfl⟩

/-- Every operation but PAD answers a next state that does not depend on the memories, and leaves them as they are. -/
theorem exec_withMemory {i : Instr} (hi : i ≠ .pad) (s : State) (msg disturbed : Memory) :
    ∃ s', exec i s = .next s' ∧ exec i (s.withMemory msg disturbed) = .next (s'.withMemory msg disturbed) := by
  cases i with
  | pad => exact absurd rfl hi
  | hash len =>
    cases hb : s.busy with
    | true => exact ⟨_, execHash_busy len hb, execHash_busy len hb⟩
    | false => exact ⟨_, execHash_idle len hb, execHash_idle len hb⟩
  | ldblk =>
    cases hb : blockAt s.pm s.blk with
    | none => exact ⟨_, execLdblk_out hb, execLdblk_out hb⟩
    | some b => exact ⟨_, execLdblk_ok hb, execLdblk_ok hb⟩
  | sched =>
    by_cases hlo : 16 ≤ s.t.val
    · by_cases hmore : s.t.val < 63
      · exact ⟨_, execSched_more hlo hmore, execSched_more (s := s.withMemory msg disturbed) hlo hmore⟩
      · have hlast : s.t.val = 63 := by omega
        exact ⟨_, execSched_last hlast, execSched_last hlast⟩
    · exact ⟨_, execSched_out hlo, execSched_out hlo⟩
  | ldwr => exact ⟨_, execLdwr_eq s, execLdwr_eq _⟩
  | round =>
    by_cases hmore : s.t.val < 63
    · exact ⟨_, execRound_more hmore, execRound_more (s := s.withMemory msg disturbed) hmore⟩
    · have hlast : s.t.val = 63 := by omega
      exact ⟨_, execRound_last hlast, execRound_last (s := s.withMemory msg disturbed) hlast⟩
  | acc =>
    by_cases hmore : s.blk + 1 < s.n
    · exact ⟨_, execAcc_more hmore, execAcc_more hmore⟩
    · exact ⟨_, execAcc_last hmore, execAcc_last hmore⟩
  | digest => exact ⟨_, execDigest_eq s, execDigest_eq _⟩
  | hex => exact ⟨_, execHex_eq s, execHex_eq _⟩

/-- PAD is selected in Padding alone. -/
theorem phase_of_decode_pad {s : State} (hw : s.wellFormed = true) (hd : decode s.opWord = .ok .pad) : s.phase = .padding := by
  have hd : decode { seqc := s.seqc, command := s.ports.start } = .ok .pad := hd
  rcases wellFormed_selects s.ports.start hw with ⟨-, -, -, h⟩ | ⟨-, hp, -, -⟩ | ⟨-, -, -, h⟩ | ⟨-, -, -, -, h⟩ |
    ⟨-, -, -, h⟩ | ⟨-, -, -, h⟩ | ⟨-, -, -, h⟩ | ⟨-, -, -, h⟩ | ⟨-, -, -, h⟩
  · rw [h] at hd
    cases hc : s.ports.start <;> rw [hc] at hd <;> cases hd
  · exact hp
  all_goals
    rw [h] at hd
    cases hd

/-- After PAD the operation runs on the state in which the host's byte has landed. -/
theorem State.afterPorts_afterPad {s : State} (h : s.phase = .blockLoop ∨ s.phase = .finalize) : s.afterPorts = s.landed := by
  rw [State.afterPorts, State.disturb_afterPad _ h, State.landed]

/-- After PAD the step depends neither on the memories nor on what the host writes: what lands is the same but for MSG, and so is
what RESET, the check of the state and the selected operation make of it. -/
theorem step_withHost_afterPad {s : State} {inputs : List Ports} (msg disturbed : Memory)
    (hp : s.phase = .blockLoop ∨ s.phase = .finalize)
    (hreset : (s.withHost msg disturbed inputs).ports.reset = s.ports.reset)
    (hstart : (s.withHost msg disturbed inputs).ports.start = s.ports.start) (htail : inputs.tail = s.inputs.tail) :
    ∃ s' msg', step s = .next s' ∧ step (s.withHost msg disturbed inputs) = .next (s'.withMemory msg' disturbed) := by
  obtain ⟨msg', hland⟩ := landed_withHost msg disturbed htail
  have hwf := wellFormed_withHost s msg disturbed inputs
  cases hr : s.ports.reset with
  | true => exact ⟨_, msg', step_reset hr, by rw [step_reset (hreset.trans hr), hland]; rfl⟩
  | false =>
    have hr' := hreset.trans hr
    cases hw : s.wellFormed with
    | false => exact ⟨_, msg', step_illFormed hr hw, by rw [step_illFormed hr' (hwf.trans hw), hland]; rfl⟩
    | true =>
      have hw' := hwf.trans hw
      have hop := opWord_withHost hstart
      have hafter := State.afterPorts_afterPad hp
      have hafter' := (State.afterPorts_afterPad (s := s.withHost msg disturbed inputs) hp).trans hland
      rcases decode_wellFormed hw with ⟨i, hd⟩ | hd
      · have hi : i ≠ .pad := by
          rintro rfl
          simp [phase_of_decode_pad hw hd] at hp
        obtain ⟨s', hs, ht⟩ := exec_withMemory hi s.landed msg' disturbed
        exact ⟨s', msg', by rw [step_exec hr hw hd, hafter, hs], by rw [step_exec hr' hw' (hop ▸ hd), hafter', ht]⟩
      · exact ⟨_, msg', step_idle hr hw hd, by rw [step_idle hr' hw' (hop ▸ hd), hafter, hafter']⟩

/-- Settles O41: an instant that shows another host write shows the same RESET and command. -/
theorem lateMessageChangeIsNotSeen : Obligations.LateMessageChangeIsNotSeen := by
  intro s msg disturbed p rest write hp hin
  have hports := State.ports_mem hin
  exact step_withHost_afterPad msg disturbed hp (inputs := { p with msgWrite := write } :: rest) (by rw [hports]; rfl)
    (by rw [hports]; rfl) (by rw [hin]; rfl)

/-! ### Who writes MSG (R50) -/

/-- Settles O48: a step leaves in MSG what has landed there. -/
theorem engineNeverWritesMessageMemory : Obligations.EngineNeverWritesMessageMemory := by
  constructor
  · intro s s' a h hne
    rw [step_msg h, State.landed_read hne]
  · intro s s' c h hc
    rw [step_msg h, State.landed_read_written hc]

/-! ### Host reads of D and X (R57, R61) -/

theorem hostReadD_valid {s : State} (j : Fin 32) (h : s.dv = true) : s.hostReadD j = (s.d[j], s) :=
  if_pos h

theorem hostReadD_invalid {s : State} (j : Fin 32) (h : s.dv = false) :
    s.hostReadD j = (Config.freeReadD s.draws j, { s with draws := s.draws + 1 }) := by
  simp [State.hostReadD, h]

theorem hostReadX_valid {s : State} (k : Fin 64) (h : s.dv = true) : s.hostReadX k = (s.x[k], s) :=
  if_pos h

theorem hostReadX_invalid {s : State} (k : Fin 64) (h : s.dv = false) :
    s.hostReadX k = (Config.freeReadX s.draws k, { s with draws := s.draws + 1 }) := by
  simp [State.hostReadX, h]

/-- Settles O47: the stored byte while DV is 1, a draw of the counter while it is 0. -/
theorem hostReadsGiveDigestOrNothing : Obligations.HostReadsGiveDigestOrNothing := by
  refine ⟨fun s j k hdv => ⟨hostReadD_valid j hdv, hostReadX_valid k hdv⟩, fun s1 s2 j k h1 h2 hdraws => ?_,
    fun s j k => ?_⟩
  · rw [hostReadD_invalid j h1, hostReadD_invalid j h2, hostReadX_invalid k h1, hostReadX_invalid k h2, hdraws]
    exact ⟨rfl, rfl⟩
  · cases hdv : s.dv with
    | true =>
      rw [hostReadD_valid j hdv, hostReadX_valid k hdv]
      exact ⟨rfl, rfl⟩
    | false =>
      rw [hostReadD_invalid j hdv, hostReadX_invalid k hdv]
      exact ⟨rfl, rfl⟩

end Sys2Proof.Machine

/-! The decoder of the operation map (30_encoding.md R80, R81) and its encoder. -/

namespace Sys2Proof.Machine

/-! ### The codes -/

/-- The two codes of HASH's row are the idle ones. -/
theorem tableRow_hash_iff (c : BitVec 6) (len : Nat) :
    seqcLegal c = true ∧ c &&& tableMask (.hash len) = tableMatch (.hash len) ↔ seqcIdle c = true := by
  simp only [tableMask, tableMatch]
  revert c
  decide

/-- A row other than HASH's has one code. -/
theorem tableRow_other_iff (c : BitVec 6) {i : Instr} (hi : ∀ len, i ≠ .hash len) :
    seqcLegal c = true ∧ c &&& tableMask i = tableMatch i ↔ c = tableMatch i := by
  cases i with
  | hash len => exact absurd rfl (hi len)
  | pad | ldblk | sched | ldwr | round | acc | digest | hex =>
    revert c
    decide

theorem seqcLegal_of_idle {c : BitVec 6} (h : seqcIdle c = true) : seqcLegal c = true := by
  revert c
  decide

theorem seqcIdle_tableMatch {i : Instr} (hi : ∀ len, i ≠ .hash len) : seqcIdle (tableMatch i) = false := by
  cases i with
  | hash len => exact absurd rfl (hi len)
  | pad | ldblk | sched | ldwr | round | acc | digest | hex => rfl

theorem seqcLegal_tableMatch {i : Instr} (hi : ∀ len, i ≠ .hash len) : seqcLegal (tableMatch i) = true := by
  obtain ⟨h, -⟩ := (tableRow_other_iff _ hi).2 rfl
  exact h

theorem seqcIdle_of_reserved {c : BitVec 6} (h : seqcLegal c = false) : seqcIdle c = false := by
  rw [← Bool.not_eq_true] at h ⊢
  exact fun hi => h (seqcLegal_of_idle hi)

/-! ### The decoder, code by code -/

theorem decode_idle {o : OpWord} (h : seqcIdle o.seqc = true) : decode o = decodeIdle o.command := by
  obtain ⟨c, command⟩ := o
  have hc : c = 0b000000#6 ∨ c = 0b100000#6 := by simpa [seqcIdle] using h
  rcases hc with rfl | rfl <;> rfl

/-- Outside HASH's row the command port is not looked at. -/
theorem decode_tableMatch {i : Instr} (hi : ∀ len, i ≠ .hash len) (command : Option Nat) :
    decode { seqc := tableMatch i, command := command } = .ok i := by
  cases i with
  | hash len => exact absurd rfl (hi len)
  | pad | ldblk | sched | ldwr | round | acc | digest | hex => rfl

theorem decode_reserved {o : OpWord} (h : seqcLegal o.seqc = false) : decode o = .error (.reservedCode o.seqc) := by
  obtain ⟨c, command⟩ := o
  have hne : c ≠ 0b000000#6 ∧ c ≠ 0b100000#6 ∧ c ≠ 0b001000#6 ∧ c ≠ 0b010000#6 ∧ c ≠ 0b010001#6 ∧ c ≠ 0b010010#6 ∧
      c ≠ 0b010011#6 ∧ c ≠ 0b010100#6 ∧ c ≠ 0b011000#6 ∧ c ≠ 0b011001#6 := by
    simpa [seqcLegal, and_assoc] using h
  simp only [ne_eq, BitVec.toNat_eq] at hne
  unfold decode
  split <;> simp_all

/-- Every word is at an idle code, at the one code of another operation, or at a reserved code. -/
theorem decode_cases (o : OpWord) :
    (seqcIdle o.seqc = true ∧ decode o = decodeIdle o.command) ∨
    (∃ i, (∀ len, i ≠ .hash len) ∧ o.seqc = tableMatch i ∧ decode o = .ok i) ∨
    (seqcLegal o.seqc = false ∧ decode o = .error (.reservedCode o.seqc)) := by
  obtain ⟨c, command⟩ := o
  have hcover : seqcIdle c = true ∨ seqcLegal c = false ∨
      c ∈ [Instr.pad, .ldblk, .sched, .ldwr, .round, .acc, .digest, .hex].map tableMatch := by
    revert c
    decide
  rcases hcover with h | h | h
  · exact .inl ⟨h, decode_idle h⟩
  · exact .inr (.inr ⟨h, decode_reserved h⟩)
  · obtain ⟨i, hmem, rfl⟩ := List.mem_map.1 h
    have hi : ∀ len, i ≠ .hash len := by
      rintro len rfl
      simp at hmem
    exact .inr (.inl ⟨i, hi, rfl, decode_tableMatch hi command⟩)

theorem decodeIdle_eq_ok {c : Option Nat} {i : Instr} : decodeIdle c = .ok i ↔ ∃ len, c = some len ∧ i = .hash len := by
  cases c <;> simp [decodeIdle, eq_comm]

theorem decodeIdle_eq_error {c : Option Nat} {e : DecodeError} : decodeIdle c = .error e ↔ c = none ∧ e = .noCommand := by
  cases c <;> simp [decodeIdle, eq_comm]

theorem decode_eq_hash_iff {o : OpWord} {len : Nat} :
    decode o = .ok (.hash len) ↔ seqcIdle o.seqc = true ∧ o.command = some len := by
  rcases decode_cases o with ⟨h, hd⟩ | ⟨j, hj, h, hd⟩ | ⟨h, hd⟩
  · simp [hd, h, decodeIdle_eq_ok]
  · simp [hd, h, hj len, seqcIdle_tableMatch hj]
  · simp [hd, seqcIdle_of_reserved h]

theorem decode_eq_other_iff {o : OpWord} {i : Instr} (hi : ∀ len, i ≠ .hash len) :
    decode o = .ok i ↔ o.seqc = tableMatch i := by
  constructor
  · intro hd'
    rcases decode_cases o with ⟨-, hd⟩ | ⟨j, -, h, hd⟩ | ⟨-, hd⟩
    · obtain ⟨len, -, rfl⟩ := decodeIdle_eq_ok.1 (hd.symm.trans hd')
      exact absurd rfl (hi len)
    · obtain rfl : j = i := Except.ok.inj (hd.symm.trans hd')
      exact h
    · cases hd.symm.trans hd'
  · obtain ⟨c, command⟩ := o
    rintro rfl
    exact decode_tableMatch hi command

/-- A word is well-formed exactly when it selects an operation. -/
theorem wellFormed_iff_decodes (o : OpWord) : o.wellFormed = true ↔ ∃ i, decode o = .ok i := by
  rcases decode_cases o with ⟨h, hd⟩ | ⟨i, hi, h, hd⟩ | ⟨h, hd⟩
  · simp [OpWord.wellFormed, hd, h, seqcLegal_of_idle h, decodeIdle_eq_ok, Option.isSome_iff_exists]
  · simp [OpWord.wellFormed, hd, h, seqcLegal_tableMatch hi, seqcIdle_tableMatch hi]
  · simp [OpWord.wellFormed, hd, h]

/-- The reserved codes are those refused by name. -/
theorem seqcLegal_false_iff (o : OpWord) : seqcLegal o.seqc = false ↔ decode o = .error (.reservedCode o.seqc) := by
  rcases decode_cases o with ⟨h, hd⟩ | ⟨i, hi, h, hd⟩ | ⟨h, hd⟩
  · simp [hd, seqcLegal_of_idle h, decodeIdle_eq_error]
  · simp [hd, h, seqcLegal_tableMatch hi]
  · simp [hd, h]

/-- A command is missing at the idle codes alone. -/
theorem idle_noCommand_iff (o : OpWord) :
    (seqcIdle o.seqc = true ∧ o.command = none) ↔ decode o = .error .noCommand := by
  rcases decode_cases o with ⟨h, hd⟩ | ⟨i, hi, h, hd⟩ | ⟨h, hd⟩
  · simp [hd, h, decodeIdle_eq_error]
  · simp [hd, h, seqcIdle_tableMatch hi]
  · simp [hd, seqcIdle_of_reserved h]

/-! ### The statements -/

/-- Settles O8: HASH's row holds the two idle codes and asks for a command, every other row holds one code. -/
theorem operationMapRoundTrip : Obligations.OperationMapRoundTrip := by
  refine ⟨fun i _ => ?_, fun len => rfl, fun o i => ?_⟩
  · cases i <;> rfl
  · rw [← and_assoc]
    cases i with
    | hash len => simp [tableRow_hash_iff, decode_eq_hash_iff]
    | pad | ldblk | sched | ldwr | round | acc | digest | hex => simp [tableRow_other_iff, decode_eq_other_iff]

/-- Settles O9, by the three kinds of word; the reserved codes are counted. -/
theorem decoderRefusesEveryOtherWord : Obligations.DecoderRefusesEveryOtherWord :=
  ⟨wellFormed_iff_decodes, seqcLegal_false_iff, idle_noCommand_iff, by decide⟩

/-- Settles O10, by running the decoder on each word. -/
theorem tableWordsDecode : Obligations.TableWordsDecode := by
  unfold Obligations.TableWordsDecode
  decide

end Sys2Proof.Machine

/-! The trace of a call (30_encoding.md R83, R84): runs that perform one operation at each step, composed from the operations up. -/

namespace Sys2Proof.Machine

/-! ### Runs and traces -/

theorem traceSteps_succ {s s' : State} {i : Instr} (k : Nat) (h : step s = .next s') (hop : s.nextOp = some i) :
    traceSteps (k + 1) s = traceOf s i :: traceSteps k s' := by
  simp [traceSteps, h, hop]

/-- The run from `s` to `s'` performs one operation at each step, those of `ops` in order. -/
def Performed : List TraceOp → State → State → Prop
  | [], s, s' => s' = s
  | op :: ops, s, s' => ∃ t i, step s = .next t ∧ s.nextOp = some i ∧ traceOf s i = op ∧ Performed ops t s'

theorem Performed.append {ops ops' : List TraceOp} {s t u : State} (h : Performed ops s t) (h' : Performed ops' t u) :
    Performed (ops ++ ops') s u := by
  induction ops generalizing s with
  | nil => exact h ▸ h'
  | cons op ops ih =>
    obtain ⟨s', i, hstep, hop, htr, h⟩ := h
    exact ⟨s', i, hstep, hop, htr, ih h⟩

theorem Performed.runSteps {ops : List TraceOp} {s s' : State} (h : Performed ops s s') :
    runSteps ops.length s = .next s' := by
  induction ops generalizing s with
  | nil => rw [show s' = s from h]; rfl
  | cons op ops ih =>
    obtain ⟨t, i, hstep, -, -, h⟩ := h
    rw [List.length_cons, runSteps_succ hstep, ih h]

theorem Performed.traceSteps {ops : List TraceOp} {s s' : State} (h : Performed ops s s') :
    traceSteps ops.length s = ops := by
  induction ops generalizing s with
  | nil => rfl
  | cons op ops ih =>
    obtain ⟨t, i, hstep, hop, htr, h⟩ := h
    rw [List.length_cons, traceSteps_succ _ hstep hop, htr, ih h]

/-- Each step of a run consumes one instant of the host. -/
theorem Performed.inputs {ops : List TraceOp} {s s' : State} (h : Performed ops s s') :
    s'.inputs = s.inputs.drop ops.length := by
  induction ops generalizing s with
  | nil => rw [show s' = s from h]; rfl
  | cons op ops ih =>
    obtain ⟨t, i, hstep, -, -, h⟩ := h
    rw [ih h, step_inputs hstep, List.length_cons, ← List.drop_one, List.drop_drop, Nat.add_comm]

/-! ### A calculus of runs -/

/-- From every state with `P`, while the host keeps `duty` at each instant, the engine performs `ops` and comes to a state with `Q`. -/
def Leads (duty : Ports → Prop) (ops : List TraceOp) (P Q : State → Prop) : Prop :=
  ∀ s, P s → (∀ p, p ∈ s.inputs.take ops.length → duty p) → ∃ s', Performed ops s s' ∧ Q s'

/-- What a host that presents nothing keeps, and that excludes RESET. -/
structure NoReset (duty : Ports → Prop) : Prop where
  nothing : duty {}
  reset : ∀ p, duty p → p.reset = false

theorem noReset_quiet (len : Nat) : NoReset (Quiet len) :=
  ⟨quiet_default len, fun _ h => h.1⟩

section
variable {duty : Ports → Prop} {P Q R : State → Prop} {ops ops' : List TraceOp}

theorem Leads.nil : Leads duty [] P P :=
  fun s h _ => ⟨s, rfl, h⟩

theorem Leads.append (h : Leads duty ops P Q) (h' : Leads duty ops' Q R) : Leads duty (ops ++ ops') P R := by
  intro s hs hduty
  rw [List.length_append, List.take_add] at hduty
  obtain ⟨t, ht, hq⟩ := h s hs fun p hp => hduty p (List.mem_append_left _ hp)
  obtain ⟨u, hu, hr⟩ := h' t hq fun p hp => hduty p (List.mem_append_right _ (ht.inputs ▸ hp))
  exact ⟨u, ht.append hu, hr⟩

theorem Leads.cons {op : TraceOp} (h : Leads duty [op] P Q) (h' : Leads duty ops Q R) : Leads duty (op :: ops) P R :=
  h.append h'

/-- Counted parts of a run, one after the other. -/
theorem Leads.flatMap_range {P : Nat → State → Prop} {f : Nat → List TraceOp} {m : Nat}
    (h : ∀ k, k < m → Leads duty (f k) (P k) (P (k + 1))) : Leads duty ((List.range m).flatMap f) (P 0) (P m) := by
  induction m with
  | zero => exact Leads.nil
  | succ m ih =>
    rw [List.range_succ, List.flatMap_append, List.flatMap_singleton]
    exact (ih fun k hk => h k (Nat.lt_succ_of_lt hk)).append (h m (Nat.lt_succ_self m))

theorem Leads.map_range {P : Nat → State → Prop} {f : Nat → TraceOp} {m : Nat}
    (h : ∀ k, k < m → Leads duty [f k] (P k) (P (k + 1))) : Leads duty ((List.range m).map f) (P 0) (P m) := by
  rw [List.map_eq_flatMap]
  exact Leads.flatMap_range h

/-- One step: in a well-formed state the selected operation runs on the state behind the ports. -/
theorem Leads.step (hduty : NoReset duty) {op : TraceOp} {i : Instr}
    (h : ∀ s, P s → duty s.ports → s.wellFormed = true ∧ decode s.opWord = .ok i ∧ traceOf s i = op ∧
      ∃ s', exec i s.afterPorts = .next s' ∧ (s'.wellFormed = true → Q s')) : Leads duty [op] P Q := by
  intro s hs hd
  have hport : duty s.ports := by
    cases hin : s.inputs with
    | nil => exact State.ports_eq_default hin ▸ hduty.nothing
    | cons p rest => exact State.ports_mem hin ▸ hd p (by simp [hin])
  obtain ⟨hw, hdec, htr, s', he, hq⟩ := h s hs hport
  have hr := hduty.reset _ hport
  have hstep : Machine.step s = .next s' := by rw [step_exec hr hw hdec, he]
  have hop : s.nextOp = some i := by simp [State.nextOp, hr, hw, hdec]
  exact ⟨s', ⟨s', i, hstep, hop, htr, rfl⟩, hq (step_wellFormed hstep)⟩

end

/-! ### The places of a call -/

/-- The engine is in the block loop at SUB = `sub`, in pass `blk` of `n`. -/
structure State.InLoop (n blk : Nat) (sub : BitVec 3) (s : State) : Prop where
  wf : s.wellFormed = true
  phase : s.phase = .blockLoop
  n : s.n = n
  blk : s.blk = blk
  sub : s.sub = sub

/-- In a counted loop at SUB = `sub` with T = `t`, or, after T = 63, at the place `next` behind the loop. -/
def State.Counting (n blk : Nat) (sub next : BitVec 3) (t : Nat) (s : State) : Prop :=
  if t < 64 then s.InLoop n blk sub ∧ s.t.val = t else s.InLoop n blk next

theorem counting_running {n blk t : Nat} {sub next : BitVec 3} (h : t < 64) :
    State.Counting n blk sub next t = fun s => s.InLoop n blk sub ∧ s.t.val = t :=
  funext fun _ => if_pos h

theorem counting_over {n blk t : Nat} {sub next : BitVec 3} (h : ¬ t < 64) :
    State.Counting n blk sub next t = State.InLoop n blk next :=
  funext fun _ => if_neg h

/-- The engine is in Finalize at SUB = `sub`. -/
structure State.Finalizing (sub : BitVec 3) (s : State) : Prop where
  wf : s.wellFormed = true
  phase : s.phase = .finalize
  sub : s.sub = sub

/-- Before pass `i` of `n`, or, after the last one, at the first place of Finalize. -/
def State.BlockDue (n i : Nat) (s : State) : Prop :=
  if i < n then s.InLoop n i subLoad else s.Finalizing subRaw

theorem blockDue_more {n i : Nat} (h : i < n) : State.BlockDue n i = State.InLoop n i subLoad :=
  funext fun _ => if_pos h

theorem blockDue_last {n i : Nat} (h : ¬ i < n) : State.BlockDue n i = State.Finalizing subRaw :=
  funext fun _ => if_neg h

/-- The engine is idle, and a command for a message in MSG is presented. -/
structure State.Called (message : List Byte) (s : State) : Prop where
  wf : s.wellFormed = true
  idle : s.busy = false
  start : s.ports.start = some message.length
  holds : s.msg.Holds message

/-- The engine is in Padding, and PAD will read the message. -/
structure State.Padding (message : List Byte) (s : State) : Prop where
  wf : s.wellFormed = true
  phase : s.phase = .padding
  len : s.len = message.length
  reads : s.ReadsAs message

/-- The call has ended. -/
structure State.Ready (s : State) : Prop where
  wf : s.wellFormed = true
  phase : s.phase = .digestReady

/-! ### The operations of a call -/

theorem seqcIdle_of_notBusy {s : State} (hw : s.wellFormed = true) (hb : s.busy = false) : seqcIdle s.seqc = true := by
  cases hp : s.phase with
  | start =>
    obtain ⟨hs, -⟩ := (wellFormed_start hp).1 hw
    rw [State.seqc, hp, hs]
    rfl
  | digestReady =>
    obtain ⟨hs, -⟩ := (wellFormed_digestReady hp).1 hw
    rw [State.seqc, hp, hs]
    rfl
  | padding | blockLoop | finalize => simp [State.busy, hp] at hb

section
variable {duty : Ports → Prop} (hduty : NoReset duty) {n blk : Nat}
include hduty

theorem leads_ldblk : Leads duty [.ldblk blk] (State.InLoop n blk subLoad) (State.Counting n blk subSched subInit 16) := by
  rw [counting_running (by decide)]
  refine .step hduty (i := .ldblk) fun s h _ => ⟨h.wf, decode_load _ h.phase h.sub, by simp [traceOf, h.blk], ?_⟩
  obtain ⟨-, -, -, -, -, -, b, hb, -⟩ := (wellFormed_blockLoop h.phase).1 h.wf
  exact ⟨_, execLdblk_ok (by simpa using hb), fun hw => ⟨⟨hw, rfl, by simp [h.n], by simp [h.blk], rfl⟩, rfl⟩⟩

theorem leads_sched {t : Nat} (hlo : 16 ≤ t) (hhi : t < 64) :
    Leads duty [.sched t] (State.Counting n blk subSched subInit t) (State.Counting n blk subSched subInit (t + 1)) := by
  rw [counting_running hhi]
  refine .step hduty (i := .sched) fun s ⟨h, ht⟩ _ => ⟨h.wf, decode_sched _ h.phase h.sub, by simp [traceOf, ht], ?_⟩
  by_cases hmore : t + 1 < 64
  · refine ⟨_, execSched_more (by simp [ht, hlo]) (by simp [ht]; omega), fun hw => ?_⟩
    rw [counting_running hmore]
    exact ⟨⟨hw, rfl, by simp [h.n], by simp [h.blk], rfl⟩, by simp [ht]⟩
  · refine ⟨_, execSched_last (by simp [ht]; omega), fun hw => ?_⟩
    rw [counting_over hmore]
    exact ⟨hw, rfl, by simp [h.n], by simp [h.blk], rfl⟩

theorem leads_ldwr : Leads duty [.ldwr] (State.InLoop n blk subInit) (State.Counting n blk subRound subAcc 0) := by
  rw [counting_running (by decide)]
  refine .step hduty (i := .ldwr) fun s h _ => ⟨h.wf, decode_init _ h.phase h.sub, rfl, _, execLdwr_eq _, fun hw => ?_⟩
  exact ⟨⟨hw, rfl, by simp [h.n], by simp [h.blk], rfl⟩, rfl⟩

theorem leads_round {t : Nat} (hhi : t < 64) :
    Leads duty [.round t] (State.Counting n blk subRound subAcc t) (State.Counting n blk subRound subAcc (t + 1)) := by
  rw [counting_running hhi]
  refine .step hduty (i := .round) fun s ⟨h, ht⟩ _ => ⟨h.wf, decode_round _ h.phase h.sub, by simp [traceOf, ht], ?_⟩
  by_cases hmore : t + 1 < 64
  · refine ⟨_, execRound_more (by simp [ht]; omega), fun hw => ?_⟩
    rw [counting_running hmore]
    exact ⟨⟨hw, rfl, by simp [h.n], by simp [h.blk], rfl⟩, by simp [ht]⟩
  · refine ⟨_, execRound_last (by simp [ht]; omega), fun hw => ?_⟩
    rw [counting_over hmore]
    exact ⟨hw, rfl, by simp [h.n], by simp [h.blk], rfl⟩

theorem leads_acc : Leads duty [.acc] (State.InLoop n blk subAcc) (State.BlockDue n (blk + 1)) := by
  refine .step hduty (i := .acc) fun s h _ => ⟨h.wf, decode_acc _ h.phase h.sub, rfl, ?_⟩
  by_cases hmore : blk + 1 < n
  · refine ⟨_, execAcc_more (by simp [h.blk, h.n, hmore]), fun hw => ?_⟩
    rw [blockDue_more hmore]
    exact ⟨hw, rfl, by simp [h.n], by simp [h.blk], rfl⟩
  · refine ⟨_, execAcc_last (by simp [h.blk, h.n, hmore]), fun hw => ?_⟩
    rw [blockDue_last hmore]
    exact ⟨hw, rfl, rfl⟩

theorem leads_final : Leads duty finalOps (State.Finalizing subRaw) State.Ready :=
  have hdigest : Leads duty [.digest] (State.Finalizing subRaw) (State.Finalizing subText) :=
    .step hduty (i := .digest) fun _ h _ =>
      ⟨h.wf, decode_raw _ h.phase h.sub, rfl, _, execDigest_eq _, fun hw => ⟨hw, rfl, rfl⟩⟩
  have hhex : Leads duty [.hex] (State.Finalizing subText) State.Ready :=
    .step hduty (i := .hex) fun _ h _ =>
      ⟨h.wf, decode_text _ h.phase h.sub, rfl, _, execHex_eq _, fun hw => ⟨hw, rfl⟩⟩
  hdigest.cons hhex

theorem leads_expand : Leads duty expandOps (State.Counting n blk subSched subInit 16) (State.InLoop n blk subInit) := by
  rw [← counting_over (t := 16 + 48) (sub := subSched) (by decide)]
  exact Leads.map_range (P := fun k => State.Counting n blk subSched subInit (16 + k)) fun k hk =>
    leads_sched hduty (Nat.le_add_right 16 k) (by omega)

theorem leads_compress : Leads duty compressOps (State.InLoop n blk subInit) (State.InLoop n blk subAcc) := by
  rw [← counting_over (t := 64) (sub := subRound) (by decide)]
  exact (leads_ldwr hduty).cons (Leads.map_range fun _ hk => leads_round hduty hk)

theorem leads_block {i : Nat} (hi : i < n) : Leads duty (blockOps i) (State.BlockDue n i) (State.BlockDue n (i + 1)) := by
  rw [blockDue_more hi]
  exact (leads_ldblk hduty).cons (((leads_expand hduty).append (leads_compress hduty)).append (leads_acc hduty))

/-- The block loop of a call on `n` blocks. -/
theorem leads_blocks : Leads duty ((List.range n).flatMap blockOps) (State.BlockDue n 0) (State.Finalizing subRaw) := by
  rw [← blockDue_last (lt_irrefl n)]
  exact Leads.flatMap_range fun _ hi => leads_block hduty hi

end

section
variable {message : List Byte}

theorem leads_hash :
    Leads (Quiet message.length) [.hash message.length (some message)] (State.Called message) (State.Padding message) := by
  refine .step (noReset_quiet _) (i := .hash message.length) fun s h hq => ⟨h.wf, ?_, ?_, _, execHash_idle _ ?_, fun hw => ?_⟩
  · exact decode_eq_hash_iff.2 ⟨seqcIdle_of_notBusy h.wf h.idle, h.start⟩
  · simp [traceOf, h.holds.readRange]
  · simpa using h.idle
  · have hmsg : s.afterPorts.msg.Holds message := by simpa using h.holds.landed hq
    exact ⟨hw, rfl, rfl, Memory.Holds.readsAs hmsg (disturbed_of_accepted h.idle h.start hq)⟩

theorem blockCount_pos (len : Nat) : 0 < blockCount len :=
  Nat.succ_pos _

theorem leads_pad (hl : 8 * message.length < 2 ^ 64) :
    Leads (Quiet message.length) [.pad] (State.Padding message) (State.BlockDue (blockCount message.length) 0) := by
  refine .step (noReset_quiet _) (i := .pad) fun s h hq => ?_
  obtain ⟨hsub, -⟩ := (wellFormed_padding h.phase).1 h.wf
  have hbusy : s.busy = true := busy_iff.2 (.inl h.phase)
  have hreads : s.afterPorts.ReadsAs message := by
    rw [afterPorts_of_quiet hbusy (h.len ▸ hq)]
    exact h.reads.landed hq
  have hlen : s.afterPorts.len = message.length := by simpa using h.len
  refine ⟨h.wf, decode_padding _ h.phase hsub, rfl, _, execPad_ok (by omega) (hlen ▸ hreads.readRange), fun hw => ?_⟩
  rw [blockDue_more (blockCount_pos _)]
  exact ⟨hw, rfl, by simp [h.len], rfl, rfl⟩

/-- A call whose message can be padded performs the pseudo-op hash(M) and ends in DigestReady. -/
theorem leads_call (hl : 8 * message.length < 2 ^ 64) :
    Leads (Quiet message.length) (hashOps message) (State.Called message) State.Ready :=
  have hduty := noReset_quiet message.length
  leads_hash.cons ((leads_pad hl).cons ((leads_blocks hduty).append (leads_final hduty)))

end

/-! ### The number of operations -/

theorem length_blockOps (i : Nat) : (blockOps i).length = 115 := by
  simp [blockOps, expandOps, compressOps]

/-- A call performs one operation at each of its steps (45_hash_command_and_sequencer.md R135). -/
theorem length_hashOps (message : List Byte) : (hashOps message).length = callSteps message.length := by
  simp +arith [hashOps, finalOps, callSteps, List.length_flatMap, length_blockOps, Nat.mul_comm]

/-- Settles O42: the run of the call, composed of its pseudo-ops. -/
theorem callTraceIsHashPseudoOp : Obligations.CallTraceIsHashPseudoOp := by
  intro s message p rest hw hidle hin hp hl hholds hquiet
  rw [← length_hashOps] at hquiet ⊢
  have hcalled : s.Called message := ⟨hw, hidle, by rw [State.ports_mem hin, hp], hholds⟩
  obtain ⟨s', hrun, -⟩ := leads_call hl s hcalled hquiet
  exact hrun.traceSteps

end Sys2Proof.Machine

/-! A table word placed by `withFetchWord` (log 14, log 16). -/

namespace Sys2Proof.Machine

/-! ### W and R fitted to the block loop -/

/-- Fitting to the block changes W and R, and nothing else. -/
theorem State.fittedToBlock_eq (s : State) :
    s.fittedToBlock = { s with w := s.fittedToBlock.w, r := s.fittedToBlock.r } := by
  unfold State.fittedToBlock
  split <;> rfl

@[simp] theorem State.fittedToBlock_h (s : State) : s.fittedToBlock.h = s.h := by rw [State.fittedToBlock_eq]
@[simp] theorem State.fittedToBlock_pm (s : State) : s.fittedToBlock.pm = s.pm := by rw [State.fittedToBlock_eq]
@[simp] theorem State.fittedToBlock_n (s : State) : s.fittedToBlock.n = s.n := by rw [State.fittedToBlock_eq]
@[simp] theorem State.fittedToBlock_blk (s : State) : s.fittedToBlock.blk = s.blk := by rw [State.fittedToBlock_eq]
@[simp] theorem State.fittedToBlock_t (s : State) : s.fittedToBlock.t = s.t := by rw [State.fittedToBlock_eq]
@[simp] theorem State.fittedToBlock_phase (s : State) : s.fittedToBlock.phase = s.phase := by rw [State.fittedToBlock_eq]
@[simp] theorem State.fittedToBlock_sub (s : State) : s.fittedToBlock.sub = s.sub := by rw [State.fittedToBlock_eq]
@[simp] theorem State.fittedToBlock_inputs (s : State) : s.fittedToBlock.inputs = s.inputs := by rw [State.fittedToBlock_eq]
@[simp] theorem State.fittedToBlock_fault (s : State) : s.fittedToBlock.fault = s.fault := by rw [State.fittedToBlock_eq]
@[simp] theorem State.fittedToBlock_dv (s : State) : s.fittedToBlock.dv = s.dv := by rw [State.fittedToBlock_eq]

section
variable {s : State} {b : Block} (hb : blockAt s.pm s.blk = some b)
include hb

theorem fittedToBlock_w (hs : s.sub ≠ subLoad) : s.fittedToBlock.w = schedule b := by
  simp only [State.fittedToBlock, hb, if_neg hs]

theorem fittedToBlock_r_round (hs : s.sub = subRound) :
    s.fittedToBlock.r = compressRounds s.h s.fittedToBlock.w s.t.val := by
  simp only [State.fittedToBlock, hb, if_pos hs]

theorem fittedToBlock_r_acc (hs : s.sub = subAcc) : s.fittedToBlock.r = compress s.h s.fittedToBlock.w := by
  have hround : s.sub ≠ subRound := by rw [hs]; decide
  simp only [State.fittedToBlock, hb, if_neg hround, if_pos hs]

theorem fittedToBlock_written (hplace : s.LoopPlace) : s.fittedToBlock.blockWritten b = true := by
  by_cases hload : s.sub = subLoad
  · exact blockWritten_load (by simpa using hload)
  · have hw := fittedToBlock_w hb hload
    rcases hplace with hs | ⟨hs, -⟩ | hs | hs | hs
    · exact absurd hs hload
    · rw [blockWritten_sched (by simpa using hs), scheduleWritten_iff_schedule, hw]
      exact fun _ _ => rfl
    · rw [blockWritten_init (by simpa using hs), scheduleWritten_all, hw]
    · rw [blockWritten_round (by simpa using hs), Bool.and_eq_true, scheduleWritten_all, beq_iff_eq]
      exact ⟨hw, by simpa using fittedToBlock_r_round hb hs⟩
    · rw [blockWritten_acc (by simpa using hs), Bool.and_eq_true, scheduleWritten_all, beq_iff_eq]
      exact ⟨hw, by simpa using fittedToBlock_r_acc hb hs⟩

end

/-- With DV, FAULT and the sizes in order, fitting to the block is all that 10_state.md R38 asks for in the block loop. -/
theorem fittedToBlock_wellFormed {s : State} (hp : s.phase = .blockLoop) (hdv : s.dv = false) (hf : s.fault = .none)
    (hn : 1 ≤ s.n) (hpm : s.pm.length = 64 * s.n) (hblk : s.blk < s.n) (hplace : s.LoopPlace) :
    s.fittedToBlock.wellFormed = true := by
  obtain ⟨b, hb⟩ := exists_blockAt hpm hblk
  refine (wellFormed_blockLoop (by simpa using hp)).2 ?_
  simpa [State.LoopPlace, hdv, hf, hn, hpm, hblk, hb, fittedToBlock_written hb hplace] using hplace

/-! ### The fitted state, by phase -/

/-- DV, FAULT and T as 10_state.md R38 demands them in the block loop. -/
def State.loopCleared (s : State) : State :=
  { s with dv := false, fault := .none, t := if s.sub = subSched ∧ s.t.val < 16 then 16 else s.t }

/-- A single block of zeros. -/
def State.withZeroBlock (s : State) : State :=
  { s with n := 1, blk := 0, pm := List.replicate 64 0 }

theorem fitted_of_wellFormed {s : State} (hw : s.wellFormed = true) : s.fitted = s :=
  if_pos hw

section
variable {s : State} (hw : ¬ s.wellFormed = true)
include hw

theorem fitted_start (hp : s.phase = .start) : s.fitted = { s with dv := false } := by
  simp only [State.fitted, if_neg hw, hp]

theorem fitted_padding (hp : s.phase = .padding) : s.fitted = { s with dv := false, fault := .none, h := ivTable } := by
  simp only [State.fitted, if_neg hw, hp]

theorem fitted_blockLoop (hp : s.phase = .blockLoop) :
    s.fitted =
      if 1 ≤ s.n ∧ s.pm.length = 64 * s.n ∧ s.blk < s.n then s.loopCleared.fittedToBlock
      else s.loopCleared.withZeroBlock.fittedToBlock := by
  simp only [State.fitted, if_neg hw, hp, State.loopCleared, State.withZeroBlock]

theorem fitted_finalize (hp : s.phase = .finalize) :
    s.fitted = { s with dv := false, fault := .none, d := digestBytes s.h } := by
  simp only [State.fitted, if_neg hw, hp]

theorem fitted_digestReady (hp : s.phase = .digestReady) :
    s.fitted = { s with dv := true, fault := .none, d := digestBytes s.h, x := digestText s.h } := by
  simp only [State.fitted, if_neg hw, hp]

end

theorem loopCleared_place {s : State} (hp : s.phase = .blockLoop) (hc : seqcLegal s.seqc = true) :
    s.loopCleared.LoopPlace := by
  refine (loopPlace_iff (by exact hp)).2 ⟨hc, fun hs => ?_⟩
  have hs : s.sub = subSched := hs
  by_cases ht : s.t.val < 16
  · simp [State.loopCleared, hs, ht]
  · simpa [State.loopCleared, hs, ht] using Nat.le_of_not_lt ht

/-- Fitting leaves the sequencer code and the ports alone. -/
theorem fitted_seqc_inputs (s : State) : s.fitted.seqc = s.seqc ∧ s.fitted.inputs = s.inputs := by
  by_cases hw : s.wellFormed = true
  · rw [fitted_of_wellFormed hw]
    exact ⟨rfl, rfl⟩
  cases hp : s.phase with
  | start => rw [fitted_start hw hp]; exact ⟨rfl, rfl⟩
  | padding => rw [fitted_padding hw hp]; exact ⟨rfl, rfl⟩
  | finalize => rw [fitted_finalize hw hp]; exact ⟨rfl, rfl⟩
  | digestReady => rw [fitted_digestReady hw hp]; exact ⟨rfl, rfl⟩
  | blockLoop =>
    rw [fitted_blockLoop hw hp]
    split <;> simp [State.seqc, State.loopCleared, State.withZeroBlock]

/-- Fitting makes a state at a legal code well-formed. -/
theorem fitted_wellFormed {s : State} (hc : seqcLegal s.seqc = true) : s.fitted.wellFormed = true := by
  by_cases hw : s.wellFormed = true
  · rwa [fitted_of_wellFormed hw]
  cases hp : s.phase with
  | start =>
    have hs := (seqcLegal_singleSub (.inl hp)).1 hc
    rw [fitted_start hw hp]
    exact wellFormed_of_start hp hs rfl
  | padding =>
    have hs := (seqcLegal_singleSub (.inr (.inl hp))).1 hc
    rw [fitted_padding hw hp]
    exact (wellFormed_padding (by exact hp)).2 ⟨hs, rfl, rfl, rfl⟩
  | finalize =>
    have hs := (seqcLegal_finalize hp).1 hc
    rw [fitted_finalize hw hp]
    exact (wellFormed_finalize (by exact hp)).2 ⟨rfl, rfl, hs.imp_right fun hs => ⟨hs, rfl⟩⟩
  | digestReady =>
    have hs := (seqcLegal_singleSub (.inr (.inr hp))).1 hc
    rw [fitted_digestReady hw hp]
    exact (wellFormed_digestReady (by exact hp)).2 ⟨hs, rfl, rfl, rfl, rfl⟩
  | blockLoop =>
    have hplace := loopCleared_place hp hc
    rw [fitted_blockLoop hw hp]
    split
    · rename_i hsizes
      obtain ⟨hn, hpm, hblk⟩ := hsizes
      exact fittedToBlock_wellFormed hp rfl rfl hn hpm hblk hplace
    · exact fittedToBlock_wellFormed hp rfl rfl (Nat.le_refl 1) (List.length_replicate ..) Nat.one_pos hplace

/-! ### The placed word -/

/-- A legal code has a PHASE. -/
theorem phaseOfCode_legal {c : BitVec 6} (hc : seqcLegal c = true) :
    ∃ phase, phaseOfCode (c.extractLsb' 3 3) = some phase ∧ phaseCode phase ++ c.extractLsb' 0 3 = c := by
  have hsplit : (phaseOfCode (c.extractLsb' 3 3)).map (fun phase => phaseCode phase ++ c.extractLsb' 0 3) = some c := by
    revert c
    decide
  exact Option.map_eq_some_iff.1 hsplit

/-- The command port as `withFetchWord` presents it beside a code: a command with operand 0 at an idle code, none at another. -/
def placedCommand (c : BitVec 6) : Option Nat :=
  if seqcIdle c then some 0 else none

theorem seqc_withHost (s : State) (msg disturbed : Memory) (inputs : List Ports) :
    (s.withHost msg disturbed inputs).seqc = s.seqc := rfl

/-- A legal code, placed, is the code of a well-formed state, with its command presented at the next instant. -/
theorem place_legal (s : State) {w : Nat} (hlt : w < 64) (hc : seqcLegal (BitVec.ofNat 6 w) = true) :
    (s.place w).seqc = BitVec.ofNat 6 w ∧ (s.place w).wellFormed = true ∧
      (s.place w).inputs = { start := placedCommand (BitVec.ofNat 6 w) } :: s.inputs ∧
      (seqcIdle (BitVec.ofNat 6 w) = true → (s.place w).disturbed = []) := by
  obtain ⟨phase, hphase, hcode⟩ := phaseOfCode_legal hc
  obtain ⟨t, ht⟩ : ∃ t : State, t = { s with phase := phase, sub := (BitVec.ofNat 6 w).extractLsb' 0 3 } := ⟨_, rfl⟩
  have hcode : t.seqc = BitVec.ofNat 6 w := ht ▸ hcode
  have hplace : s.place w = t.fitted.withHost t.fitted.msg
      (if seqcIdle (BitVec.ofNat 6 w) then [] else t.fitted.disturbed)
      ({ start := placedCommand (BitVec.ofNat 6 w) } :: t.fitted.inputs) := by
    simp only [State.place, if_pos hlt, hphase, ← ht]
    rfl
  obtain ⟨hseqc, hinputs⟩ := fitted_seqc_inputs t
  rw [hplace]
  rw [wellFormed_withHost, seqc_withHost, hseqc, hcode, fitted_wellFormed (hcode ▸ hc)]
  refine ⟨rfl, rfl, ?_, fun hidle => if_pos hidle⟩
  rw [show s.inputs = t.inputs by rw [ht], ← hinputs]
  rfl

theorem decodeTableWord_eq_some {nbits w : Nat} {i : Instr} (h : decodeTableWord nbits w = some i) :
    w < 64 ∧ decode (tableOpWord w) = .ok i := by
  unfold decodeTableWord at h
  split at h
  · rename_i hlt
    cases hd : decode (tableOpWord w) with
    | ok j => simpa [hd, hlt] using h
    | error e => simp [hd] at h
  · cases h

theorem seqcLegal_of_decode {o : OpWord} {i : Instr} (h : decode o = .ok i) : seqcLegal o.seqc = true := by
  by_contra hc
  rw [decode_reserved (Bool.eq_false_iff.2 hc)] at h
  cases h

/-- Outside the idle codes the command port is not looked at (45_hash_command_and_sequencer.md R131 (b)). -/
theorem decode_command_irrelevant {c : BitVec 6} (hc : seqcIdle c = false) (a b : Option Nat) :
    decode { seqc := c, command := a } = decode { seqc := c, command := b } := by
  rcases decode_cases { seqc := c, command := a } with ⟨h, -⟩ | ⟨i, hi, rfl, hd⟩ | ⟨h, hd⟩
  · rw [hc] at h
    cases h
  · rw [hd, decode_tableMatch hi b]
  · rw [hd, decode_reserved (o := { seqc := c, command := b }) h]

theorem decode_placedCommand (w : Nat) :
    decode { seqc := BitVec.ofNat 6 w, command := placedCommand (BitVec.ofNat 6 w) } = decode (tableOpWord w) := by
  unfold placedCommand
  split
  · rfl
  · exact decode_command_irrelevant (Bool.eq_false_iff.2 ‹_›) _ _

/-- With no write, and nothing recorded where a command may be accepted, the instant only consumes its ports. -/
theorem afterPorts_of_noWrite {s : State} (hm : s.ports.msgWrite = none) (hd : s.busy = false → s.disturbed = []) :
    s.afterPorts = { s with inputs := s.inputs.tail } := by
  have hsame : s.disturb s.ports = s := by
    cases hb : s.busy with
    | true => exact State.disturb_busy hb hm
    | false =>
      cases hwait : s.waitingLen with
      | none => exact disturb_notWaiting hwait
      | some len => simp [disturb_waiting_noWrite hwait hm, State.recorded, hb, ← hd hb]
  rw [State.afterPorts, hsame]
  exact State.landed_of_noWrite hm

/-- Settles O11: the placed state is well-formed and decodes to the word's operation, and its instant disturbs nothing. -/
theorem placedWordRuns : Obligations.PlacedWordRuns := by
  intro s w i hword
  obtain ⟨hlt, hdec⟩ := decodeTableWord_eq_some hword
  have hlegal : seqcLegal (tableOpWord w).seqc = true := seqcLegal_of_decode hdec
  obtain ⟨hseqc, hw, hinputs, hdisturbed⟩ := place_legal s hlt hlegal
  have hports := State.ports_mem hinputs
  have hop : decode (s.place w).opWord = .ok i := by
    rw [State.opWord, hseqc, hports, decode_placedCommand, hdec]
  have hidle : (s.place w).busy = false → (s.place w).disturbed = [] := by
    intro hb
    have hcode := seqcIdle_of_notBusy hw hb
    rw [hseqc] at hcode
    exact hdisturbed hcode
  have hafter : (s.place w).afterPorts = { s.place w with inputs := s.inputs } := by
    rw [afterPorts_of_noWrite (by rw [hports]) hidle, hinputs, List.tail_cons]
  show step (s.place w) = exec i { s.place w with inputs := s.inputs }
  rw [step_exec (by rw [hports]) hw hop, hafter]

end Sys2Proof.Machine

/-! The block padder (40_padder.md): the padded message part by part, its indexed form (R93) and its invariants (R94). -/

namespace Sys2Proof.Machine

/-! ### The block count and the place of the length field -/

/-- Counted in bits: the message, the terminator's bit and the 64 bits of the length, rounded up to blocks of 512 bits
(30_encoding.md R74). -/
theorem blockCount_bits (len : Nat) : blockCount len = (8 * len + 1 + 64 + 511) / 512 := by
  unfold blockCount
  omega

/-- The length field begins eight bytes before the end of the last block. -/
theorem lengthField_start (len : Nat) : len + 1 + zeroFill len + 8 = 64 * blockCount len := by
  have := zeroFill_spec len
  unfold blockCount
  omega

/-! ### The parts of the padded message -/

theorem length_pad (message : List Byte) : (pad message).length = 64 * blockCount message.length :=
  length_padMessage rfl

theorem take_pad (message : List Byte) : (pad message).take message.length = message := by
  simp [pad, padMessage]

/-- The last eight bytes are the length field. -/
theorem drop_pad (message : List Byte) :
    (pad message).drop ((pad message).length - 8) = bytesBe64 (BitVec.ofNat 64 (8 * message.length)) := by
  refine List.drop_left' ?_
  have := lengthField_start message.length
  simp only [length_pad, List.length_append, List.length_singleton, List.length_replicate]
  omega

theorem pad_getElem?_message {message : List Byte} {j : Nat} (h : j < message.length) :
    (pad message)[j]? = some message[j] := by
  simp [pad, padMessage, List.getElem?_append_left h]

theorem pad_getElem?_terminator (message : List Byte) : (pad message)[message.length]? = some 0x80#8 := by
  simp [pad, padMessage]

theorem pad_getElem?_fill {message : List Byte} {j : Nat} (hlow : message.length < j)
    (hhigh : j < 64 * blockCount message.length - 8) : (pad message)[j]? = some 0x00#8 := by
  have hstart := lengthField_start message.length
  have hfill : j - (message.length + 1) < zeroFill message.length := by omega
  rw [pad, padMessage, List.getElem?_append_left (by simp; omega), List.getElem?_append_right (by simp; omega)]
  simp [hfill]

/-! ### The length field as a number -/

/-- Byte `k` of a 64-bit number in big-endian order. -/
theorem bytesBe64_getElem? {v k : Nat} (h : v < 2 ^ 64) (hk : k < 8) :
    (bytesBe64 (BitVec.ofNat 64 v))[k]? = some (BitVec.ofNat 8 (v / 2 ^ (56 - 8 * k))) := by
  simp [bytesBe64_ofNat h, hk]

/-- The last byte of the padded message has weight 1, each byte before it 256 times the weight of the next. -/
theorem pad_getElem?_lengthField {message : List Byte} {j : Nat} (h : 8 * message.length < 2 ^ 64)
    (hlow : 64 * blockCount message.length - 8 ≤ j) (hhigh : j < 64 * blockCount message.length) :
    (pad message)[j]? =
      some (BitVec.ofNat 8 (8 * message.length / 2 ^ (8 * (64 * blockCount message.length - 1 - j)))) := by
  obtain ⟨k, rfl⟩ := Nat.exists_eq_add_of_le hlow
  have hk : k < 8 := by omega
  have hweight : 8 * (64 * blockCount message.length - 1 - (64 * blockCount message.length - 8 + k)) = 56 - 8 * k := by
    omega
  rw [hweight, ← bytesBe64_getElem? h hk, ← drop_pad, List.getElem?_drop, length_pad]

/-- A list of bytes as a big-endian number. -/
def bigEndian (bytes : List Byte) : Nat :=
  bytes.foldl (fun v b => 256 * v + b.toNat) 0

theorem bigEndian_bytesBe64 (v : BitVec 64) : bigEndian (bytesBe64 v) = v.toNat := by
  have := v.isLt
  simp only [bigEndian, bytesBe64, List.foldl_cons, List.foldl_nil, BitVec.extractLsb'_toNat, Nat.shiftRight_eq_div_pow]
  omega

theorem bigEndian_drop_pad {message : List Byte} (h : 8 * message.length < 2 ^ 64) :
    bigEndian ((pad message).drop ((pad message).length - 8)) = 8 * message.length := by
  rw [drop_pad, bigEndian_bytesBe64, BitVec.toNat_ofNat, Nat.mod_eq_of_lt h]

/-- LEN is recovered from the last eight bytes, and then the message from the first LEN bytes. -/
theorem pad_injective {m1 m2 : List Byte} (h1 : 8 * m1.length < 2 ^ 64) (h2 : 8 * m2.length < 2 ^ 64)
    (h : pad m1 = pad m2) : m1 = m2 := by
  have hlen : 8 * m1.length = 8 * m2.length := by rw [← bigEndian_drop_pad h1, h, bigEndian_drop_pad h2]
  rw [← take_pad m1, h, show m1.length = m2.length by omega, take_pad]

/-! ### The statements -/

/-- Settles O22: the two outcomes of PAD, with the least zero fill and the length field written out. -/
theorem padPadsOrRaisesInputTooLarge : Obligations.PadPadsOrRaisesInputTooLarge := by
  refine ⟨fun s hlen => ?_, fun s message hlen hmessage hreads => ?_⟩
  · exact ⟨_, execPad_tooLarge (by omega), rfl, rfl, rfl, rfl, fun _ => rfl, rfl, rfl, rfl, rfl⟩
  · obtain ⟨hleast, hmod⟩ := zeroFill_spec s.len
    refine ⟨_, execPad_ok (by omega) (hmessage ▸ hreads.readRange), ⟨zeroFill s.len, hleast, hmod, ?_⟩,
      rfl, rfl, rfl, rfl, rfl, fun _ => rfl, rfl, rfl, rfl, rfl⟩
    rw [← bytesBe64_ofNat (by omega)]
    rfl

/-- Settles O34, part by part: the terminator lies before the length field because the fill lies between them. -/
theorem paddedMessageByIndex : Obligations.PaddedMessageByIndex := by
  intro message h
  have hstart := lengthField_start message.length
  have hfits : message.length + 1 ≤ 64 * blockCount message.length - 8 := by omega
  exact ⟨length_pad message, hfits, fun _ => pad_getElem?_message, pad_getElem?_terminator message,
    fun _ => pad_getElem?_fill, fun _ => pad_getElem?_lengthField h⟩

/-- Settles O35: the length of the padded message, its first LEN bytes and its last eight. -/
theorem paddingInvariants : Obligations.PaddingInvariants := by
  refine ⟨fun len => ⟨rfl, blockCount_bits len, Nat.le_add_left 1 _⟩, fun message h => ?_,
    fun m1 m2 h1 h2 => pad_injective h1 h2⟩
  have hlength := length_pad message
  have hstart := lengthField_start message.length
  obtain ⟨hleast, -⟩ := zeroFill_spec message.length
  exact ⟨by omega, hlength, by omega, by omega, by omega, take_pad message, bigEndian_drop_pad h⟩

end Sys2Proof.Machine

/-! The block parser and the message schedule (41_block_parser_scheduler.md): LDBLK, SCHED, and EXPAND as their run. -/

namespace Sys2Proof.Machine

/-! ### The words of a block and of its schedule -/

/-- The words of block `i` of PM by their bytes in PM (30_encoding.md R71). -/
theorem blockWord_blockAt {pm : List Byte} {i : Nat} {b : Block} (hb : blockAt pm i = some b)
    (h : 64 * i + 64 ≤ pm.length) (j : Fin 16) :
    blockWord b j =
      be32 pm[64 * i + 4 * j.val] pm[64 * i + 4 * j.val + 1] pm[64 * i + 4 * j.val + 2] pm[64 * i + 4 * j.val + 3] := by
  rw [blockAt_of_le h, Option.some.injEq] at hb
  subst hb
  simp [blockWord, Nat.add_assoc]

/-- LDBLK writes the word of the block at each index below 16. -/
theorem loadBlock_low (b : Block) (w : Vector Word 64) (j : Fin 16) : (loadBlock b w)[j.val] = blockWord b j := by
  simp [loadBlock]

/-- SCHED leaves every word but W[T] as it was. -/
theorem set_getElem_other (w : Vector Word 64) (v : Word) {t j : Fin 64} (h : j ≠ t) : (w.set t.val v t.isLt)[j] = w[j] :=
  Vector.getElem_set_ne t.isLt j.isLt (Fin.val_ne_of_ne h.symm)

theorem wordOf_low (b : Block) (w : Vector Word 64) {j : Fin 64} (h : j.val < 16) : wordOf b w j = blockWord b ⟨j.val, h⟩ :=
  dif_pos h

theorem wordOf_high (b : Block) (w : Vector Word 64) {j : Fin 64} (h : 16 ≤ j.val) : wordOf b w j = schedWord w j :=
  dif_neg (Nat.not_lt.2 h)

/-- The recurrence of the schedule (R104) is the word SCHED computes. -/
theorem schedule_recurrence (b : Block) {t : Fin 64} (h : 16 ≤ t.val) : (schedule b)[t] = schedWord (schedule b) t := by
  rw [schedule_eq_wordOf, wordOf_high _ _ h]

/-- At the end of the schedule loop of a well-formed machine W holds the schedule of the block. -/
theorem w_eq_schedule {s : State} {b : Block} (hw : s.wellFormed = true) (hp : s.phase = .blockLoop) (hs : s.sub = subInit)
    (hb : blockAt s.pm s.blk = some b) : s.w = schedule b := by
  obtain ⟨-, -, -, -, -, -, b', hb', hk⟩ := (wellFormed_blockLoop hp).1 hw
  obtain rfl : b' = b := Option.some.inj (hb' ▸ hb)
  rw [blockWritten_init hs] at hk
  exact scheduleWritten_all.1 hk

/-! ### What a run keeps -/

theorem nextOp_eq_some {s : State} {i : Instr} (h : s.nextOp = some i) :
    s.ports.reset = false ∧ s.wellFormed = true ∧ decode s.opWord = .ok i := by
  unfold State.nextOp at h
  split at h
  · cases h
  · rename_i hgo
    split at h <;> simp_all

/-- The step that performs an operation performs one of its cases on the state behind the ports. -/
theorem performs_nextOp {s s' : State} {i : Instr} (h : step s = .next s') (hop : s.nextOp = some i) :
    Performs s.ports.start s.afterPorts i s' := by
  obtain ⟨hr, hw, hd⟩ := nextOp_eq_some hop
  exact step_performs hw hd (by rw [← step_exec hr hw hd, h])

/-- What every step of a run keeps that performs one of the run's operations, the run keeps. -/
theorem Performed.keeps {P : State → Prop} {ops : List TraceOp} {s s' : State} (h : Performed ops s s') (hs : P s)
    (hstep : ∀ t t' i, step t = .next t' → t.nextOp = some i → traceOf t i ∈ ops → P t → P t') : P s' := by
  induction ops generalizing s with
  | nil => exact (show s' = s from h) ▸ hs
  | cons op ops ih =>
    obtain ⟨t, i, ht, hop, htr, h⟩ := h
    refine ih h (hstep s t i ht hop (by simp [htr]) hs) fun u u' j hu hj hmem => ?_
    exact hstep u u' j hu hj (List.mem_cons_of_mem _ hmem)

/-- `s'` agrees with `s` in every register but W, SUB and T (MSG and the ports are the host's). -/
def SameButSchedule (s s' : State) : Prop :=
  { s' with w := s.w, sub := s.sub, t := s.t, msg := s.msg, inputs := s.inputs } = s

theorem SameButSchedule.pm {s s' : State} (h : SameButSchedule s s') : s'.pm = s.pm := by
  rw [← h]

theorem SameButSchedule.blk {s s' : State} (h : SameButSchedule s s') : s'.blk = s.blk := by
  rw [← h]

/-- An operation of the block loop that writes no register but W, SUB and T, behind the ports. -/
theorem SameButSchedule.write {s t : State} (h : SameButSchedule s t) (hp : t.afterPorts.phase = .blockLoop)
    (w : Vector Word 64) (sub : BitVec 3) (i : Fin 64) :
    SameButSchedule s { t.afterPorts with w := w, phase := .blockLoop, sub := sub, t := i } := by
  rw [State.afterPorts_phase] at hp
  rw [State.afterPorts_afterPad (.inl hp), State.landed_eq, ← hp]
  exact h

theorem SameButSchedule.step {s t t' : State} {i : Instr} (h : SameButSchedule s t) (hstep : step t = .next t')
    (hop : t.nextOp = some i) (hi : i = .ldblk ∨ i = .sched) : SameButSchedule s t' := by
  have hperf := performs_nextOp hstep hop
  rcases hi with rfl | rfl
  · cases hperf with
    | ldblk b hp => exact h.write hp ..
  · cases hperf with
    | schedMore hp => exact h.write hp ..
    | schedLast hp => exact h.write hp ..

/-- The operations of LDBLK and EXPAND. -/
theorem instr_of_mem_expand {s : State} {i : Instr} {blk : Nat} (h : traceOf s i ∈ .ldblk blk :: expandOps) :
    i = .ldblk ∨ i = .sched := by
  cases i with
  | ldblk => exact .inl rfl
  | sched => exact .inr rfl
  | hash | pad | ldwr | round | acc | digest | hex => simp [traceOf, expandOps] at h

theorem Performed.sameButSchedule {s s' : State} {blk : Nat} (h : Performed (.ldblk blk :: expandOps) s s') :
    SameButSchedule s s' :=
  h.keeps (P := SameButSchedule s) rfl fun _ _ _ hstep hop hmem hP => hP.step hstep hop (instr_of_mem_expand hmem)

theorem Performed.loopEnded {ops : List TraceOp} {s s' : State} (h : Performed ops s s') (hl : s.LoopEnded) : s'.LoopEnded :=
  h.keeps hl fun _ _ _ hstep _ _ => step_loopEnded hstep

theorem length_ldblk_expandOps (blk : Nat) : (TraceOp.ldblk blk :: expandOps).length = 49 := by
  simp [expandOps]

/-! ### The statements -/

/-- Settles O3: the rotations and the shift bit by bit, and each of the three terms linear. -/
theorem smallSigmasBitwise : Obligations.SmallSigmasBitwise := by
  refine ⟨fun x i hi => ?_, fun x i hi => ?_, fun x y => ⟨?_, ?_⟩⟩
  · simp only [sigma0, BitVec.getLsbD_xor, rotr_getLsbD _ _ _ _ hi, shr_getLsbD]
  · simp only [sigma1, BitVec.getLsbD_xor, rotr_getLsbD _ _ _ _ hi, shr_getLsbD]
  · simp only [sigma0, rotr_xor, shr_xor]
    ac_rfl
  · simp only [sigma1, rotr_xor, shr_xor]
    ac_rfl

/-- Settles O24: the word of the block at each index below 16, the old word above. -/
theorem ldblkLoadsTheBlock : Obligations.LdblkLoadsTheBlock := by
  intro s hin
  have hb := blockAt_of_le hin
  refine ⟨_, execLdblk_ok hb, fun j => ?_, fun j hj => ?_, rfl, rfl, rfl, rfl, fun _ => rfl, rfl, rfl, rfl, rfl⟩
  · exact (loadBlock_low _ _ j).trans (blockWord_blockAt hb hin j)
  · exact (loadBlock_getElem_or _ s.w j).resolve_right (Nat.not_lt.2 hj)

/-- Settles O25: the write is the same at every T in range, and the sequencer's part splits at 63. -/
theorem schedExtendsTheSchedule : Obligations.SchedExtendsTheSchedule := by
  intro s hlo
  have hword := Vector.getElem_set_self (xs := s.w) (x := schedWord s.w s.t) s.t.isLt
  have hothers (j : Fin 64) (hj : j ≠ s.t) := set_getElem_other s.w (schedWord s.w s.t) hj
  by_cases hmore : s.t.val < 63
  · exact ⟨_, execSched_more hlo hmore, hword, hothers, fun _ => ⟨rfl, rfl⟩, fun hlast => absurd hmore (by omega),
      rfl, rfl, fun _ => rfl, rfl, rfl, rfl, rfl⟩
  · have hlast : s.t.val = 63 := by omega
    exact ⟨_, execSched_last hlast, hword, hothers, fun h => absurd h hmore, fun _ => ⟨rfl, hlast⟩,
      rfl, rfl, fun _ => rfl, rfl, rfl, rfl, rfl⟩

/-- Settles O36: the recurrence word by word; and the run of LDBLK and EXPAND ends behind the schedule loop, where a well-formed
machine has the schedule of its block in W. -/
theorem expandComputesSchedule : Obligations.ExpandComputesSchedule := by
  refine ⟨fun b t => ⟨fun hlow => ?_, schedule_recurrence b⟩, fun s hw hp hs hquiet => ?_⟩
  · rw [schedule_eq_wordOf, wordOf_low _ _ hlow]
    rfl
  · rw [← length_ldblk_expandOps s.blk] at hquiet ⊢
    have hduty := noReset_quiet s.len
    obtain ⟨s', hrun, hend⟩ := ((leads_ldblk hduty).cons (leads_expand hduty)) s ⟨hw, hp, rfl, rfl, hs⟩ hquiet
    have hsame := hrun.sameButSchedule
    obtain ⟨-, -, -, -, -, -, b, hb, -⟩ := (wellFormed_blockLoop hp).1 hw
    have hb' : blockAt s'.pm s'.blk = some b := by rw [hsame.pm, hsame.blk, hb]
    have hloop : s.LoopEnded := fun _ h => by simp [hs] at h
    exact ⟨s', b, hrun.runSteps, hb, w_eq_schedule hend.wf hend.phase hend.sub hb', hend.sub,
      hrun.loopEnded hloop hend.phase (.inl hend.sub), hrun.inputs, hsame⟩

end Sys2Proof.Machine

/-! The compression engine (42_compression.md): the round functions, one round, and COMPRESS as the run of LDWR and the 64 ROUND
steps. -/

namespace Sys2Proof.Machine

/-! ### The round functions bit by bit (R111) -/

theorem bigSigma0_getLsbD (x : Word) {i : Nat} (hi : i < 32) :
    (bigSigma0 x).getLsbD i =
      ((x.getLsbD ((i + 2) % 32) ^^ x.getLsbD ((i + 13) % 32)) ^^ x.getLsbD ((i + 22) % 32)) := by
  simp only [bigSigma0, BitVec.getLsbD_xor, rotr_getLsbD _ _ _ _ hi]

theorem bigSigma1_getLsbD (x : Word) {i : Nat} (hi : i < 32) :
    (bigSigma1 x).getLsbD i =
      ((x.getLsbD ((i + 6) % 32) ^^ x.getLsbD ((i + 11) % 32)) ^^ x.getLsbD ((i + 25) % 32)) := by
  simp only [bigSigma1, BitVec.getLsbD_xor, rotr_getLsbD _ _ _ _ hi]

/-- Ch selects by the bit of `x`. -/
theorem ch_getLsbD (x y z : Word) {i : Nat} (hi : i < 32) :
    (ch x y z).getLsbD i = if x.getLsbD i then y.getLsbD i else z.getLsbD i := by
  simp only [ch, not32_eq_not, BitVec.getLsbD_xor, BitVec.getLsbD_and, BitVec.getLsbD_not]
  cases x.getLsbD i <;> simp [hi]

/-- Maj is the majority of the three bits. -/
theorem maj_getLsbD (x y z : Word) (i : Nat) :
    (maj x y z).getLsbD i =
      ((x.getLsbD i && y.getLsbD i) || (x.getLsbD i && z.getLsbD i) || (y.getLsbD i && z.getLsbD i)) := by
  simp only [maj, BitVec.getLsbD_xor, BitVec.getLsbD_and]
  cases x.getLsbD i <;> cases y.getLsbD i <;> cases z.getLsbD i <;> rfl

/-! ### The capital sigmas are bijections (R113)

The exclusive or of three rotations of a word is its product with a polynomial of three terms modulo `t ^ 32 - 1` over the field of
two elements. There a square doubles every exponent, so the 32nd power of the polynomial is `1 + 1 + 1 = 1`. -/

/-- The exclusive or of three rotations of a word. -/
def xorRotations (a b c : Nat) (x : Word) : Word :=
  x.rotateRight a ^^^ x.rotateRight b ^^^ x.rotateRight c

theorem rotateRight_getLsbD (x : Word) (n : Nat) {i : Nat} (hi : i < 32) :
    (x.rotateRight n).getLsbD i = x.getLsbD ((i + n) % 32) := by
  rw [BitVec.getLsbD_rotateRight]
  by_cases hlow : i < 32 - n % 32
  · rw [show (i + n) % 32 = n % 32 + i by omega]
    simp [hlow]
  · rw [show (i + n) % 32 = i - (32 - n % 32) by omega]
    simp [hlow, hi]

theorem xorRotations_getLsbD (a b c : Nat) (x : Word) {i : Nat} (hi : i < 32) :
    (xorRotations a b c x).getLsbD i =
      ((x.getLsbD ((i + a) % 32) ^^ x.getLsbD ((i + b) % 32)) ^^ x.getLsbD ((i + c) % 32)) := by
  simp only [xorRotations, BitVec.getLsbD_xor, rotateRight_getLsbD _ _ hi]

/-- The rule's rotations are those of the library. -/
theorem bigSigma0_eq_xorRotations : bigSigma0 = xorRotations 2 13 22 := by
  funext x
  refine BitVec.eq_of_getLsbD_eq fun i hi => ?_
  rw [bigSigma0_getLsbD x hi, xorRotations_getLsbD _ _ _ x hi]

theorem bigSigma1_eq_xorRotations : bigSigma1 = xorRotations 6 11 25 := by
  funext x
  refine BitVec.eq_of_getLsbD_eq fun i hi => ?_
  rw [bigSigma1_getLsbD x hi, xorRotations_getLsbD _ _ _ x hi]

/-- The square of a sum of three terms, in which each mixed product stands twice and cancels. -/
theorem xor_square (aa ab ac bb bc cc : Bool) :
    ((((aa ^^ ab) ^^ ac) ^^ ((ab ^^ bb) ^^ bc)) ^^ ((ac ^^ bc) ^^ cc)) = ((aa ^^ bb) ^^ cc) := by
  revert aa ab ac bb bc cc
  decide

/-- Applied twice, the rotations are doubled. -/
theorem xorRotations_comp_self (a b c : Nat) :
    xorRotations a b c ∘ xorRotations a b c = xorRotations (2 * a) (2 * b) (2 * c) := by
  funext x
  refine BitVec.eq_of_getLsbD_eq fun i hi => ?_
  have hmod (n : Nat) : (i + n) % 32 < 32 := Nat.mod_lt _ (by decide)
  simp only [Function.comp_apply, xorRotations_getLsbD _ _ _ _ hi, xorRotations_getLsbD _ _ _ _ (hmod _), Nat.mod_add_mod,
    Nat.add_assoc, Nat.add_comm b a, Nat.add_comm c a, Nat.add_comm c b, xor_square, Nat.two_mul]

theorem xorRotations_iterate (a b c k : Nat) :
    (xorRotations a b c)^[2 ^ k] = xorRotations (2 ^ k * a) (2 ^ k * b) (2 ^ k * c) := by
  induction k with
  | zero => simp
  | succ k ih =>
    calc (xorRotations a b c)^[2 ^ (k + 1)]
        = (xorRotations a b c)^[2 ^ k] ∘ (xorRotations a b c)^[2 ^ k] := by
          rw [← Function.iterate_add, ← Nat.two_mul, Nat.pow_succ']
      _ = xorRotations (2 ^ (k + 1) * a) (2 ^ (k + 1) * b) (2 ^ (k + 1) * c) := by
          rw [ih, xorRotations_comp_self]
          simp only [Nat.pow_succ', Nat.mul_assoc]

/-- Rotations by whole turns leave the word three times, and two of the three cancel. -/
theorem xorRotations_wholeTurns (a b c : Nat) : xorRotations (32 * a) (32 * b) (32 * c) = id := by
  funext x
  refine BitVec.eq_of_getLsbD_eq fun i hi => ?_
  simp [xorRotations_getLsbD _ _ _ x hi, Nat.mod_eq_of_lt hi]

/-- The 31-fold application is the inverse. -/
theorem bijective_xorRotations (a b c : Nat) : Function.Bijective (xorRotations a b c) := by
  have hid : (xorRotations a b c)^[31 + 1] = id := (xorRotations_iterate a b c 5).trans (xorRotations_wholeTurns a b c)
  refine Function.bijective_iff_has_inverse.2 ⟨(xorRotations a b c)^[31], fun x => congrFun hid x, fun x => ?_⟩
  rw [← Function.iterate_succ_apply' (xorRotations a b c), hid, id]

theorem bigSigma0_xor (x y : Word) : bigSigma0 (x ^^^ y) = bigSigma0 x ^^^ bigSigma0 y := by
  simp only [bigSigma0, rotr_xor]
  ac_rfl

theorem bigSigma1_xor (x y : Word) : bigSigma1 (x ^^^ y) = bigSigma1 x ^^^ bigSigma1 y := by
  simp only [bigSigma1, rotr_xor]
  ac_rfl

/-! ### The other forms and the corner values of Ch and Maj (R113) -/

theorem ch_eq_or (x y z : Word) : ch x y z = ((x &&& y) ||| (not32 x &&& z)) := by
  refine BitVec.eq_of_getLsbD_eq fun i hi => ?_
  simp only [ch_getLsbD x y z hi, not32_eq_not, BitVec.getLsbD_or, BitVec.getLsbD_and, BitVec.getLsbD_not]
  cases x.getLsbD i <;> simp [hi]

theorem ch_eq_xor (x y z : Word) : ch x y z = z ^^^ (x &&& (y ^^^ z)) := by
  refine BitVec.eq_of_getLsbD_eq fun i hi => ?_
  simp only [ch_getLsbD x y z hi, BitVec.getLsbD_xor, BitVec.getLsbD_and]
  cases x.getLsbD i <;> simp [Bool.xor_comm (y.getLsbD i)]

theorem maj_eq_or (x y z : Word) : maj x y z = ((x &&& y) ||| (x &&& z) ||| (y &&& z)) :=
  BitVec.eq_of_getLsbD_eq fun i _ => by simp only [maj_getLsbD, BitVec.getLsbD_or, BitVec.getLsbD_and]

theorem maj_eq_xor (x y z : Word) : maj x y z = (x &&& y) ^^^ (z &&& (x ^^^ y)) := by
  refine BitVec.eq_of_getLsbD_eq fun i _ => ?_
  simp only [maj, BitVec.getLsbD_xor, BitVec.getLsbD_and]
  cases z.getLsbD i <;> simp

theorem ch_same (x y : Word) : ch x y y = y := by
  rw [ch_eq_xor, BitVec.xor_self, BitVec.and_zero, BitVec.xor_zero]

theorem ch_zero (y z : Word) : ch 0 y z = z := by
  simp [ch_eq_xor]

theorem maj_zero (y z : Word) : maj 0 y z = y &&& z := by
  simp [maj]

theorem maj_same (x z : Word) : maj x x z = x := by
  simp [maj_eq_xor]

theorem ch_allOnes (y z : Word) : ch (BitVec.allOnes 32) y z = y := by
  rw [ch_eq_or, not32_eq_not, BitVec.not_allOnes, BitVec.allOnes_and, BitVec.zero_and, BitVec.or_zero]

theorem maj_allOnes (y z : Word) : maj (BitVec.allOnes 32) y z = y ||| z := by
  refine BitVec.eq_of_getLsbD_eq fun i _ => ?_
  simp only [maj_eq_or, BitVec.allOnes_and, BitVec.getLsbD_or, BitVec.getLsbD_and]
  cases y.getLsbD i <;> simp

/-! ### One round is a bijection (R114) -/

/-- T1 of a round by the registers after it: the new a less T2, which reads the old a, b and c, now in b, c and d. -/
def priorT1 (r : Vector Word 8) : Word :=
  r[0] - (bigSigma0 r[1] + maj r[1] r[2] r[3])

/-- The round undone: six registers move back, the old d comes back from the new e, and the old h from T1. -/
def roundUnstep (r : Vector Word 8) (k w : Word) : Vector Word 8 :=
  #v[r[1], r[2], r[3], r[4] - priorT1 r, r[5], r[6], r[7], priorT1 r - w - k - ch r[5] r[6] r[7] - bigSigma1 r[5]]

/-- Eight words that agree register by register. -/
theorem regs_ext {r r' : Vector Word 8} (h0 : r[0] = r'[0]) (h1 : r[1] = r'[1]) (h2 : r[2] = r'[2]) (h3 : r[3] = r'[3])
    (h4 : r[4] = r'[4]) (h5 : r[5] = r'[5]) (h6 : r[6] = r'[6]) (h7 : r[7] = r'[7]) : r = r' := by
  refine Vector.ext fun i hi => ?_
  interval_cases i <;> assumption

theorem priorT1_roundStep (r : Vector Word 8) (k w : Word) : priorT1 (roundStep r k w) = roundT1 r k w :=
  BitVec.add_sub_cancel (roundT1 r k w) (roundT2 r)

theorem roundT1_roundUnstep (r : Vector Word 8) (k w : Word) : roundT1 (roundUnstep r k w) k w = priorT1 r := by
  change priorT1 r - w - k - ch r[5] r[6] r[7] - bigSigma1 r[5] + bigSigma1 r[5] + ch r[5] r[6] r[7] + k + w = priorT1 r
  simp only [BitVec.sub_add_cancel]

theorem roundUnstep_roundStep (r : Vector Word 8) (k w : Word) : roundUnstep (roundStep r k w) k w = r := by
  refine regs_ext rfl rfl rfl ?_ rfl rfl rfl ?_
  · change r[3] + roundT1 r k w - priorT1 (roundStep r k w) = r[3]
    rw [priorT1_roundStep, BitVec.add_sub_cancel]
  · change priorT1 (roundStep r k w) - w - k - ch r[4] r[5] r[6] - bigSigma1 r[4] = r[7]
    simp only [priorT1_roundStep, roundT1, BitVec.add_sub_cancel]

theorem roundStep_roundUnstep (r : Vector Word 8) (k w : Word) : roundStep (roundUnstep r k w) k w = r := by
  refine regs_ext ?_ rfl rfl rfl ?_ rfl rfl rfl
  · change roundT1 (roundUnstep r k w) k w + (bigSigma0 r[1] + maj r[1] r[2] r[3]) = r[0]
    rw [roundT1_roundUnstep, priorT1, BitVec.sub_add_cancel]
  · change r[4] - priorT1 r + roundT1 (roundUnstep r k w) k w = r[4]
    rw [roundT1_roundUnstep, BitVec.sub_add_cancel]

/-! ### The run of COMPRESS -/

/-- Where a run of at least one operation ends behind a counted loop, T is 63. -/
theorem Performed.loopEnded_cons {op : TraceOp} {ops : List TraceOp} {s s' : State} (h : Performed (op :: ops) s s') :
    s'.LoopEnded := by
  obtain ⟨t, i, hstep, hop, -, hrun⟩ := h
  exact hrun.loopEnded (performs_nextOp hstep hop).loopEnded

/-- `s'` agrees with `s` in every register but R, SUB and T (MSG and the ports are the host's). -/
def SameButRounds (s s' : State) : Prop :=
  { s' with r := s.r, sub := s.sub, t := s.t, msg := s.msg, inputs := s.inputs } = s

theorem SameButRounds.h {s s' : State} (h : SameButRounds s s') : s'.h = s.h := by
  rw [← h]

theorem SameButRounds.pm {s s' : State} (h : SameButRounds s s') : s'.pm = s.pm := by
  rw [← h]

theorem SameButRounds.blk {s s' : State} (h : SameButRounds s s') : s'.blk = s.blk := by
  rw [← h]

/-- An operation of the block loop that writes no register but R, SUB and T, behind the ports. -/
theorem SameButRounds.write {s t : State} (h : SameButRounds s t) (hp : t.afterPorts.phase = .blockLoop)
    (r : Vector Word 8) (sub : BitVec 3) (i : Fin 64) :
    SameButRounds s { t.afterPorts with r := r, phase := .blockLoop, sub := sub, t := i } := by
  rw [State.afterPorts_phase] at hp
  rw [State.afterPorts_afterPad (.inl hp), State.landed_eq, ← hp]
  exact h

theorem SameButRounds.step {s t t' : State} {i : Instr} (h : SameButRounds s t) (hstep : step t = .next t')
    (hop : t.nextOp = some i) (hi : i = .ldwr ∨ i = .round) : SameButRounds s t' := by
  have hperf := performs_nextOp hstep hop
  rcases hi with rfl | rfl
  · cases hperf with
    | ldwr hp => exact h.write hp ..
  · cases hperf with
    | roundMore hp => exact h.write hp ..
    | roundLast hp => exact h.write hp ..

/-- The operations of COMPRESS. -/
theorem instr_of_mem_compress {s : State} {i : Instr} (h : traceOf s i ∈ compressOps) : i = .ldwr ∨ i = .round := by
  cases i with
  | ldwr => exact .inl rfl
  | round => exact .inr rfl
  | hash | pad | ldblk | sched | acc | digest | hex => simp [traceOf, compressOps] at h

theorem Performed.sameButRounds {s s' : State} (h : Performed compressOps s s') : SameButRounds s s' :=
  h.keeps (P := SameButRounds s) rfl fun _ _ _ hstep hop hmem hP => hP.step hstep hop (instr_of_mem_compress hmem)

theorem length_compressOps : compressOps.length = 65 := by
  simp [compressOps]

/-! ### The statements -/

/-- Settles O37: the run of LDWR and the rounds starts where a well-formed machine has the schedule of its block in W, and ends where
it has the compression of H and that schedule in R. -/
theorem compressComputesRounds : Obligations.CompressComputesRounds := by
  intro s hw hp hs hquiet
  rw [← length_compressOps] at hquiet ⊢
  obtain ⟨s', hrun, hend⟩ := leads_compress (noReset_quiet s.len) s ⟨hw, hp, rfl, rfl, hs⟩ hquiet
  have hsame := hrun.sameButRounds
  obtain ⟨-, -, -, -, -, -, b, hb, -⟩ := (wellFormed_blockLoop hp).1 hw
  have hb' : blockAt s'.pm s'.blk = some b := by rw [hsame.pm, hsame.blk, hb]
  have hr : s'.r = compress s.h s.w := by
    rw [r_eq_compress hend.wf hend.phase hend.sub hb', hsame.h, w_eq_schedule hw hp hs hb]
  exact ⟨s', hrun.runSteps, hr, hend.sub, hrun.loopEnded_cons hend.phase (.inr hend.sub), hrun.inputs, hsame⟩

/-- Settles O4, one function at a time. -/
theorem roundFunctionsBitwise : Obligations.RoundFunctionsBitwise := by
  intro x y z i hi
  exact ⟨bigSigma0_getLsbD x hi, bigSigma1_getLsbD x hi, ch_getLsbD x y z hi, maj_getLsbD x y z i⟩

/-- Settles O5: the sigmas as sums of three rotations, the forms of Ch and Maj bit by bit; Ch and Maj multiply two of their
arguments, so they are not linear. -/
theorem roundFunctionFacts : Obligations.RoundFunctionFacts := by
  refine ⟨?_, ?_, fun x y => ⟨bigSigma0_xor x y, bigSigma1_xor x y⟩, fun x y z => ?_, by decide, ?_, ?_⟩
  · exact bigSigma0_eq_xorRotations ▸ bijective_xorRotations 2 13 22
  · exact bigSigma1_eq_xorRotations ▸ bijective_xorRotations 6 11 25
  · exact ⟨ch_eq_or x y z, ch_eq_xor x y z, maj_eq_or x y z, maj_eq_xor x y z, ch_zero y z, ch_allOnes y z, ch_same x y,
      maj_same x z, maj_zero y z, maj_allOnes y z⟩
  · exact ⟨1, 0, 0, 0, 1, 0, by decide⟩
  · exact ⟨1, 0, 0, 0, 1, 0, by decide⟩

/-- Settles O6 by the inverse of the round. -/
theorem roundIsBijective : Obligations.RoundIsBijective := fun k w =>
  Function.bijective_iff_has_inverse.2
    ⟨fun r => roundUnstep r k w, fun r => roundUnstep_roundStep r k w, fun r => roundStep_roundUnstep r k w⟩

/-- Settles O28: the registers are written in the same way at every T, and the sequencer's part splits at 63. -/
theorem roundMixesWorkingRegisters : Obligations.RoundMixesWorkingRegisters := by
  intro s t1 t2
  by_cases hmore : s.t.val < 63
  · exact ⟨_, execRound_more hmore, rfl, rfl, rfl, rfl, rfl, rfl, rfl, rfl, fun _ => ⟨rfl, rfl⟩,
      fun hlast => absurd hmore (by omega), rfl, rfl, fun _ => rfl, rfl, rfl, rfl, rfl⟩
  · have hlast : s.t.val = 63 := by omega
    exact ⟨_, execRound_last hlast, rfl, rfl, rfl, rfl, rfl, rfl, rfl, rfl, fun h => absurd h hmore,
      fun _ => ⟨rfl, hlast⟩, rfl, rfl, fun _ => rfl, rfl, rfl, rfl, rfl⟩

/-- Settles O27: the state after LDWR, field by field. -/
theorem ldwrSeedsWorkingRegisters : Obligations.LdwrSeedsWorkingRegisters := fun s =>
  ⟨_, execLdwr_eq s, fun _ => rfl, rfl, rfl, rfl, rfl, fun _ => rfl, rfl, rfl, rfl, rfl⟩

end Sys2Proof.Machine

/-! The accumulator (43_accumulator.md): ACC. -/

namespace Sys2Proof.Machine

theorem toNat_foldRegs (h r : Vector Word 8) (i : Fin 8) :
    ((foldRegs h r)[i]).toNat = ((h[i]).toNat + (r[i]).toNat) % 2 ^ 32 := by
  simp [foldRegs]

/-- Settles O29: H is folded in the same way in both cases, and the sequencer's part splits at the last block. -/
theorem accFoldsTheBlock : Obligations.AccFoldsTheBlock := by
  intro s
  by_cases hmore : s.blk + 1 < s.n
  · exact ⟨_, execAcc_more hmore, toNat_foldRegs s.h s.r, fun _ => ⟨rfl, rfl, rfl⟩,
      fun hlast => absurd hmore hlast, rfl, fun _ => rfl, rfl, rfl, rfl, rfl⟩
  · exact ⟨_, execAcc_last hmore, toNat_foldRegs s.h s.r, fun h => absurd h hmore,
      fun _ => ⟨rfl, rfl, rfl⟩, rfl, fun _ => rfl, rfl, rfl, rfl, rfl⟩

end Sys2Proof.Machine

/-! The digest encoder (44_digest_encoder.md): DIGEST, HEX, and the agreement of the two digest forms (R128). -/

namespace Sys2Proof.Machine

/-! ### The forms by index (R126, R127) -/

theorem digestBytes_getElem (h : Vector Word 8) (k : Fin 8) (m : Fin 4) :
    (digestBytes h)[4 * k.val + m.val] = byteBe32 h[k] m := by
  have hdiv : (4 * k.val + m.val) / 4 = k.val := by omega
  have hmod : (4 * k.val + m.val) % 4 = m.val := by omega
  simp [digestBytes, hdiv, hmod]

theorem digestText_getElem (h : Vector Word 8) (k m : Fin 8) :
    (digestText h)[8 * k.val + m.val] = hexchar (hexDigit h[k] m) := by
  have hdiv : (8 * k.val + m.val) / 8 = k.val := by omega
  have hmod : (8 * k.val + m.val) % 8 = m.val := by omega
  simp [digestText, hdiv, hmod]

/-! ### Hexadecimal digits (30_encoding.md R76) -/

theorem toNat_hexDigit (w : Word) (m : Fin 8) : (hexDigit w m).toNat = w.toNat / 16 ^ (7 - m.val) % 16 := by
  have hweight : (2 : Nat) ^ (28 - 4 * m.val) = 16 ^ (7 - m.val) := by
    rw [show 28 - 4 * m.val = 4 * (7 - m.val) by omega, Nat.pow_mul]
  rw [hexDigit, BitVec.extractLsb'_toNat, Nat.shiftRight_eq_div_pow, hweight]

/-- `hexchar` reads the table of the sixteen ASCII codes, `0` to `9` and then `a` to `f`. -/
theorem hexchar_eq_getD (v : BitVec 4) :
    hexchar v =
      ([0x30, 0x31, 0x32, 0x33, 0x34, 0x35, 0x36, 0x37, 0x38, 0x39, 0x61, 0x62, 0x63, 0x64, 0x65, 0x66] : List Byte).getD
        v.toNat 0 := by
  decide +revert

/-- Four bits within a byte, as bits of the word the byte is taken from. -/
theorem byteBe32_extract (w : Word) (m : Fin 4) {k : Nat} (hk : k + 4 ≤ 8) :
    (byteBe32 w m).extractLsb' k 4 = w.extractLsb' (24 - 8 * m.val + k) 4 := by
  ext i hi
  have hbyte : k + i < 8 := by omega
  simp [byteBe32, BitVec.getElem_extractLsb', hbyte, Nat.add_assoc]

/-- The high half of byte `m` is digit `2m` of the word. -/
theorem byteBe32_high (w : Word) (m : Fin 4) :
    (byteBe32 w m).extractLsb' 4 4 = hexDigit w ⟨2 * m.val, by omega⟩ := by
  rw [byteBe32_extract w m (by decide), hexDigit]
  congr 1
  dsimp only
  omega

/-- The low half of byte `m` is digit `2m + 1` of the word. -/
theorem byteBe32_low (w : Word) (m : Fin 4) :
    (byteBe32 w m).extractLsb' 0 4 = hexDigit w ⟨2 * m.val + 1, by omega⟩ := by
  rw [byteBe32_extract w m (by decide), hexDigit]
  congr 1
  dsimp only
  omega

/-! ### The statements -/

/-- Settles O30: the bytes of D by index, each as a number; the rest by the fields of the state after DIGEST. -/
theorem digestSerializesHash : Obligations.DigestSerializesHash := by
  intro s
  refine ⟨_, execDigest_eq s, fun k m => ?_, rfl, rfl, rfl, fun _ => rfl, rfl, rfl, rfl, rfl⟩
  rw [digestBytes_getElem, toNat_byteBe32]

/-- Settles O31: the characters of X by index, each as the code of its digit; the rest by the fields of the state after HEX. -/
theorem hexSerializesHash : Obligations.HexSerializesHash := by
  intro s
  refine ⟨_, execHex_eq s, fun k m => ?_, rfl, rfl, rfl, rfl, fun _ => rfl, rfl, rfl, rfl, rfl⟩
  rw [digestText_getElem, hexchar_eq_getD, toNat_hexDigit]

/-- Settles O32: byte `j = 4k + m` is byte `m` of word `k`, and its two halves are the digits `2m` and `2m + 1` of that word, at the
characters `8k + 2m` and `8k + 2m + 1`. -/
theorem textDigestSpellsRawDigest : Obligations.TextDigestSpellsRawDigest := by
  intro h j
  obtain ⟨k, m, rfl⟩ : ∃ (k : Fin 8) (m : Fin 4), j = ⟨4 * k.val + m.val, by omega⟩ :=
    ⟨⟨j.val / 4, by omega⟩, ⟨j.val % 4, by omega⟩, Fin.ext (Nat.div_add_mod j.val 4).symm⟩
  have hbyte : (digestBytes h)[(⟨4 * k.val + m.val, by omega⟩ : Fin 32)] = byteBe32 h[k] m := digestBytes_getElem h k m
  have hhigh : 2 * (4 * k.val + m.val) = 8 * k.val + 2 * m.val := by omega
  rw [hbyte, byteBe32_high, byteBe32_low]
  simp only [hhigh]
  exact ⟨digestText_getElem h k ⟨2 * m.val, by omega⟩, digestText_getElem h k ⟨2 * m.val + 1, by omega⟩⟩

end Sys2Proof.Machine

/-! One pass of the block loop (45_hash_command_and_sequencer.md R134), and the call as its N passes (R135, R136). -/

namespace Sys2Proof.Machine

/-! ### A run in parts -/

/-- A run of two parts passes through a state between them. -/
theorem Performed.split {ops ops' : List TraceOp} {s u : State} (h : Performed (ops ++ ops') s u) :
    ∃ t, Performed ops s t ∧ Performed ops' t u := by
  induction ops generalizing s with
  | nil => exact ⟨s, rfl, h⟩
  | cons op ops ih =>
    obtain ⟨s', i, hstep, hop, htr, h⟩ := h
    obtain ⟨t, ht, hu⟩ := ih h
    exact ⟨t, ⟨s', i, hstep, hop, htr, ht⟩, hu⟩

/-- The operation of a trace entry. -/
def TraceOp.instr : TraceOp → Instr
  | .hash len _ => .hash len
  | .pad => .pad
  | .ldblk _ => .ldblk
  | .sched _ => .sched
  | .ldwr => .ldwr
  | .round _ => .round
  | .acc => .acc
  | .digest => .digest
  | .hex => .hex

theorem instr_traceOf (s : State) (i : Instr) : (traceOf s i).instr = i := by
  cases i <;> rfl

/-- A run of one operation is a step of a well-formed machine that performs it. -/
theorem Performed.single {op : TraceOp} {s s' : State} (h : Performed [op] s s') :
    s.wellFormed = true ∧ Performs s.ports.start s.afterPorts op.instr s' := by
  obtain ⟨t, i, hstep, hop, rfl, rfl⟩ := h
  obtain ⟨-, hw, -⟩ := nextOp_eq_some hop
  rw [instr_traceOf]
  exact ⟨hw, performs_nextOp hstep hop⟩

/-! ### One pass -/

/-- The state with the registers that one pass of the block loop writes, and what is the host's, as `s` has them. -/
def State.withPass (t s : State) : State :=
  { t with
    h := s.h, r := s.r, w := s.w, blk := s.blk, t := s.t, phase := s.phase, sub := s.sub
    msg := s.msg, inputs := s.inputs }

/-- `s'` agrees with `s` in every register that the block loop does not write. -/
def SameButPass (s s' : State) : Prop :=
  s'.withPass s = s

section
variable {s t u : State}

theorem SameButPass.trans (h : SameButPass s t) (h' : SameButPass t u) : SameButPass s u :=
  calc u.withPass s
    _ = (u.withPass t).withPass s := rfl
    _ = t.withPass s := congrArg (·.withPass s) h'
    _ = s := h

theorem SameButPass.pm (h : SameButPass s t) : t.pm = s.pm :=
  (congrArg State.pm (show t.withPass s = s from h) :)

theorem SameButPass.n (h : SameButPass s t) : t.n = s.n :=
  (congrArg State.n (show t.withPass s = s from h) :)

theorem SameButPass.len (h : SameButPass s t) : t.len = s.len :=
  (congrArg State.len (show t.withPass s = s from h) :)

theorem SameButPass.outputs (h : SameButPass s t) : t.d = s.d ∧ t.x = s.x ∧ t.dv = s.dv ∧ t.fault = s.fault := by
  have h : t.withPass s = s := h
  exact ⟨(congrArg State.d h :), (congrArg State.x h :), (congrArg State.dv h :), (congrArg State.fault h :)⟩

theorem SameButSchedule.pass (h : SameButSchedule s t) : SameButPass s t :=
  (congrArg (·.withPass s) (show { t with w := s.w, sub := s.sub, t := s.t, msg := s.msg, inputs := s.inputs } = s from h) :)

theorem SameButSchedule.h (h : SameButSchedule s t) : t.h = s.h := by
  rw [← h]

theorem SameButRounds.pass (h : SameButRounds s t) : SameButPass s t :=
  (congrArg (·.withPass s) (show { t with r := s.r, sub := s.sub, t := s.t, msg := s.msg, inputs := s.inputs } = s from h) :)

/-- In the block loop the instant's ports touch no register. -/
theorem sameButPass_afterPorts (hp : s.phase = .blockLoop) : SameButPass s s.afterPorts := by
  rw [State.afterPorts_afterPad (.inl hp), State.landed_eq]
  rfl

end

/-- What ACC folds, where it goes and what it leaves (43_accumulator.md R120). -/
theorem Performs.acc_folds {c : Option Nat} {s s' : State} (h : Performs c s .acc s') :
    s'.h = foldRegs s.h s.r ∧ s'.t = s.t ∧
      (s.blk + 1 < s.n → s'.phase = .blockLoop ∧ s'.sub = subLoad ∧ s'.blk = s.blk + 1) ∧
      (¬ s.blk + 1 < s.n → s'.phase = .finalize ∧ s'.sub = subRaw ∧ s'.blk = s.blk) ∧
      SameButPass s s' := by
  cases h with
  | accMore _ _ hmore => exact ⟨rfl, rfl, fun _ => ⟨rfl, rfl, rfl⟩, fun hlast => absurd hmore hlast, rfl⟩
  | accLast _ _ hlast => exact ⟨rfl, rfl, fun hmore => absurd hlast (Nat.ne_of_lt hmore), fun _ => ⟨rfl, rfl, rfl⟩, rfl⟩

/-- ACC is performed at Acc. -/
theorem Performs.acc_place {c : Option Nat} {s s' : State} (h : Performs c s .acc s') :
    s.phase = .blockLoop ∧ s.sub = subAcc := by
  cases h with
  | accMore hp hs => exact ⟨hp, hs⟩
  | accLast hp hs => exact ⟨hp, hs⟩

/-- What one pass on block `b` does: it folds the block into H and moves the sequencer on. -/
structure PassDone (b : Block) (s s' : State) : Prop where
  h : s'.h = blockStep s.h b
  t : s'.t.val = 63
  more : s.blk + 1 < s.n → s'.phase = .blockLoop ∧ s'.sub = subLoad ∧ s'.blk = s.blk + 1
  last : ¬ s.blk + 1 < s.n → s'.phase = .finalize ∧ s'.sub = subRaw ∧ s'.blk = s.blk
  frame : SameButPass s s'

/-- A run of BLOCK is EXPAND and COMPRESS, which leave H alone and bring its compression to R, and then ACC. -/
theorem Performed.passDone {i : Nat} {b : Block} {s s' : State} (h : Performed (blockOps i) s s')
    (hb : blockAt s.pm s.blk = some b) : PassDone b s s' := by
  obtain ⟨u, hloop, hacc⟩ := Performed.split (ops := .ldblk i :: (expandOps ++ compressOps)) h
  obtain ⟨t, hexpand, hcompress⟩ := Performed.split (ops := .ldblk i :: expandOps) hloop
  have hsame := hexpand.sameButSchedule
  have hsame' := hcompress.sameButRounds
  have hpass := hsame.pass.trans hsame'.pass
  have hblk : u.blk = s.blk := hsame'.blk.trans hsame.blk
  have hh : u.h = s.h := hsame'.h.trans hsame.h
  obtain ⟨hw, hperf⟩ := hacc.single
  obtain ⟨hp, hs⟩ := hperf.acc_place
  rw [State.afterPorts_phase] at hp
  rw [State.afterPorts_sub] at hs
  obtain ⟨hfold, ht, hmore, hlast, hframe⟩ := hperf.acc_folds
  simp only [State.afterPorts_h, State.afterPorts_r, State.afterPorts_t, State.afterPorts_blk, State.afterPorts_n, hblk,
    hpass.n] at hfold ht hmore hlast
  have hr : u.r = compress s.h (schedule b) := by
    rw [r_eq_compress hw hp hs (b := b) (by rw [hpass.pm, hblk, hb]), hh]
  refine ⟨by rw [hfold, hh, hr, blockStep], ?_, hmore, hlast, (hpass.trans (sameButPass_afterPorts hp)).trans hframe⟩
  rw [ht]
  exact hloop.loopEnded_cons hp (.inr hs)

/-- Settles O38: the run of BLOCK, and what a run of BLOCK does. -/
theorem blockPassFoldsOneBlock : Obligations.BlockPassFoldsOneBlock := by
  intro s hw hp hs hquiet
  obtain ⟨-, -, -, -, hblk, -, b, hb, -⟩ := (wellFormed_blockLoop hp).1 hw
  have hdue : s.BlockDue s.n s.blk := by
    rw [blockDue_more hblk]
    exact ⟨hw, hp, rfl, rfl, hs⟩
  rw [← length_blockOps s.blk] at hquiet ⊢
  obtain ⟨s', hrun, -⟩ := leads_block (noReset_quiet s.len) hblk s hdue hquiet
  have hpass := hrun.passDone hb
  refine ⟨s', b, hrun.runSteps, hrun.traceSteps, hb, fun i => ?_, hpass.t, hpass.more, hpass.last, hrun.inputs,
    hpass.frame.pm, hpass.frame.n, hpass.frame.len, hpass.frame.outputs⟩
  rw [hpass.h]
  simp [blockStep, foldRegs]

/-! ### The call as a chain of passes -/

/-- PAD reads one message of a length. -/
theorem State.ReadsAs.unique {s : State} {m m' : List Byte} (h : s.ReadsAs m) (h' : s.ReadsAs m')
    (hlen : m.length = m'.length) : m = m' :=
  Except.ok.inj (h.readRange.symm.trans (hlen ▸ h'.readRange))

/-- What PAD will read, it reads at an instant at which the host does not write the message. -/
theorem State.Padding.reads_now {message : List Byte} {s : State} (h : s.Padding message)
    (hq : Quiet message.length s.ports) : s.afterPorts.ReadsAs message := by
  rw [afterPorts_of_quiet (busy_iff.2 (.inl h.phase)) (h.len ▸ hq)]
  exact h.reads.landed hq

/-- The engine is about to take pass `i` of a call on `message`, or, after the last one, to finalize it: PM is the padded message
and H its hash state after `i` blocks (43_accumulator.md R122). -/
structure State.Hashing (message : List Byte) (i : Nat) (s : State) : Prop where
  due : s.BlockDue (blockCount message.length) i
  len : s.len = message.length
  pm : s.pm = pad message
  h : s.h = chain (pad message) i

/-- The call on `message` has ended with its hash state in H. -/
structure State.Hashed (message : List Byte) (s : State) : Prop where
  ready : s.Ready
  len : s.len = message.length
  h : s.h = finalHash message

section
variable {message : List Byte}

theorem leads_pad_hashing (hl : 8 * message.length < 2 ^ 64) :
    Leads (Quiet message.length) [.pad] (State.Padding message) (State.Hashing message 0) := by
  intro s hs hquiet
  obtain ⟨s', hrun, hdue⟩ := leads_pad hl s hs hquiet
  obtain ⟨hq, -⟩ := quiet_take_succ (k := 0) hquiet
  obtain ⟨-, -, -, hiv⟩ := (wellFormed_padding hs.phase).1 hs.wf
  have hlen : s.afterPorts.len = message.length := by simpa using hs.len
  obtain ⟨-, hperf⟩ := hrun.single
  refine ⟨s', hrun, ?_⟩
  cases hperf with
  | padTooLong _ _ htoo => omega
  | pad m _ _ _ hm hmlen =>
    obtain rfl : m = message := hm.unique (hs.reads_now hq) (hmlen.trans hlen)
    exact ⟨hdue, hlen, by rw [pad, hmlen], s.afterPorts_h.trans hiv⟩

theorem leads_block_hashing {i : Nat} (hi : i < blockCount message.length) :
    Leads (Quiet message.length) (blockOps i) (State.Hashing message i) (State.Hashing message (i + 1)) := by
  intro s hs hquiet
  obtain ⟨s', hrun, hdue⟩ := leads_block (noReset_quiet _) hi s hs.due hquiet
  have hin : s.InLoop (blockCount message.length) i subLoad := blockDue_more hi ▸ hs.due
  obtain ⟨-, -, -, -, -, -, b, hb, -⟩ := (wellFormed_blockLoop hin.phase).1 hin.wf
  have hpass := hrun.passDone hb
  rw [hs.pm, hin.blk] at hb
  exact ⟨s', hrun, hdue, hpass.frame.len.trans hs.len, hpass.frame.pm.trans hs.pm, by rw [hpass.h, hs.h, chain_succ hb]⟩

/-- The two steps of FINAL leave H and LEN alone. -/
theorem Performed.final_keeps {s s' : State} (h : Performed finalOps s s') : s'.h = s.h ∧ s'.len = s.len := by
  obtain ⟨t, hraw, htext⟩ := Performed.split (ops := [.digest]) h
  obtain ⟨-, hraw⟩ := hraw.single
  obtain ⟨-, htext⟩ := htext.single
  cases hraw with
  | digest => cases htext with
    | hex => simp

theorem leads_final_hashed :
    Leads (Quiet message.length) finalOps (State.Hashing message (blockCount message.length)) (State.Hashed message) := by
  intro s hs hquiet
  obtain ⟨s', hrun, hready⟩ := leads_final (noReset_quiet _) s (blockDue_last (lt_irrefl _) ▸ hs.due) hquiet
  obtain ⟨hh, hlen⟩ := hrun.final_keeps
  exact ⟨s', hrun, hready, hlen.trans hs.len, hh.trans hs.h⟩

/-- The call folds its blocks into H one after the other. -/
theorem leads_call_hashed (hl : 8 * message.length < 2 ^ 64) :
    Leads (Quiet message.length) (hashOps message) (State.Called message) (State.Hashed message) :=
  have hblocks := Leads.flatMap_range (P := State.Hashing message) fun _ hi => leads_block_hashing hi
  leads_hash.cons ((leads_pad_hashing hl).cons (hblocks.append leads_final_hashed))

end

/-- A run at whose instants the host does not write a message leaves its bytes in MSG. -/
theorem Performed.msg_read {ops : List TraceOp} {s s' : State} {len j : Nat} (h : Performed ops s s')
    (hq : ∀ p, p ∈ s.inputs.take ops.length → Quiet len p) (hj : j < len) : s'.msg.read j = s.msg.read j := by
  induction ops generalizing s with
  | nil => rw [show s' = s from h]
  | cons op ops ih =>
    obtain ⟨t, i, hstep, -, -, hrun⟩ := h
    obtain ⟨hnow, hlater⟩ := quiet_take_succ hq
    rw [ih hrun (by rwa [step_inputs hstep]), step_msg hstep]
    exact State.landed_read fun c hc hcj => absurd (hnow.2 c hc) (by omega)

/-! ### A call with a message too long -/

/-- An idle engine accepts a command: the step is the acceptance of HASH (45_hash_command_and_sequencer.md R130). -/
theorem step_accepts {s : State} {len : Nat} (hw : s.wellFormed = true) (hidle : s.busy = false)
    (hr : s.ports.reset = false) (hstart : s.ports.start = some len) : step s = exec (.hash len) s.afterPorts :=
  step_exec hr hw (decode_eq_hash_iff.2 ⟨seqcIdle_of_notBusy hw hidle, hstart⟩)

/-- PAD raises InputTooLarge, whatever MSG holds (40_padder.md R90). -/
theorem step_padTooLarge {s : State} (hw : s.wellFormed = true) (hp : s.phase = .padding) (hr : s.ports.reset = false)
    (hl : 2 ^ 64 ≤ 8 * s.len) : step s = .next (s.afterPorts.raise .inputTooLarge) := by
  obtain ⟨hsub, -⟩ := (wellFormed_padding hp).1 hw
  rw [step_exec hr hw (decode_padding _ hp hsub)]
  exact execPad_tooLarge (by simpa using hl)

/-- A call with a message too long ends at its second step in Start with InputTooLarge. -/
theorem call_tooLarge {s : State} {len : Nat} (hw : s.wellFormed = true) (hidle : s.busy = false)
    (hstart : s.ports.start = some len) (hl : 2 ^ 64 ≤ 8 * len) (hquiet : ∀ q, q ∈ s.inputs.take 2 → Quiet len q) :
    ∃ s', runSteps 2 s = .next s' ∧ s'.phase = .start ∧ s'.fault = .inputTooLarge ∧ s'.dv = false := by
  obtain ⟨hq, hlater⟩ := quiet_take_succ hquiet
  have haccept := step_accepts hw hidle hq.1 hstart
  rw [execHash_idle len (by simpa using hidle)] at haccept
  have hw' := step_wellFormed haccept
  obtain ⟨hq', -⟩ := quiet_take_succ (k := 0) (by rwa [step_inputs haccept])
  have hpad := step_padTooLarge hw' rfl hq'.1 hl
  exact ⟨_, by rw [runSteps_succ haccept, runSteps_succ hpad, runSteps_zero], rfl, rfl, by simp⟩

/-- Settles O39: the run of the call leaves the message's hash state in H, and a well-formed state in DigestReady has the digests
of H in D and X; a message too long is refused at the second step. -/
theorem callComputesTheDigest : Obligations.CallComputesTheDigest := by
  constructor
  · intro s message p rest hw hidle hin hp hl hholds hquiet
    rw [← callSteps, ← length_hashOps] at hquiet ⊢
    have hcalled : s.Called message := ⟨hw, hidle, by rw [State.ports_mem hin, hp], hholds⟩
    obtain ⟨s', hrun, hend⟩ := leads_call_hashed hl s hcalled hquiet
    obtain ⟨-, hdv, hfault, hd, hx⟩ := (wellFormed_digestReady hend.ready.phase).1 hend.ready.wf
    rw [hend.h] at hd hx
    have hhash : hashOf message = .digest s'.d s'.x := by
      rw [hashOf, if_neg (Nat.not_le.2 hl), hd, hx]
    exact ⟨s', hrun.runSteps, hend.ready.phase, hfault, hdv, hend.len, hhash, hd, hx, hrun.inputs,
      fun j => hrun.msg_read hquiet⟩
  · intro s len p rest hw hidle hin hp hl hquiet
    obtain ⟨s', hrun, hphase, hfault, hdv⟩ := call_tooLarge hw hidle (by rw [State.ports_mem hin, hp]) hl hquiet
    refine ⟨s', hrun, hphase, hfault, hdv, by simp [State.busy, hphase], err_iff.2 (by simp [hfault]),
      by simp [State.done, hphase], fun message hlen => ?_⟩
    rw [hashOf, if_pos (hlen ▸ hl)]

end Sys2Proof.Machine

/-! The HASH command and the sequencer (45_hash_command_and_sequencer.md R130 to R133): when a step is taken, and the engine's
control flow. -/

namespace Sys2Proof.Machine

/-! ### The HASH command (R130, R131 (b)) -/

/-- Settles O20: the state after the acceptance, field by field. -/
theorem hashIsAccepted : Obligations.HashIsAccepted := by
  intro s len hp
  have hidle : s.busy = false := by
    rcases hp with hp | hp <;> simp [State.busy, hp]
  exact ⟨_, execHash_idle len hidle, rfl, rfl, rfl, rfl, rfl, rfl, rfl, fun _ => rfl, rfl, rfl, rfl, rfl⟩

/-- Settles O21: HASH finds the engine busy. -/
theorem hashWhileBusyChangesNothing : Obligations.HashWhileBusyChangesNothing := fun _ len hp =>
  execHash_busy len (busy_iff.2 hp)

/-! ### When a step is taken (R131) -/

/-- A busy engine is at none of the codes at which a command is looked at. -/
theorem seqcIdle_of_busy {s : State} (hb : s.busy = true) : seqcIdle s.seqc = false := by
  have codes : ∀ u : BitVec 3, seqcIdle (0b001#3 ++ u) = false ∧ seqcIdle (0b010#3 ++ u) = false ∧
    seqcIdle (0b011#3 ++ u) = false := by decide
  obtain ⟨hpadding, hloop, hfinal⟩ := codes s.sub
  rcases busy_iff.1 hb with hp | hp | hp <;> simpa only [State.seqc, hp, phaseCode]

theorem nextOp_of_decode {s : State} {i : Instr} (hr : s.ports.reset = false) (hw : s.wellFormed = true)
    (hd : decode s.opWord = .ok i) : s.nextOp = some i := by
  simp [State.nextOp, hr, hw, hd]

theorem nextOp_of_noCommand {s : State} (hd : decode s.opWord = .error .noCommand) : s.nextOp = none := by
  simp [State.nextOp, hd]

/-- An idle engine to which no command is presented selects nothing. -/
theorem decode_noCommand {s : State} (hw : s.wellFormed = true) (hidle : s.busy = false) (hstart : s.ports.start = none) :
    decode s.opWord = .error .noCommand :=
  (idle_noCommand_iff s.opWord).1 ⟨seqcIdle_of_notBusy hw hidle, hstart⟩

/-- A busy, well-formed engine selects an operation. -/
theorem decode_busy {s : State} (hw : s.wellFormed = true) (hb : s.busy = true) : ∃ i, decode s.opWord = .ok i := by
  refine (decode_wellFormed hw).resolve_right fun hd => ?_
  obtain ⟨hidle, -⟩ := (idle_noCommand_iff s.opWord).2 hd
  exact absurd (hidle.symm.trans (seqcIdle_of_busy hb)) (by decide)

/-- The state to which the host presents `p` next. -/
def State.facing (s : State) (p : Ports) (rest : List Ports) : State :=
  { s with inputs := p :: rest }

/-- A write in Padding is one to a message that PAD has not read. -/
theorem disturb_padding_write {s : State} {p : Ports} {w : Host.Cell} (hp : s.phase = .padding)
    (hm : p.msgWrite = some w) : s.disturb p = s.disturbUnread s.len w := by
  simp [State.disturb, hp, hm]

theorem disturbUnread_facing (s : State) (p : Ports) (rest : List Ports) (len : Nat) (w : Host.Cell) :
    (s.facing p rest).disturbUnread len w = (s.disturbUnread len w).facing p rest := by
  by_cases hin : w.1 < len
  · simp only [State.disturbUnread, if_pos hin]
    rfl
  · rw [State.disturbUnread_outside (Nat.not_lt.1 hin), State.disturbUnread_outside (Nat.not_lt.1 hin)]

/-- What a host write disturbs of a busy engine depends neither on the command port nor on later instants. -/
theorem disturb_facing {s : State} (hb : s.busy = true) (p : Ports) (rest : List Ports) (c : Option Nat) :
    (s.facing { p with start := c } rest).disturb { p with start := c } = (s.disturb p).facing { p with start := c } rest := by
  rcases busy_iff.1 hb with hp | hp
  · cases hm : p.msgWrite with
    | none =>
      rw [State.disturb_busy hb hm]
      exact State.disturb_busy hb rfl
    | some w =>
      rw [disturb_padding_write hp hm, disturb_padding_write (s := s.facing _ rest) hp rfl]
      exact disturbUnread_facing ..
  · rw [State.disturb_afterPad _ hp]
    exact State.disturb_afterPad _ hp

/-- Nothing that an instant does to a busy engine before its operation depends on the command port. -/
theorem afterPorts_facing {s : State} (hb : s.busy = true) (p : Ports) (rest : List Ports) (c : Option Nat) :
    (s.facing { p with start := c } rest).afterPorts = ((s.disturb p).facing p rest).popPorts.hostWrite p :=
  congrArg (fun t => t.popPorts.hostWrite p) (disturb_facing hb p rest c)

/-- The step of a busy engine does not depend on the command port (R131 (b)). -/
theorem step_facing {s : State} (hb : s.busy = true) (p : Ports) (rest : List Ports) (c c' : Option Nat) :
    step (s.facing { p with start := c } rest) = step (s.facing { p with start := c' } rest) := by
  have hop : decode (s.facing { p with start := c } rest).opWord = decode (s.facing { p with start := c' } rest).opWord :=
    decode_command_irrelevant (seqcIdle_of_busy hb) _ _
  rw [step, step, instant, instant, hop, afterPorts_facing hb, afterPorts_facing hb]
  rfl

/-- A write leaves backed what was backed. -/
theorem Memory.isSome_read_write {m : Memory} {a : Nat} (h : (m.read a).isSome = true) (a' : Nat) (b : Byte) :
    ((m.write a' b).read a).isSome = true := by
  by_cases ha : a = a'
  · rw [ha, Memory.read_write_same]
    rfl
  · rwa [Memory.read_write_other _ _ ha]

theorem messageByte_isSome {s : State} {a : Nat} :
    (s.messageByte a).isSome = true ↔ (s.disturbed.read a).isSome = true ∨ (s.msg.read a).isSome = true := by
  unfold State.messageByte
  cases s.disturbed.read a <;> simp

/-- In Padding an instant leaves backed every byte that was backed. -/
theorem messageByte_afterPorts_isSome {s : State} {a : Nat} (hp : s.phase = .padding)
    (h : (s.messageByte a).isSome = true) : (s.afterPorts.messageByte a).isSome = true := by
  rw [messageByte_isSome] at h ⊢
  rw [State.afterPorts_disturbed, State.afterPorts_msg]
  cases hm : s.ports.msgWrite with
  | none =>
    rw [State.disturb_busy (busy_iff.2 (.inl hp)) hm, State.landed_of_noWrite hm]
    exact h
  | some w =>
    have hmsg : s.landed.msg = s.msg.write w.1 w.2 := by
      rw [State.landed, State.hostWrite_some hm]
      rfl
    rw [disturb_padding_write hp hm, hmsg]
    refine h.imp (fun h => ?_) fun h => Memory.isSome_read_write h _ _
    unfold State.disturbUnread
    split
    · exact Memory.isSome_read_write h _ _
    · exact h

/-- A busy, well-formed engine has an enabled step, PAD if every byte it reads is backed or none is read. -/
theorem step_busy {s : State} (hw : s.wellFormed = true) (hr : s.ports.reset = false) (hb : s.busy = true)
    (hpad : s.phase = .padding → 2 ^ 64 ≤ 8 * s.len ∨ ∀ a, a < s.len → (s.messageByte a).isSome = true) :
    ∃ s', step s = .next s' := by
  obtain ⟨i, hd⟩ := decode_busy hw hb
  rw [step_exec hr hw hd]
  by_cases hi : i = .pad
  · subst hi
    have hp := phase_of_decode_pad hw hd
    have hlen : s.afterPorts.len = s.len := s.afterPorts_len
    by_cases hl : 2 ^ 64 ≤ 8 * s.afterPorts.len
    · exact ⟨_, execPad_tooLarge hl⟩
    · cases hread : readRange s.afterPorts.messageByte 0 s.afterPorts.len with
      | ok message => exact ⟨_, execPad_ok hl hread⟩
      | error a =>
        obtain ⟨-, ha, hnone, -⟩ := readRange_error hread
        have hsome := messageByte_afterPorts_isSome hp ((hpad hp).resolve_left (by omega) a (by omega))
        simp [hnone] at hsome
  · obtain ⟨s', he, -⟩ := exec_withMemory hi s.afterPorts [] []
    exact ⟨s', he⟩

/-- Settles O13: (a) the instant of an idle engine disturbs nothing, so that it only lands the host's byte; (b) no code of a busy
engine looks at the command port; (c) of the operations only PAD can stop, and only at a byte that is not backed. -/
theorem whenStepsAreTaken : Obligations.WhenStepsAreTaken := by
  refine ⟨fun s hw hr hidle hstart => ?_, fun s p rest len hb => step_facing hb p rest _ _, fun s hw hr hb hpad => ?_⟩
  · have hd := decode_noCommand hw hidle hstart
    refine ⟨nextOp_of_noCommand hd, _, step_idle hr hw hd, ?_⟩
    rw [State.afterPorts, State.disturb_idle hidle hstart, ← State.landed, State.landed_eq]
  · obtain ⟨i, hd⟩ := decode_busy hw hb
    refine ⟨by rw [nextOp_of_decode hr hw hd]; rfl, step_busy hw hr hb fun hp => (hpad hp).imp (by omega) ?_⟩
    rintro ⟨message, hlen, hreads⟩ a ha
    rw [hreads a (hlen ▸ ha)]
    rfl

/-! ### The control of the engine -/

/-- The sequencer's registers with N and LEN. -/
structure Control where
  phase : Phase
  sub : BitVec 3
  blk : Nat
  t : Fin 64
  n : Nat
  len : Nat

def State.control (s : State) : Control :=
  { phase := s.phase, sub := s.sub, blk := s.blk, t := s.t, n := s.n, len := s.len }

/-- One turn of a loop that counts T up to 63 at SUB = `sub` and then goes on to SUB = `next`. -/
def Control.turn (c : Control) (sub next : BitVec 3) : Control :=
  if more : c.t.val < 63 then { c with phase := .blockLoop, sub := sub, t := ⟨c.t.val + 1, Nat.succ_lt_succ more⟩ }
  else { c with phase := .blockLoop, sub := next }

theorem Control.turn_more {c : Control} (sub next : BitVec 3) (h : c.t.val < 63) :
    c.turn sub next = { c with phase := .blockLoop, sub := sub, t := ⟨c.t.val + 1, Nat.succ_lt_succ h⟩ } :=
  dif_pos h

theorem Control.turn_last {c : Control} (sub next : BitVec 3) (h : c.t.val = 63) :
    c.turn sub next = { c with phase := .blockLoop, sub := next } :=
  dif_neg fun hmore => absurd h (Nat.ne_of_lt hmore)

/-- What an operation makes of the sequencer, N and LEN, a function of them alone. -/
def Control.after (c : Control) : Instr → Control
  | .hash len => { c with phase := .padding, sub := 0, len := len }
  | .pad =>
    if 2 ^ 64 ≤ 8 * c.len then { c with phase := .start, sub := 0 }
    else { c with phase := .blockLoop, sub := subLoad, blk := 0, n := blockCount c.len }
  | .ldblk => { c with phase := .blockLoop, sub := subSched, t := 16 }
  | .sched => c.turn subSched subInit
  | .ldwr => { c with phase := .blockLoop, sub := subRound, t := 0 }
  | .round => c.turn subRound subAcc
  | .acc =>
    if c.blk + 1 < c.n then { c with phase := .blockLoop, sub := subLoad, blk := c.blk + 1 }
    else { c with phase := .finalize, sub := subRaw }
  | .digest => { c with phase := .finalize, sub := subText }
  | .hex => { c with phase := .digestReady, sub := 0 }

theorem State.afterPorts_control (s : State) : s.afterPorts.control = s.control := by
  simp [State.control]

/-- Every operation moves the control as `Control.after` says. -/
theorem Performs.control {c : Option Nat} {s s' : State} {i : Instr} (h : Performs c s i s') :
    s'.control = s.control.after i := by
  cases h with
  | hash | ldblk | ldwr | digest | hex => rfl
  | padTooLong _ _ hl => exact (if_pos hl).symm
  | pad _ _ _ hl => exact (if_neg (Nat.not_le.2 hl)).symm
  | schedMore _ _ _ hmore | roundMore _ _ hmore => exact (Control.turn_more _ _ (c := s.control) hmore).symm
  | schedLast _ _ hlast | roundLast _ _ hlast => exact (Control.turn_last _ _ (c := s.control) hlast).symm
  | accMore _ _ hmore => exact (if_pos hmore).symm
  | accLast _ _ hlast => exact (if_neg fun hmore => absurd hlast (Nat.ne_of_lt hmore)).symm

section
variable {s s' : State} (hw : s.wellFormed = true) (hr : s.ports.reset = false) (h : step s = .next s')
include hw hr h

/-- The step of a well-formed engine performs the operation it selects. -/
theorem step_selected {i : Instr} (hd : decode s.opWord = .ok i) :
    s.nextOp = some i ∧ Performs s.ports.start s.afterPorts i s' := by
  have hop := nextOp_of_decode hr hw hd
  exact ⟨hop, performs_nextOp h hop⟩

/-- An idle engine to which no command is presented comes to the state behind the ports. -/
theorem step_unselected (hd : decode s.opWord = .error .noCommand) : s.nextOp = none ∧ s' = s.afterPorts :=
  ⟨nextOp_of_noCommand hd, Host.Outcome.next.inj (h.symm.trans (step_idle hr hw hd))⟩

/-- A step of a well-formed engine moves the control by the operation it selects, and leaves it when it selects none. -/
theorem step_control : s'.control = s.nextOp.elim s.control s.control.after := by
  rcases decode_wellFormed hw with ⟨i, hd⟩ | hd
  · obtain ⟨hop, hperf⟩ := step_selected hw hr h hd
    rw [hop, hperf.control, State.afterPorts_control]
    rfl
  · obtain ⟨hop, rfl⟩ := step_unselected hw hr h hd
    rw [hop]
    exact s.afterPorts_control

end

/-! ### The next-state function (R132), row by row -/

section
variable {s s' : State} (hw : s.wellFormed = true) (hr : s.ports.reset = false) (h : step s = .next s')
include hw hr h

theorem sequencerRow_hash {len : Nat} (hidle : s.busy = false) (hstart : s.ports.start = some len) :
    s.nextOp = some (.hash len) ∧ s'.phase = .padding ∧ s'.sub = 0 ∧ s'.blk = s.blk ∧ s'.t = s.t := by
  obtain ⟨hop, hperf⟩ := step_selected hw hr h (decode_eq_hash_iff.2 ⟨seqcIdle_of_notBusy hw hidle, hstart⟩)
  cases hperf with
  | hash => exact ⟨hop, rfl, rfl, s.afterPorts_blk, s.afterPorts_t⟩

theorem sequencerRow_idle (hidle : s.busy = false) (hstart : s.ports.start = none) :
    s.nextOp = none ∧ s'.phase = s.phase ∧ s'.sub = s.sub ∧ s'.blk = s.blk ∧ s'.t = s.t := by
  obtain ⟨hop, rfl⟩ := step_unselected hw hr h (decode_noCommand hw hidle hstart)
  exact ⟨hop, s.afterPorts_phase, s.afterPorts_sub, s.afterPorts_blk, s.afterPorts_t⟩

theorem sequencerRow_pad (hp : s.phase = .padding) :
    s.nextOp = some .pad ∧
      if 8 * s.len < 2 ^ 64 then s'.phase = .blockLoop ∧ s'.sub = subLoad ∧ s'.blk = 0 ∧ s'.t = s.t
      else s'.phase = .start ∧ s'.sub = 0 ∧ s'.blk = s.blk ∧ s'.t = s.t ∧ s'.fault = .inputTooLarge := by
  obtain ⟨hsub, -⟩ := (wellFormed_padding hp).1 hw
  obtain ⟨hop, hperf⟩ := step_selected hw hr h (decode_padding _ hp hsub)
  refine ⟨hop, ?_⟩
  cases hperf with
  | padTooLong _ _ hl =>
    rw [State.afterPorts_len] at hl
    rw [if_neg (Nat.not_lt.2 hl)]
    exact ⟨rfl, rfl, s.afterPorts_blk, s.afterPorts_t, rfl⟩
  | pad _ _ _ hl =>
    rw [State.afterPorts_len] at hl
    rw [if_pos hl]
    exact ⟨rfl, rfl, rfl, s.afterPorts_t⟩

theorem sequencerRow_ldblk (hp : s.phase = .blockLoop) (hs : s.sub = subLoad) :
    s.nextOp = some .ldblk ∧ s'.phase = .blockLoop ∧ s'.sub = subSched ∧ s'.blk = s.blk ∧ s'.t.val = 16 := by
  obtain ⟨hop, hperf⟩ := step_selected hw hr h (decode_load _ hp hs)
  cases hperf with
  | ldblk => exact ⟨hop, rfl, rfl, s.afterPorts_blk, rfl⟩

theorem sequencerRow_ldwr (hp : s.phase = .blockLoop) (hs : s.sub = subInit) :
    s.nextOp = some .ldwr ∧ s'.phase = .blockLoop ∧ s'.sub = subRound ∧ s'.blk = s.blk ∧ s'.t.val = 0 := by
  obtain ⟨hop, hperf⟩ := step_selected hw hr h (decode_init _ hp hs)
  cases hperf with
  | ldwr => exact ⟨hop, rfl, rfl, s.afterPorts_blk, rfl⟩

/-- The rows of an operation that turns a counted loop. -/
theorem sequencerRow_turn {i : Instr} {sub next : BitVec 3} (hd : decode s.opWord = .ok i)
    (hturn : s.control.after i = s.control.turn sub next) :
    s.nextOp = some i ∧ s'.phase = .blockLoop ∧ s'.blk = s.blk ∧
      (s.t.val < 63 → s'.sub = sub ∧ s'.t.val = s.t.val + 1) ∧ (s.t.val = 63 → s'.sub = next ∧ s'.t.val = 63) := by
  have hop := nextOp_of_decode hr hw hd
  have hc : s'.control = s.control.turn sub next := by rw [← hturn, step_control hw hr h, hop, Option.elim_some]
  by_cases hmore : s.t.val < 63
  · rw [Control.turn_more (c := s.control) _ _ hmore] at hc
    exact ⟨hop, congrArg Control.phase hc, congrArg Control.blk hc,
      fun _ => ⟨congrArg Control.sub hc, congrArg (·.t.val) hc⟩, fun hlast => absurd hlast (Nat.ne_of_lt hmore)⟩
  · have hlast : s.t.val = 63 := by omega
    rw [Control.turn_last (c := s.control) _ _ hlast] at hc
    exact ⟨hop, congrArg Control.phase hc, congrArg Control.blk hc, fun h => absurd h hmore,
      fun _ => ⟨congrArg Control.sub hc, (congrArg (·.t.val) hc).trans hlast⟩⟩

theorem sequencerRow_acc (hp : s.phase = .blockLoop) (hs : s.sub = subAcc) :
    s.nextOp = some .acc ∧ s'.t = s.t ∧ (StateInv s → s'.t.val = 63) ∧
      (s.blk + 1 < s.n → s'.phase = .blockLoop ∧ s'.sub = subLoad ∧ s'.blk = s.blk + 1) ∧
      (s.blk + 1 = s.n → s'.phase = .finalize ∧ s'.sub = subRaw ∧ s'.blk = s.blk) := by
  obtain ⟨hop, hperf⟩ := step_selected hw hr h (decode_acc _ hp hs)
  obtain ⟨-, ht, hmore, hlast, -⟩ := hperf.acc_folds
  simp only [State.afterPorts_t, State.afterPorts_blk, State.afterPorts_n] at ht hmore hlast
  refine ⟨hop, ht, ?_, hmore, fun heq => hlast (by omega)⟩
  rintro ⟨-, -, -, hloop⟩
  rw [ht, hloop hp (.inr hs)]

theorem sequencerRow_digest (hp : s.phase = .finalize) (hs : s.sub = subRaw) :
    s.nextOp = some .digest ∧ s'.phase = .finalize ∧ s'.sub = subText ∧ s'.blk = s.blk ∧ s'.t = s.t := by
  obtain ⟨hop, hperf⟩ := step_selected hw hr h (decode_raw _ hp hs)
  cases hperf with
  | digest => exact ⟨hop, rfl, rfl, s.afterPorts_blk, s.afterPorts_t⟩

theorem sequencerRow_hex (hp : s.phase = .finalize) (hs : s.sub = subText) :
    s.nextOp = some .hex ∧ s'.phase = .digestReady ∧ s'.sub = 0 ∧ s'.blk = s.blk ∧ s'.t = s.t ∧ s'.dv = true := by
  obtain ⟨hop, hperf⟩ := step_selected hw hr h (decode_text _ hp hs)
  cases hperf with
  | hex => exact ⟨hop, rfl, rfl, s.afterPorts_blk, s.afterPorts_t, rfl⟩

end

/-- Settles O14, row by row: in each phase a well-formed state is at one of the places of the table. -/
theorem sequencerNextState : Obligations.SequencerNextState := by
  intro s s' hw hr h
  cases hp : s.phase with
  | start | digestReady =>
    have hidle : s.busy = false := by simp [State.busy, hp]
    exact ⟨fun len => sequencerRow_hash hw hr h hidle, fun hstart => hp ▸ sequencerRow_idle hw hr h hidle hstart⟩
  | padding => exact sequencerRow_pad hw hr h hp
  | blockLoop =>
    obtain ⟨-, -, -, -, -, hplace, -⟩ := (wellFormed_blockLoop hp).1 hw
    dsimp only
    split_ifs with hload hsched hinit hround
    · exact sequencerRow_ldblk hw hr h hp hload
    · exact sequencerRow_turn hw hr h (decode_sched _ hp hsched) rfl
    · exact sequencerRow_ldwr hw hr h hp hinit
    · exact sequencerRow_turn hw hr h (decode_round _ hp hround) rfl
    · have hacc : s.sub = subAcc :=
        (((hplace.resolve_left hload).resolve_left fun hs => hsched hs.1).resolve_left hinit).resolve_left hround
      exact ⟨hacc, sequencerRow_acc hw hr h hp hacc⟩
  | finalize =>
    obtain ⟨-, -, hplace⟩ := (wellFormed_finalize hp).1 hw
    dsimp only
    split_ifs with hraw
    · exact sequencerRow_digest hw hr h hp hraw
    · obtain ⟨htext, -⟩ := hplace.resolve_left hraw
      exact ⟨htext, sequencerRow_hex hw hr h hp htext⟩

/-! ### Control depends on LEN alone (R133) -/

/-- Settles O15: two engines with the same control and the same ports select the same operation, and their steps move the control
by it. -/
theorem controlDependsOnLengthAlone : Obligations.ControlDependsOnLengthAlone := by
  intro s1 s2 t1 t2 hw1 hw2 hr1 hinputs hphase hsub hblk ht hn hlen h1 h2
  have hports := ports_congr hinputs
  have hr2 : s2.ports.reset = false := hports ▸ hr1
  have hop : s1.nextOp = s2.nextOp := by
    simp only [State.nextOp, State.opWord, State.seqc, hw1, hw2, hports, hphase, hsub]
  have hcontrol : s1.control = s2.control := by
    simp only [State.control, hphase, hsub, hblk, ht, hn, hlen]
  have hafter : t1.control = t2.control := by
    rw [step_control hw1 hr1 h1, step_control hw2 hr2 h2, hop, hcontrol]
  refine ⟨hop, by rw [step_inputs h1, step_inputs h2, hinputs], ?_⟩
  simpa only [State.control, Control.mk.injEq] using hafter

end Sys2Proof.Machine

/-! The faults (60_exceptions.md): an index out of range fails fast (R154), FAULT and the digest are held (R153), and the engines of
a system are independent (R161). -/

namespace Sys2Proof.Machine

/-! ### An index out of range (R154) -/

/-- Settles O26: LDBLK and SCHED with an index out of range are the fail-fast entry. -/
theorem indexOutOfRangeFailsFast : Obligations.IndexOutOfRangeFailsFast := by
  intro s i hout
  have hexec : exec i s = .next s.failFast := by
    rcases hout with ⟨rfl, hblk⟩ | ⟨rfl, ht⟩
    · exact execLdblk_out (blockAt_eq_none.2 hblk)
    · exact execSched_out (Nat.not_le.2 ht)
  exact ⟨_, hexec, rfl, rfl, rfl, rfl, rfl, fun _ => rfl, rfl, rfl, rfl, rfl⟩

/-! ### FAULT and the digest are held (R153) -/

/-- A busy engine has recorded no fault and shows no digest. -/
theorem busy_noFault_noDigest {s : State} (hw : s.wellFormed = true) (hb : s.busy = true) :
    s.fault = .none ∧ s.dv = false := by
  constructor
  · refine fault_eq_none hw fun hp => ?_
    simp [State.busy, hp] at hb
  · rw [dv_eq_done hw]
    rcases busy_iff.1 hb with hp | hp | hp <;> simp [State.done, hp]

/-- Settles O46: a busy engine has neither a fault nor a digest to hold, and an idle one with no command comes to the state behind
the ports. -/
theorem faultAndDigestAreHeld : Obligations.FaultAndDigestAreHeld := by
  intro s s' hw hr hnoHash h
  by_cases hb : s.busy = true
  · obtain ⟨hf, hdv⟩ := busy_noFault_noDigest hw hb
    exact ⟨fun hfault => absurd hf hfault, fun hvalid => by simp [hdv] at hvalid⟩
  · have hd := decode_noCommand hw (Bool.eq_false_of_not_eq_true hb) (hnoHash.resolve_left hb)
    obtain ⟨-, rfl⟩ := step_unselected hw hr h hd
    exact ⟨fun _ => s.afterPorts_fault, fun hvalid => ⟨s.afterPorts_dv.trans hvalid, s.afterPorts_d, s.afterPorts_x⟩⟩

/-! ### The engines of a system (R161) -/

/-- The engine after its turn: it has taken a step, or stays where its step stops (log 15). -/
def State.advance (s : State) : State :=
  match step s with
  | .next s' => s'
  | .fault _ => s
  | .refused _ => s

theorem advance_of_next {s s' : State} (h : step s = .next s') : s.advance = s' := by
  simp [State.advance, h]

theorem advance_of_fault {s : State} {r : Fault} (h : step s = .fault r) : s.advance = s := by
  simp [State.advance, h]

theorem advance_of_refused {s : State} {r : Refusal} (h : step s = .refused r) : s.advance = s := by
  simp [State.advance, h]

/-- A turn of engine `j` moves that engine and no other. -/
theorem System.engines_stepAt (sys : System) (j k : Nat) :
    (sys.stepAt j).engines[k]? = if j = k then sys.engines[k]?.map State.advance else sys.engines[k]? := by
  split_ifs with hjk
  · subst j
    cases hk : sys.engines[k]? with
    | none => simp [System.stepAt, hk]
    | some s =>
      cases hs : step s with
      | next s' => simp [System.stepAt, hk, hs, List.getElem?_set_self', advance_of_next hs]
      | fault r => simp [System.stepAt, hk, hs, advance_of_fault hs]
      | refused r => simp [System.stepAt, hk, hs, advance_of_refused hs]
  · cases hj : sys.engines[j]? with
    | none => simp [System.stepAt, hj]
    | some s =>
      cases hs : step s with
      | next s' => simp [System.stepAt, hj, hs, List.getElem?_set_ne hjk]
      | fault r => simp [System.stepAt, hj, hs]
      | refused r => simp [System.stepAt, hj, hs]

/-- Under every schedule an engine has advanced by its own turns. -/
theorem System.engines_run (sys : System) (turns : Nat → Nat) (m k : Nat) :
    (sys.run turns m).engines[k]? = sys.engines[k]?.map State.advance^[stepsOf turns k m] := by
  induction m with
  | zero => simp [System.run, stepsOf]
  | succ m ih =>
    rw [System.run, System.engines_stepAt, ih, stepsOf]
    split
    · rw [Option.map_map, Function.iterate_succ']
    · rfl

/-- An engine whose own run takes `n` steps is there after `n` turns. -/
theorem advance_iterate_of_runSteps {n : Nat} {s s' : State} (h : runSteps n s = .next s') : State.advance^[n] s = s' := by
  induction n generalizing s with
  | zero => exact Host.Outcome.next.inj h
  | succ n ih =>
    cases hs : step s with
    | next t =>
      rw [Function.iterate_succ_apply, advance_of_next hs]
      exact ih (runSteps_succ hs ▸ h)
    | fault r => simp [runSteps, hs] at h
    | refused r => simp [runSteps, hs] at h

/-- An engine whose own run stops within `n` steps is, after `n` turns, in the state in which it stopped. -/
theorem advance_iterate_of_runSteps_fault {n : Nat} {s : State} {r : Fault} (h : runSteps n s = .fault r) :
    ∃ l s', l < n ∧ runSteps l s = .next s' ∧ step s' = .fault r ∧ State.advance^[n] s = s' := by
  induction n generalizing s with
  | zero => simp at h
  | succ n ih =>
    cases hs : step s with
    | next t =>
      obtain ⟨l, s', hl, hrun, hstop, hend⟩ := ih (runSteps_succ hs ▸ h)
      exact ⟨l + 1, s', Nat.succ_lt_succ hl, (runSteps_succ hs).trans hrun, hstop,
        by rw [Function.iterate_succ_apply, advance_of_next hs, hend]⟩
    | fault r' =>
      obtain rfl : r' = r := by simpa [runSteps, hs] using h
      exact ⟨0, s, n.succ_pos, rfl, hs, Function.iterate_fixed (advance_of_fault hs) _⟩
    | refused r' => simp [runSteps, hs] at h

/-- Settles O51: engine `k` has advanced by as many turns as the schedule gave it, and its own run says where that leads. -/
theorem enginesAreIndependent : Obligations.EnginesAreIndependent := by
  intro sys turns m k s hk
  have hengine : (sys.run turns m).engines[k]? = some (State.advance^[stepsOf turns k m] s) := by
    rw [sys.engines_run, hk, Option.map_some]
  refine ⟨fun s' h => ?_, fun r h => ?_⟩
  · rw [hengine, advance_iterate_of_runSteps h]
  · obtain ⟨l, s', hl, hrun, hstop, hend⟩ := advance_iterate_of_runSteps_fault h
    exact ⟨l, s', hl, hrun, hstop, by rw [hengine, hend]⟩

end Sys2Proof.Machine

/-! What stops a step and what does not (70_reset_and_hazards.md R170, R174): RESET wins from any state, and only a message byte that is
not backed stops PAD. -/

namespace Sys2Proof.Machine

/-- Settles O18: the step is the RESET event on the state in which the host's byte has landed, which is all that has. -/
theorem resetWinsFromAnyState : Obligations.ResetWinsFromAnyState := by
  intro s hr
  have hstep := step_reset hr
  rw [State.landed_eq] at hstep
  exact ⟨_, hstep, rfl, rfl, rfl, rfl, rfl, rfl, rfl, rfl, rfl, rfl, rfl, rfl, rfl, rfl, rfl, rfl, fun _ => State.landed_read⟩

/-- `a` is the lowest index of the message of `s` that is not backed. -/
structure State.FirstAbsent (s : State) (a : Nat) : Prop where
  inMessage : a < s.len
  absent : s.messageByte a = none
  below : ∀ b, b < a → (s.messageByte b).isSome = true

/-- PAD stops at the lowest index of the message that is not backed (93_implementation_defined.md U4, log 4). -/
theorem execPad_firstAbsent {s : State} {a : Nat} (hl : s.len < 2 ^ 61) (h : s.FirstAbsent a) :
    exec .pad s = .fault (.messageByteAbsent a) :=
  execPad_absent (by omega) <|
    readRange_eq_error a.zero_le (by simpa using h.inMessage) h.absent fun b _ => h.below b

/-- Settles O23: the index is the first of the message that cannot be read. -/
theorem padStopsAtAbsentByte : Obligations.PadStopsAtAbsentByte := fun _ _ hl ha hnone hbelow =>
  execPad_firstAbsent hl ⟨ha, hnone, hbelow⟩

/-- PAD answers a next state unless a byte of a message that can be padded is not backed. -/
theorem execPad_next_or_absent (s : State) :
    (∃ s', exec .pad s = .next s') ∨ (s.len < 2 ^ 61 ∧ ∃ a, s.FirstAbsent a) := by
  by_cases hl : 2 ^ 64 ≤ 8 * s.len
  · exact .inl ⟨_, execPad_tooLarge hl⟩
  · cases hread : readRange s.messageByte 0 s.len with
    | ok message => exact .inl ⟨_, execPad_ok hl hread⟩
    | error a =>
      obtain ⟨-, ha, hnone, hbelow⟩ := readRange_error hread
      exact .inr ⟨by omega, a, by omega, hnone, fun b => hbelow b b.zero_le⟩

/-- Settles O49: RESET, an ill-formed state and an idle engine answer, and so does every operation but PAD. -/
theorem onlyAbsentByteStops : Obligations.OnlyAbsentByteStops := by
  intro s
  cases hr : s.ports.reset with
  | true => exact .inl ⟨_, step_reset hr⟩
  | false =>
    cases hw : s.wellFormed with
    | false => exact .inl ⟨_, step_illFormed hr hw⟩
    | true =>
      rcases decode_wellFormed hw with ⟨i, hd⟩ | hd
      · rw [step_exec hr hw hd]
        by_cases hi : i = .pad
        · subst hi
          refine (execPad_next_or_absent s.afterPorts).imp_right ?_
          rintro ⟨hl, a, ha⟩
          exact ⟨a, execPad_firstAbsent hl ha, rfl, rfl, phase_of_decode_pad hw hd, s.afterPorts_len ▸ hl,
            s.afterPorts_len ▸ ha.inMessage, ha.absent, ha.below⟩
        · obtain ⟨s', he, -⟩ := exec_withMemory hi s.afterPorts [] []
          exact .inl ⟨s', he⟩
      · exact .inl ⟨_, step_idle hr hw hd⟩

end Sys2Proof.Machine

/-! The calls of a system end (70_reset_and_hazards.md R177, 60_exceptions.md R161): under weak fairness an engine takes every step that
it keeps enabled. -/

namespace Sys2Proof.Machine

/-! ### Turns under weak fairness -/

section
variable {sys : System} {turns : Nat → Nat} {k m : Nat} {s : State}

/-- Until its next turn an engine stays where it is. -/
theorem System.engine_waits {m' : Nat} (hk : (sys.run turns m).engines[k]? = some s) (hle : m ≤ m')
    (hturns : ∀ j, m ≤ j → j < m' → turns j ≠ k) : (sys.run turns m').engines[k]? = some s := by
  induction m', hle using Nat.le_induction with
  | base => exact hk
  | succ j hj ih =>
    rw [System.run, System.engines_stepAt, if_neg (hturns j hj j.lt_succ_self)]
    exact ih fun i hi hij => hturns i hi (Nat.lt_succ_of_lt hij)

/-- An engine with an enabled step gets a turn: until then the step stays enabled. -/
theorem WeaklyFair.turn {s' : State} (hfair : WeaklyFair sys turns k) (hk : (sys.run turns m).engines[k]? = some s)
    (hop : s.nextOp.isSome = true) (hstep : step s = .next s') : ∃ m', m ≤ m' ∧ turns m' = k := by
  by_contra hnone
  have hwaits : ∀ m', m ≤ m' → (sys.run turns m').Enabled k := fun m' hle =>
    ⟨s, s', System.engine_waits hk hle fun j hj _ hturn => hnone ⟨j, hj, hturn⟩, hop, hstep⟩
  exact hnone (hfair m hwaits)

/-- An engine takes its enabled step. -/
theorem WeaklyFair.step {s' : State} (hfair : WeaklyFair sys turns k) (hk : (sys.run turns m).engines[k]? = some s)
    (hop : s.nextOp.isSome = true) (hstep : step s = .next s') :
    ∃ m', m ≤ m' ∧ (sys.run turns m').engines[k]? = some s' := by
  classical
  have hturn := hfair.turn hk hop hstep
  obtain ⟨hle, hnext⟩ := Nat.find_spec hturn
  have hbefore : ∀ j, m ≤ j → j < Nat.find hturn → turns j ≠ k := fun j hj hlt hjk => Nat.find_min hturn hlt ⟨hj, hjk⟩
  refine ⟨Nat.find hturn + 1, Nat.le_succ_of_le hle, ?_⟩
  rw [System.run, System.engines_stepAt, if_pos hnext, System.engine_waits hk hle hbefore, Option.map_some,
    advance_of_next hstep]

/-- An engine comes to the end of a run that performs an operation at each step. -/
theorem WeaklyFair.reaches {ops : List TraceOp} {s' : State} (hfair : WeaklyFair sys turns k) (hrun : Performed ops s s')
    (hk : (sys.run turns m).engines[k]? = some s) : ∃ m', m ≤ m' ∧ (sys.run turns m').engines[k]? = some s' := by
  induction ops generalizing m s with
  | nil => exact ⟨m, le_rfl, (show s' = s from hrun) ▸ hk⟩
  | cons op ops ih =>
    obtain ⟨t, i, hstep, hop, -, hrun⟩ := hrun
    obtain ⟨m₁, hle, hk₁⟩ := hfair.step hk (by rw [hop]; rfl) hstep
    obtain ⟨m₂, hle', hk₂⟩ := ih hrun hk₁
    exact ⟨m₂, hle.trans hle', hk₂⟩

end

/-! ### The runs of the two kinds of call -/

/-- The engine that has ended a call shows the message's digest (45_hash_command_and_sequencer.md R136). -/
theorem State.Hashed.outcome {message : List Byte} {s : State} (h : s.Hashed message) (hl : 8 * message.length < 2 ^ 64) :
    s.phase = .digestReady ∧ s.fault = .none ∧ s.dv = true ∧ hashOf message = .digest s.d s.x := by
  obtain ⟨-, hdv, hfault, hd, hx⟩ := (wellFormed_digestReady h.ready.phase).1 h.ready.wf
  rw [h.h] at hd hx
  exact ⟨h.ready.phase, hfault, hdv, by rw [hashOf, if_neg (Nat.not_le.2 hl), hd, hx]⟩

theorem step_of_runSteps_succ {n : Nat} {s s' : State} (h : runSteps (n + 1) s = .next s') :
    ∃ t, step s = .next t ∧ runSteps n t = .next s' := by
  cases hs : step s with
  | next t => exact ⟨t, rfl, runSteps_succ hs ▸ h⟩
  | fault r => simp [runSteps, hs] at h
  | refused r => simp [runSteps, hs] at h

/-- A call with a message too long performs HASH and PAD. -/
theorem performed_tooLarge {s s' : State} {len : Nat} (hw : s.wellFormed = true) (hidle : s.busy = false)
    (hstart : s.ports.start = some len) (hquiet : ∀ q, q ∈ s.inputs.take 2 → Quiet len q)
    (hrun : runSteps 2 s = .next s') : Performed [traceOf s (.hash len), .pad] s s' := by
  obtain ⟨t, hhash, hrun⟩ := step_of_runSteps_succ hrun
  obtain ⟨u, hpad, hu⟩ := step_of_runSteps_succ hrun
  obtain rfl : u = s' := Host.Outcome.next.inj hu
  obtain ⟨hq, hlater⟩ := quiet_take_succ hquiet
  obtain ⟨hq', -⟩ := quiet_take_succ (k := 0) (by rwa [step_inputs hhash])
  obtain ⟨hop, hpadding, -⟩ := sequencerRow_hash hw hq.1 hhash hidle hstart
  obtain ⟨hop', -⟩ := sequencerRow_pad (step_wellFormed hhash) hq'.1 hpad hpadding
  exact ⟨t, _, hhash, hop, rfl, u, .pad, hpad, hop', rfl, rfl⟩

/-- Settles O52: the runs of both kinds of call perform an operation at each step, so that the engine comes to their ends. -/
theorem fairScheduleEndsEveryCall : Obligations.FairScheduleEndsEveryCall := by
  intro sys turns m k s p rest hfair hk hw hidle hin
  have hports := State.ports_mem hin
  constructor
  · intro message hp hl hholds hquiet
    rw [← length_hashOps] at hquiet
    obtain ⟨s', hrun, hend⟩ := leads_call_hashed hl s ⟨hw, hidle, hports ▸ hp, hholds⟩ hquiet
    obtain ⟨m', hle, hk'⟩ := hfair.reaches hrun hk
    exact ⟨m', s', hle, hk', hend.outcome hl⟩
  · intro len hp hl hquiet
    have hstart : s.ports.start = some len := hports ▸ hp
    obtain ⟨s', hrun, hend⟩ := call_tooLarge hw hidle hstart hl hquiet
    obtain ⟨m', hle, hk'⟩ := hfair.reaches (performed_tooLarge hw hidle hstart hquiet hrun) hk
    exact ⟨m', s', hle, hk', hend⟩

end Sys2Proof.Machine

/-! A call whose message the host changes (70_reset_and_hazards.md R174 (a), 93_implementation_defined.md U3): PAD reads a mixture, and
the call hashes it. -/

namespace Sys2Proof.Machine

/-! ### What PAD reads of a byte that the host changes (log 7) -/

/-- PAD would read at index `a` a byte between `low` and `high`. -/
def State.ReadsWithin (s : State) (a low high : Nat) : Prop :=
  ∃ b, s.messageByte a = some b ∧ low ≤ b.toNat ∧ b.toNat ≤ high

/-- What the host places at index `a` at this instant, if anything, lies between `low` and `high`. -/
def Ports.WritesWithin (p : Ports) (a low high : Nat) : Prop :=
  ∀ c : Host.Cell, p.msgWrite = some c → c.1 = a → low ≤ c.2.toNat ∧ c.2.toNat ≤ high

theorem writesWithin_nothing (a low high : Nat) : Ports.WritesWithin {} a low high :=
  fun _ h => nomatch h

theorem Ports.writesWithin_byte (p : Ports) (a : Nat) : p.WritesWithin a 0 255 :=
  fun c _ _ => ⟨Nat.zero_le _, Nat.le_of_lt_succ c.2.isLt⟩

theorem waitingLen_idle {s : State} (h : s.busy = false) : s.waitingLen = s.ports.start := by
  cases hp : s.phase <;> simp_all [State.waitingLen, State.busy]

theorem waitingLen_padding {s : State} (hp : s.phase = .padding) : s.waitingLen = some s.len := by
  simp [State.waitingLen, hp]

theorem recorded_idle {s : State} (h : s.busy = false) : s.recorded = { s with disturbed := [] } := by
  simp [State.recorded, h]

theorem recorded_busy {s : State} (h : s.busy = true) : s.recorded = s :=
  if_pos h

section
variable {s : State} {len a : Nat}

theorem disturbUnread_read_same {c : Host.Cell} {old : Byte} (hc : c.1 < len) (hold : s.messageByte c.1 = some old) :
    (s.disturbUnread len c).disturbed.read c.1 = some (between old c.2 (Config.freeMessageByte s.draws)) := by
  simp [State.disturbUnread, hc, hold, Memory.read_write_same]

theorem disturbUnread_read_other {c : Host.Cell} (h : a ≠ c.1) :
    (s.disturbUnread len c).disturbed.read a = s.disturbed.read a := by
  unfold State.disturbUnread
  split
  · exact Memory.read_write_other _ _ h
  · rfl

/-- A byte of a waiting message that the host does not write at this instant reads as before. -/
theorem messageByte_afterPorts_other (hwait : s.waitingLen = some len)
    (h : ∀ c : Host.Cell, s.ports.msgWrite = some c → c.1 ≠ a) : s.afterPorts.messageByte a = s.recorded.messageByte a := by
  simp only [State.messageByte, State.afterPorts_disturbed, State.afterPorts_msg, State.landed_read h, State.recorded_msg]
  cases hm : s.ports.msgWrite with
  | none => rw [disturb_waiting_noWrite hwait hm]
  | some c => rw [disturb_waiting_write hwait hm, disturbUnread_read_other (h c hm).symm]

/-- A byte of a waiting message that the host writes at this instant reads as one between the old and the new one. -/
theorem messageByte_afterPorts_written {c : Host.Cell} {old : Byte} (hwait : s.waitingLen = some len)
    (hm : s.ports.msgWrite = some c) (hc : c.1 < len) (hold : s.recorded.messageByte c.1 = some old) :
    s.afterPorts.messageByte c.1 = some (between old c.2 (Config.freeMessageByte s.draws)) := by
  simp only [State.messageByte, State.afterPorts_disturbed, disturb_waiting_write hwait hm, disturbUnread_read_same hc hold,
    State.recorded_draws]

/-- Bounds of a byte of a waiting message that hold what the host writes there at this instant hold what PAD then reads. -/
theorem State.ReadsWithin.afterPorts {low high : Nat} (h : s.recorded.ReadsWithin a low high)
    (hwait : s.waitingLen = some len) (ha : a < len) (hp : s.ports.WritesWithin a low high) :
    s.afterPorts.ReadsWithin a low high := by
  obtain ⟨old, hold, hlow, hhigh⟩ := h
  by_cases hwrite : ∃ c : Host.Cell, s.ports.msgWrite = some c ∧ c.1 = a
  · obtain ⟨c, hm, rfl⟩ := hwrite
    obtain ⟨hlow', hhigh'⟩ := hp c hm rfl
    exact ⟨_, messageByte_afterPorts_written hwait hm ha hold, between_bounds _ hlow hhigh hlow' hhigh'⟩
  · exact ⟨old, (messageByte_afterPorts_other hwait fun c hm hca => hwrite ⟨c, hm, hca⟩).trans hold, hlow, hhigh⟩

end

/-! ### HASH and PAD -/

/-- What the host keeps at the coming instants and keeps by presenting nothing, it keeps at the next one. -/
theorem duty_now {duty : Ports → Prop} {s : State} {k : Nat} (hnothing : duty {})
    (h : ∀ p, p ∈ s.inputs.take (k + 1) → duty p) : duty s.ports := by
  cases hin : s.inputs with
  | nil => exact State.ports_eq_default hin ▸ hnothing
  | cons p rest => exact State.ports_mem hin ▸ h p (by simp [hin])

/-- `holds j low high`, for every byte `j` of `message` and all bounds that hold it and what `writes` place there. -/
def Mixes (message : List Byte) (writes : List Ports) (holds : Nat → Nat → Nat → Prop) : Prop :=
  ∀ (j : Nat) (inMessage : j < message.length) (low high : Nat), low ≤ message[j].toNat → message[j].toNat ≤ high →
    (∀ q, q ∈ writes → q.WritesWithin j low high) → holds j low high

/-- Each byte of `mixed` lies between those that `message` and `writes` have at its index. -/
structure MixtureOf (message : List Byte) (writes : List Ports) (mixed : List Byte) : Prop where
  length : mixed.length = message.length
  bytes : Mixes message writes fun j low high =>
    ∀ inMixed : j < mixed.length, low ≤ mixed[j].toNat ∧ mixed[j].toNat ≤ high

/-- The engine is in Padding, and PAD would read a mixture of `message` and what the host writes at the instants `writes`, the
coming one among them. -/
structure State.Unread (message : List Byte) (writes : List Ports) (s : State) : Prop where
  wf : s.wellFormed = true
  phase : s.phase = .padding
  len : s.len = message.length
  now : s.inputs.take 1 ⊆ writes
  reads : Mixes message writes s.ReadsWithin

section
variable {message : List Byte} {writes : List Ports}

/-- What PAD reads is still such a mixture once the host's byte of the same instant has landed. -/
theorem State.Unread.reads_now {s : State} (h : s.Unread message writes) :
    Mixes message writes s.afterPorts.ReadsWithin := by
  intro j hj low high hlow hhigh hq
  have hbusy : s.busy = true := busy_iff.2 (.inl h.phase)
  have hnow : s.ports.WritesWithin j low high :=
    duty_now (k := 0) (writesWithin_nothing j low high) fun q hq' => hq q (h.now hq')
  refine State.ReadsWithin.afterPorts ?_ (waitingLen_padding h.phase) (h.len ▸ hj) hnow
  rw [recorded_busy hbusy]
  exact h.reads j hj low high hlow hhigh hq

/-- Every byte of the mixture is backed, so that PAD is enabled. -/
theorem State.Unread.enabled {s : State} (h : s.Unread message writes) : ∃ s', exec .pad s.afterPorts = .next s' := by
  refine (execPad_next_or_absent s.afterPorts).resolve_right ?_
  rintro ⟨-, a, ha⟩
  have hin : a < message.length := by simpa [h.len] using ha.inMessage
  obtain ⟨b, hb, -⟩ := h.reads_now a hin 0 255 (Nat.zero_le _) (Nat.le_of_lt_succ message[a].isLt) fun q _ =>
    q.writesWithin_byte a
  simp [ha.absent] at hb

/-- The message that PAD reads is a mixture. -/
theorem State.Unread.mixtureOf {s : State} {mixed : List Byte} (h : s.Unread message writes)
    (hmixed : s.afterPorts.ReadsAs mixed) (hlen : mixed.length = message.length) : MixtureOf message writes mixed := by
  refine ⟨hlen, fun j hj low high hlow hhigh hq hj' => ?_⟩
  obtain ⟨b, hb, hbounds⟩ := h.reads_now j hj low high hlow hhigh hq
  obtain rfl : mixed[j] = b := Option.some.inj ((hmixed j hj').symm.trans hb)
  exact hbounds

variable {duty : Ports → Prop} (hduty : NoReset duty)
include hduty

theorem leads_hash_unread :
    Leads duty [.hash message.length (some message)] (fun s => s.Called message ∧ s.inputs.take 2 ⊆ writes)
      (State.Unread message writes) := by
  refine .step hduty (i := .hash message.length) fun s ⟨h, hwrites⟩ _ => ⟨h.wf,
    decode_eq_hash_iff.2 ⟨seqcIdle_of_notBusy h.wf h.idle, h.start⟩, by simp [traceOf, h.holds.readRange], _,
    execHash_idle _ (by simpa using h.idle), fun hw => ⟨hw, rfl, rfl, ?_, fun j hj low high hlow hhigh hq => ?_⟩⟩
  · have htail : s.afterPorts.inputs.take 1 = (s.inputs.take 2).tail := by
      rw [State.afterPorts_inputs, List.tail_take_eq_take_tail]
    exact fun q hq => hwrites (List.mem_of_mem_tail (htail ▸ hq))
  · have hreads : s.recorded.ReadsAs message := Memory.Holds.readsAs (by simpa using h.holds) (by rw [recorded_idle h.idle])
    have hnow : s.ports.WritesWithin j low high :=
      duty_now (k := 1) (writesWithin_nothing j low high) fun q hq' => hq q (hwrites hq')
    exact State.ReadsWithin.afterPorts ⟨_, hreads j hj, hlow, hhigh⟩ ((waitingLen_idle h.idle).trans h.start) hj hnow

/-- PAD pads the mixture it reads. -/
theorem leads_pad_mixed (hl : 8 * message.length < 2 ^ 64) :
    Leads duty [.pad] (State.Unread message writes) fun s => ∃ mixed, MixtureOf message writes mixed ∧ s.Hashing mixed 0 := by
  refine .step hduty (i := .pad) fun s h _ => ?_
  obtain ⟨hsub, -, -, hiv⟩ := (wellFormed_padding h.phase).1 h.wf
  have hlen : s.afterPorts.len = message.length := by simpa using h.len
  have hdec : decode s.opWord = .ok .pad := decode_padding _ h.phase hsub
  obtain ⟨s', hexec⟩ := h.enabled
  refine ⟨h.wf, hdec, rfl, s', hexec, fun hw => ?_⟩
  cases step_performs h.wf hdec hexec with
  | padTooLong _ _ htoo => omega
  | pad mixed _ _ _ hmixed hmlen =>
    refine ⟨mixed, h.mixtureOf hmixed (hmlen.trans hlen), ?_, hmlen.symm, by rw [pad, hmlen], s.afterPorts_h.trans hiv⟩
    rw [blockDue_more (blockCount_pos _)]
    exact ⟨hw, rfl, by rw [hmlen], rfl, rfl⟩

end

/-! ### The block loop and FINAL, whatever the host writes -/

/-- A run of the first `m` passes folds their blocks into H. -/
theorem Performed.foldsBlocks {m : Nat} {s t : State} (h : Performed ((List.range m).flatMap blockOps) s t)
    (hiv : s.h = ivTable) (hblk : s.blk = 0) (hm : m ≤ s.n) (hpm : s.pm.length = 64 * s.n) :
    t.h = chain s.pm m ∧ (m < s.n → t.blk = m) ∧ SameButPass s t := by
  induction m generalizing t with
  | zero =>
    obtain rfl : t = s := h
    exact ⟨hiv, fun _ => hblk, rfl⟩
  | succ m ih =>
    rw [List.range_succ, List.flatMap_append, List.flatMap_singleton] at h
    obtain ⟨u, hbefore, hpass⟩ := h.split
    obtain ⟨hh, hu, hsame⟩ := ih hbefore (Nat.le_of_succ_le hm)
    have hublk : u.blk = m := hu hm
    obtain ⟨b, hb⟩ := exists_blockAt hpm hm
    have hdone := hpass.passDone (b := b) (by rw [hsame.pm, hublk, hb])
    refine ⟨by rw [hdone.h, hh, chain_succ hb], fun hmore => ?_, hsame.trans hdone.frame⟩
    obtain ⟨-, -, hnext⟩ := hdone.more (by rwa [hsame.n, hublk])
    rw [hnext, hublk]

section
variable {duty : Ports → Prop} (hduty : NoReset duty) {message : List Byte} {writes : List Ports}
include hduty

/-- The passes of a call and FINAL. -/
theorem leads_hashing_hashed :
    Leads duty ((List.range (blockCount message.length)).flatMap blockOps ++ finalOps) (State.Hashing message 0)
      (State.Hashed message) := by
  intro s hs hkept
  obtain ⟨s', hrun, hready⟩ := (leads_blocks hduty).append (leads_final hduty) s hs.due hkept
  obtain ⟨t, hblocks, hfinal⟩ := hrun.split
  have hin : s.InLoop (blockCount message.length) 0 subLoad := blockDue_more (blockCount_pos _) ▸ hs.due
  obtain ⟨hh, -, hsame⟩ := hblocks.foldsBlocks hs.h hin.blk hin.n.ge (by rw [hs.pm, length_pad, hin.n])
  obtain ⟨hh', hlen⟩ := hfinal.final_keeps
  exact ⟨s', hrun, hready, (hlen.trans hsame.len).trans hs.len, by rw [hh', hh, hs.pm, finalHash]⟩

/-- A call performs the pseudo-op hash(M) of its message, and hashes a mixture of it and what the host writes up to the PAD step. -/
theorem leads_call_mixed (hl : 8 * message.length < 2 ^ 64) :
    Leads duty (hashOps message) (fun s => s.Called message ∧ s.inputs.take 2 ⊆ writes)
      fun s => ∃ mixed, MixtureOf message writes mixed ∧ s.Hashed mixed := by
  refine (leads_hash_unread hduty).cons ((leads_pad_mixed hduty hl).cons ?_)
  rintro s ⟨mixed, hmix, hs⟩ hkept
  rw [← hmix.length] at hkept ⊢
  obtain ⟨s', hrun, hend⟩ := leads_hashing_hashed hduty s hs hkept
  exact ⟨s', hrun, mixed, hmix, hend⟩

end

/-- Settles O40: the call hashes a mixture of the message and what the host writes at its first two instants, those of HASH and of
PAD. -/
theorem changedMessageHashesBetween : Obligations.ChangedMessageHashesBetween := by
  intro s message p rest hw hidle hin hp hl hholds hreset
  rw [← length_hashOps] at hreset ⊢
  have hcalled : s.Called message := ⟨hw, hidle, by rw [State.ports_mem hin, hp], hholds⟩
  obtain ⟨s', hrun, mixed, hmix, hend⟩ :=
    leads_call_mixed (duty := fun q => q.reset = false) ⟨rfl, fun _ h => h⟩ hl s ⟨hcalled, List.Subset.refl _⟩ hreset
  obtain ⟨hphase, hfault, hdv, hhash⟩ := hend.outcome (hmix.length ▸ hl)
  exact ⟨s', mixed, hrun.runSteps, hphase, hfault, hdv, hend.len.trans hmix.length, hmix.length, hhash,
    fun j hj hj' low high hlow hhigh hq => hmix.bytes j hj low high hlow hhigh hq hj'⟩

end Sys2Proof.Machine
